-- ==== Sys2Proof/Word.lean ====
section
/-! DEFINITION. Word types of the block (spec/00_scope.md R10) and its plainest carriers. -/

namespace Sys2Proof

/-- `u8`: a code byte, a message byte. -/
abbrev Byte := BitVec 8

/-- `s16`: a linear PCM sample, 16 bits in two's complement (R10, R61; `PCM_BITS` = 16 of R9). -/
abbrev Sample := BitVec 16

/-- `u16`: an item identifier (R45, R95). -/
abbrev U16 := BitVec 16

/-- `u3`: the raw message kind (R45, R94). -/
abbrev Kind := BitVec 3

/-- A group of six like registers, numbered 1 to 6 as the spec numbers them (B1 … B6, DQ1 … DQ6). -/
structure Six (α : Type) where
  x1 : α
  x2 : α
  x3 : α
  x4 : α
  x5 : α
  x6 : α
deriving DecidableEq, Repr

end Sys2Proof
end

