-- ==== Sys2Proof/Syntax.lean ====
section
/-! DEFINITION. The operations of the block as data: one constructor of `Instr` per row of
spec/opcode_table.json (spec/30_encoding.md R92), operands carried as values (spec/00_scope.md R4). -/

namespace Sys2Proof

/-- The two ADPCM instances (R24): `rx` decodes received audio, `tx` encodes captured audio. -/
inductive Dir where
  | rx
  | tx
deriving DecidableEq, Repr

/-- The two rate-converter paths (R30): `up` playback, `dn` capture. -/
inductive Path where
  | up
  | dn
deriving DecidableEq, Repr

/-- The seven compression modes (R35, R103), in the order the source lists them. -/
inductive Mode where
  | noAudio
  | raw16
  | uLaw
  | adpcm5
  | adpcm4
  | adpcm3
  | adpcm2
deriving DecidableEq, Repr

/-- `FramedMessage` (R45): the kind is the raw 3-bit number. -/
structure FramedMessage where
  kind    : Kind
  itemId  : Option U16
  payload : List Byte
deriving DecidableEq, Repr

/-- One parameter of `MF_ENCODE` (R247): a width in bits and an integer taken modulo `2^width`. -/
structure Param where
  width : Nat
  value : Int
deriving DecidableEq, Repr

/-- The agents that issue operations (R70): network, capture and playback contexts, control, and the
single test agent of R75, "that plays all roles in turn". -/
inductive Agent where
  | net
  | cap
  | play
  | ctl
  | test
deriving DecidableEq, Repr

/-- The 34 operations of R92, operand names and types as in the table there. -/
inductive Instr where
  | powerOn
  | alawEnc (s : Sample)
  | alawDec (c : Byte)
  | ulawEnc (s : Sample)
  | ulawDec (c : Byte)
  | alawEncBuf (x : List Sample)
  | alawDecBuf (y : List Byte)
  | ulawEncBuf (x : List Sample)
  | ulawDecBuf (y : List Byte)
  | adpcmReset (i : Dir)
  | adpcmSetw (i : Dir) (w : Int)
  | adpcmEnc (i : Dir) (s : Sample)
  | adpcmDec (i : Dir) (code : Int)
  | adpcmEncBuf (i : Dir) (x : List Sample) (b : List Byte) (off : Int)
  | adpcmDecBuf (i : Dir) (b : List Byte) (off : Int) (n : Int)
  | rcReset (p : Path)
  | interp6 (x : List Sample)
  | decim6 (x : List Sample)
  | jbReset
  | jbPush (x : List Sample)
  | jbPull (n : Int)
  | mfReset
  | mfFeed (b : Byte)
  | mfEncode (kind : Kind) (item : Option U16) (params : List Param)
  | soStart
  | soStop
  | soDispatch (m : FramedMessage)
  | soRxAudio (p : List Byte)
  | soRxVideo (p : List Byte)
  | soSetTxMode (m : Mode)
  | soTxBlock (x : List Sample)
  | soTxDrain
  | soDeviceFail
  | soTransportStop
deriving DecidableEq, Repr

end Sys2Proof
end

