-- ==== Sys2Proof/Config.lean ====
section
/-! DEFINITION. The parameters of the block (spec/00_scope.md R9): what an implementation fixes "before
`POWER_ON`" and nothing changes during a run (R320, R78). The record is plain data, and every operation takes
it from `State.cfg`, so that what is proved for every state holds for every choice of the open parameters
(log entry 3). The default values and the requirements on them are in Machine/Params.lean. -/

namespace Sys2Proof

/-- A table indexed by compression mode (R103, R273). -/
structure ModeTable (α : Type) where
  noAudio : α
  raw16   : α
  uLaw    : α
  adpcm5  : α
  adpcm4  : α
  adpcm3  : α
  adpcm2  : α
deriving DecidableEq, Repr

/-- One range of item identifiers of one kind; a message selector (R264) is a list of these. Every predicate on
kind and item identifier that is false without an item identifier is such a list (log entry 3). -/
structure Selector where
  kind : Kind
  lo   : U16
  hi   : U16
deriving DecidableEq, Repr

/-- The parameters of R9 that are not fixed numbers. -/
structure Config where
  /-- `H2`, taps of the factor-2 stages (R203). -/
  h2 : List Int
  /-- `H3`, taps of the factor-3 stages (R203). -/
  h3 : List Int
  /-- `N2I`, `N2D`, `N3I`, `N3D`, the stage normalisers (R203). -/
  n2i : Int
  n2d : Int
  n3i : Int
  n3d : Int
  /-- `C`, the jitter-buffer capacity in samples (R9, R31). -/
  capacity : Nat
  /-- `DRIFT_GAIN` (R226). -/
  driftGain : Rat
  /-- `MAX_MSG_LEN` (R244). -/
  maxMsgLen : Nat
  /-- `MODE_CODE` (R103). -/
  modeCode : ModeTable Byte
  /-- `TX_MAX` (R273). -/
  txMax : ModeTable Nat
  /-- `AUDIO_SEL` and `VIDEO_SEL` (R264). -/
  audioSel : List Selector
  videoSel : List Selector
  /-- `AUDIO_TX`, the kind and item identifier of outbound audio packets (R264). -/
  audioTxKind : Kind
  audioTxItem : U16
deriving DecidableEq, Repr

end Sys2Proof
end

