-- ==== Sys2Proof/Machine/Bits.lean ====
section
/-! DEFINITION. Bit strings, byte order and the notation's operators (spec/00_scope.md R11 to R13,
spec/20_memory.md R60 to R62). -/

namespace Sys2Proof.Machine

/-- `bitlen(v)` of R12: 0 for 0, else `1 + floor(log2 v)`. -/
def bitlen (v : Nat) : Nat := if v = 0 then 0 else Nat.log2 v + 1

/-- `sat16(v)` of R12: `v` clamped to −32768 … 32767, as a sample. -/
def sat16 (v : Int) : Sample := BitVec.ofInt 16 (max (-32768) (min 32767 v))

/-- `truncN(v)` of R12: `v mod 2^N` as an unsigned pattern. -/
def truncN (n : Nat) (v : Int) : Nat := (v % 2 ^ n).toNat

/-- `rdiv(a, N)` of R202: `fdiv(2·a + N, 2·N)`, division rounded to nearest, halves toward plus infinity.
(`/` on `Int` is `fdiv` of R12 for a positive divisor.) -/
def rdiv (a n : Int) : Int := (2 * a + n) / (2 * n)

/-- `MemRead(B, i, n)` of R13 and R60: the `n` bytes of `B` from index `i`, least significant first. -/
def memRead (b : List Byte) (i : Nat) : Nat → Nat
  | 0 => 0
  | n + 1 => (b.getD i 0).toNat + 256 * memRead b (i + 1) n

/-- The `n` low bytes of `v`, least significant first (R60). -/
def leBytes : Nat → Nat → List Byte
  | 0, _ => []
  | n + 1, v => BitVec.ofNat 8 v :: leBytes n (v / 256)

/-- `MemWrite(B, i, n, v)` of R13 and R60, on a byte list that holds the bytes `i … i+n−1`. -/
def memWrite (b : List Byte) (i n v : Nat) : List Byte := b.take i ++ leBytes n v ++ b.drop (i + n)

/-- A sample as its two bytes, low byte first (R61). -/
def sampleBytes (s : Sample) : List Byte := leBytes 2 s.toNat

/-- The stream bits of a byte: bit 0 first (R62). -/
def byteBits (b : Byte) : List Bool := (List.range 8).map fun k => b.getLsbD k

/-- The stream bits of a byte list: stream bit `p` is bit `p mod 8` of byte `floor(p / 8)` (R62). -/
def streamBits (b : List Byte) : List Bool := b.flatMap byteBits

/-- The `w` low bits of `v`, least significant first. -/
def natBits (w v : Nat) : List Bool := (List.range w).map fun k => v.testBit k

/-- The number whose bits are given, least significant first. -/
def bitsNat : List Bool → Nat
  | [] => 0
  | b :: r => b.toNat + 2 * bitsNat r

/-- The `fdiv(len + 7, 8)` bytes whose stream bits are the given ones followed by zeros (R62, R175). -/
def packBits (bits : List Bool) : List Byte :=
  (List.range ((bits.length + 7) / 8)).map fun k => BitVec.ofNat 8 (bitsNat ((bits.drop (8 * k)).take 8))

/-- The code whose bit `b` is stream bit `p + b`, for `b < w` (R62, R105 (f)). -/
def codeAt (b : List Byte) (p w : Nat) : Nat := bitsNat (((streamBits b).drop p).take w)

end Sys2Proof.Machine
end

