-- ==== Sys2Proof/Machine/Params.lean ====
section
/-! DEFINITION. The parameters' fixed numbers, default values and requirements (spec/00_scope.md R9), and the
tables they define (R78: constants of the block). -/

namespace Sys2Proof

/-- The entry of a mode-indexed table. -/
def ModeTable.get {α : Type} (t : ModeTable α) : Mode → α
  | .noAudio => t.noAudio
  | .raw16 => t.raw16
  | .uLaw => t.uLaw
  | .adpcm5 => t.adpcm5
  | .adpcm4 => t.adpcm4
  | .adpcm3 => t.adpcm3
  | .adpcm2 => t.adpcm2

/-- The seven modes in the order of R103. -/
def Mode.all : List Mode := [.noAudio, .raw16, .uLaw, .adpcm5, .adpcm4, .adpcm3, .adpcm2]

/-- The mode whose `MODE_CODE` is the byte (R266); `MODE_CODE` is injective (R103), so there is at most one. -/
def Config.modeOf (c : Config) (b : Byte) : Option Mode := Mode.all.find? fun m => c.modeCode.get m == b

/-- A selector's answer (R264): false for a message without item identifier. -/
def selects (sel : List Selector) (kind : Kind) (item : Option U16) : Bool :=
  match item with
  | none => false
  | some i => sel.any fun r => r.kind == kind && decide (r.lo ≤ i) && decide (i ≤ r.hi)

/-- `K2 = ceil(len(H2)/2)` and `K3 = ceil(len(H3)/3)` of R30. -/
def Config.k2 (c : Config) : Nat := (c.h2.length + 1) / 2
def Config.k3 (c : Config) : Nat := (c.h3.length + 2) / 3

namespace Machine

/-- `DRIFT_PERIOD` of R9. -/
def driftPeriod : Nat := 48000

/-- `ALPHA` of R9: 0.02 as the exact rational 1/50. -/
def alpha : Rat := 1 / 50

/-- `ULAW_CLIP` of R9. -/
def ulawClip : Nat := 32635

/-- `RATE_INT` and `RATE_DEV` of R9, in Hz: nominal, no operation reads them (R341). -/
def rateInt : Nat := 8000
def rateDev : Nat := 48000

/-- The bits one sample takes in the payload of a mode (R103). -/
def payloadBits : Mode → Nat
  | .noAudio => 0
  | .raw16 => 16
  | .uLaw => 8
  | .adpcm5 => 5
  | .adpcm4 => 4
  | .adpcm3 => 3
  | .adpcm2 => 2

/-- The taps `H[p], H[p+l], H[p+2l], …` of one polyphase branch (R203, R204). -/
def branch (h : List Int) (l p : Nat) : List Int :=
  (List.range ((h.length + l - 1) / l)).map fun k => h.getD (p + k * l) 0

/-- The default parameters of R9: the values the spec lists with each OPEN parameter (R203, R264, R273, D12 to D31). -/
def defaultConfig : Config where
  h2 := [3, 0, -25, 0, 150, 256, 150, 0, -25, 0, 3]
  h3 := [6, 11, 0, -39, -66, 0, 189, 411, 512, 411, 189, 0, -66, -39, 0, 11, 6]
  n2i := 256
  n2d := 512
  n3i := 512
  n3d := 1536
  capacity := 24000
  driftGain := 1
  maxMsgLen := 8194
  modeCode := ⟨0, 1, 2, 3, 4, 5, 6⟩
  txMax := ⟨320, 320, 320, 320, 320, 320, 320⟩
  audioSel := [⟨4, 0x0000, 0xFFFF⟩]
  videoSel := [⟨5, 0x0000, 0xFFFF⟩]
  audioTxKind := 4
  audioTxItem := 0

/-! ### What R9 requires of the parameters -/

/-- R203 (a) to (c): odd length, linear phase, every branch sums to the interpolation normaliser. -/
abbrev tapsOk (h : List Int) (l : Nat) (ni nd : Int) : Prop :=
  h.length % 2 = 1 ∧ h.reverse = h ∧ 0 < ni ∧ nd = l * ni ∧ ∀ p < l, (branch h l p).sum = ni

/-- R9, D15: `C` is even and at least 4. -/
abbrev capacityOk (c : Nat) : Prop := c % 2 = 0 ∧ 4 ≤ c

/-- D21: 4 ≤ `MAX_MSG_LEN` ≤ 8194. -/
abbrev maxMsgLenOk (n : Nat) : Prop := 4 ≤ n ∧ n ≤ 8194

/-- R103: `MODE_CODE` is injective. -/
abbrev modeCodeOk (t : ModeTable Byte) : Prop := (Mode.all.map t.get).Nodup

/-- R273: at least one sample a packet, a message length that the header and the receiver admit, and never a
payload of exactly 2 bytes. -/
abbrev txMaxOk (t : ModeTable Nat) (maxMsgLen : Nat) : Prop :=
  ∀ m ∈ Mode.all, m ≠ .noAudio →
    1 ≤ t.get m ∧ 7 + (t.get m * payloadBits m + 7) / 8 ≤ min 8191 maxMsgLen ∧
      (t.get m * payloadBits m + 7) / 8 ≠ 2

/-- R264: `AUDIO_SEL` and `VIDEO_SEL` are never both true. -/
abbrev selectorsOk (audio video : List Selector) : Prop :=
  ∀ a ∈ audio, ∀ v ∈ video, a.kind = v.kind → a.hi < a.lo ∨ v.hi < v.lo ∨ a.hi < v.lo ∨ v.hi < a.lo

end Machine

open Machine in
/-- The parameters meet every requirement of the spec. -/
abbrev Config.Admissible (c : Config) : Prop :=
  tapsOk c.h2 2 c.n2i c.n2d ∧ tapsOk c.h3 3 c.n3i c.n3d ∧ capacityOk c.capacity ∧ maxMsgLenOk c.maxMsgLen ∧
    modeCodeOk c.modeCode ∧ txMaxOk c.txMax c.maxMsgLen ∧ selectorsOk c.audioSel c.videoSel

end Sys2Proof
end

