-- ==== Sys2Proof/Machine/Units.lean ====
section
/-! DEFINITION. The registers of each unit (spec/10_state.md) and their reset values (R46). CMP has none (R23). -/

namespace Sys2Proof.Machine

/-- The values of `ADP[i].W` (R25). -/
inductive CodeWidth where
  | w2
  | w3
  | w4
  | w5
deriving DecidableEq, Repr

/-- The registers of one ADPCM instance (R24 to R29). -/
structure Adp where
  /-- `W` (R25). -/
  w : CodeWidth
  /-- `A1`, `A2`, pole coefficients (R26). -/
  a1 : BitVec 16
  a2 : BitVec 16
  /-- `B1 … B6`, zero coefficients (R26). -/
  b : Six (BitVec 16)
  /-- `DQ1 … DQ6`, quantized differences as 11-bit float words, newest first (R27). -/
  dq : Six (BitVec 11)
  /-- `SR1`, `SR2`, reconstructed signals as 11-bit float words, newest first (R27). -/
  sr1 : BitVec 11
  sr2 : BitVec 11
  /-- `YL`, `YU`, the scale-factor pair (R28). -/
  yl : BitVec 19
  yu : BitVec 13
  /-- `DMS`, `DML`, `AP`, speed control (R29). -/
  dms : BitVec 12
  dml : BitVec 14
  ap : BitVec 10
  /-- `TD`, `PK1`, `PK2`, flags (R29). -/
  td : BitVec 1
  pk1 : BitVec 1
  pk2 : BitVec 1
deriving DecidableEq, Repr

/-- The playback path of the rate converter (R30). -/
structure RcUp where
  d2 : List Sample
  d3 : List Sample
deriving DecidableEq, Repr

/-- The capture path of the rate converter (R30). -/
structure RcDn where
  d2  : List Sample
  d3  : List Sample
  ph2 : Nat
  ph3 : Nat
deriving DecidableEq, Repr

/-- The jitter buffer (R31 to R33). -/
structure Jb where
  buf       : List Sample
  head      : Nat
  tail      : Nat
  level     : Nat
  startup   : Bool
  avg       : Rat
  consumed  : Nat
  drift     : Rat
  underruns : Nat
  overruns  : Nat
deriving DecidableEq, Repr

/-- The states of the framer (R34, R241). -/
inductive MfState where
  | awaitHeader1
  | awaitHeader2
  | awaitBody
deriving DecidableEq, Repr

/-- The framer's receive side (R34). -/
structure Mf where
  state : MfState
  hdrLo : Byte
  len   : Nat
  kind  : Kind
  idx   : Nat
  buf   : List Byte
  fault : Bool
deriving DecidableEq, Repr

/-- The outbound packet being built (R36): `SO.STAGE`, `SO.STAGE_BITS`, `SO.STAGE_COUNT`. -/
structure Stage where
  bytes : List Byte
  bits  : Nat
  count : Nat
deriving DecidableEq, Repr

/-- The orchestrator (R35, R36). -/
structure So where
  running : Bool
  rxMode  : Mode
  txMode  : Mode
  meter   : Sample
  txMeter : Sample
  stage   : Stage
  txq     : List (List Byte)
deriving DecidableEq, Repr

/-- An entry of `EVT.LOG` (R37, R291). -/
inductive Event where
  | underrun
  | overrun
  | framingViolation (len : Nat)
  | stopStreaming
  | badPacket (n : Nat)
  | badMode (mb : Byte)
deriving DecidableEq, Repr

/-- The numeric code of an event (R291). -/
def Event.code : Event → Nat
  | .underrun => 1
  | .overrun => 2
  | .framingViolation _ => 3
  | .stopStreaming => 4
  | .badPacket _ => 5
  | .badMode _ => 6

/-! ### Reset values (R46) -/

/-- R153, R322: every register of an ADPCM instance but `W`. -/
def Adp.idle (w : CodeWidth) : Adp where
  w := w
  a1 := 0
  a2 := 0
  b := ⟨0, 0, 0, 0, 0, 0⟩
  dq := ⟨32, 32, 32, 32, 32, 32⟩
  sr1 := 32
  sr2 := 32
  yl := 34816
  yu := 544
  dms := 0
  dml := 0
  ap := 0
  td := 0
  pk1 := 0
  pk2 := 0

/-- R209: the playback path. -/
def RcUp.idle (c : Config) : RcUp where
  d2 := List.replicate c.k2 0
  d3 := List.replicate c.k3 0

/-- R209: the capture path. -/
def RcDn.idle (c : Config) : RcDn where
  d2 := List.replicate c.h2.length 0
  d3 := List.replicate c.h3.length 0
  ph2 := 0
  ph3 := 0

/-- R221: the jitter buffer, its two statistics counters as given (they survive `JB_RESET`). -/
def Jb.idle (capacity underruns overruns : Nat) : Jb where
  buf := List.replicate capacity 0
  head := 0
  tail := 0
  level := 0
  startup := true
  avg := 0
  consumed := 0
  drift := 0
  underruns := underruns
  overruns := overruns

/-- R246: the framer. -/
def Mf.idle : Mf where
  state := .awaitHeader1
  hdrLo := 0
  len := 2
  kind := 0
  idx := 0
  buf := []
  fault := false

/-- R36: no packet being built. -/
def Stage.empty : Stage := ⟨[], 0, 0⟩

/-- R46: the orchestrator at power-on. -/
def So.idle : So where
  running := false
  rxMode := .noAudio
  txMode := .noAudio
  meter := 0
  txMeter := 0
  stage := Stage.empty
  txq := []

end Sys2Proof.Machine
end

