-- ==== Sys2Proof/Machine/Operands.lean ====
section
/-! DEFINITION. Operand and field assembly (spec/30_encoding.md R94 to R105, spec/41_adpcm.md R154). -/

namespace Sys2Proof.Machine

/-! ### The header word and the message (R94, R95, R97) -/

/-- The header word from its two bytes, low byte first (R94, R242). -/
def headerWord (lo hi : Byte) : Nat := lo.toNat ||| (hi.toNat <<< 8)

/-- `LENF = HDR[12:0]` (R94, R105 (a)). -/
def lenField (hdr : Nat) : Nat := hdr % 8192

/-- `KIND = HDR[15:13]` (R94, R105 (a)). -/
def kindField (hdr : Nat) : Kind := BitVec.ofNat 3 (hdr >>> 13)

/-- The total length `L` that a length field declares (R97, R105 (a)). -/
def declaredLength (lenf : Nat) : Nat := if lenf = 0 then 8194 else lenf

/-- The length field that declares the total length `L` (R97, R247). -/
def lengthField (len : Nat) : Nat := if len = 8194 then 0 else len

/-- The header word of a message of a kind and a total length (R94, R247). -/
def headerOf (kind : Kind) (len : Nat) : Nat := (kind.toNat <<< 13) ||| lengthField len

/-- The item identifier of a message's bytes (R95, R105 (b)). -/
def itemOf (msg : List Byte) : U16 := BitVec.ofNat 16 (memRead msg 2 2)

/-- The payload of a message's bytes, whose total length is `len` (R95, R245). -/
def payloadOf (msg : List Byte) (len : Nat) : List Byte := (msg.take len).drop 4

/-- The host-originated and target-originated names of the kinds (R96); no rule depends on them. -/
inductive HostKind where
  | setItem
  | reqItem
  | reqItemRange
  | ack
  | dataItem (n : Fin 4)
deriving DecidableEq, Repr

inductive TargetKind where
  | response
  | unsolicited
  | responseRange
  | ack
  | dataItem (n : Fin 4)
deriving DecidableEq, Repr

/-- The host-originated name of a kind (R96). -/
def hostKind (k : Kind) : HostKind :=
  match k.toNat with
  | 0 => .setItem
  | 1 => .reqItem
  | 2 => .reqItemRange
  | 3 => .ack
  | n => .dataItem (Fin.ofNat 4 n)

/-- The target-originated name of a kind (R96). -/
def targetKind (k : Kind) : TargetKind :=
  match k.toNat with
  | 0 => .response
  | 1 => .unsolicited
  | 2 => .responseRange
  | 3 => .ack
  | n => .dataItem (Fin.ofNat 4 n)

/-! ### Packets (R98, R99, R104) -/

/-- `METER` of an audio-data payload (R98, R105 (c)). -/
def audMeter (p : List Byte) : Sample := BitVec.ofNat 16 (memRead p 0 2)

/-- `MODE` of an audio-data payload (R98). -/
def audMode (p : List Byte) : Byte := p.getD 2 0

/-- `DATA` of an audio-data payload (R98). -/
def audData (p : List Byte) : List Byte := p.drop 3

/-- The payload of an audio-data packet with the given fields (R98, R274). -/
def audPayload (meter : Sample) (mode : Byte) (data : List Byte) : List Byte := sampleBytes meter ++ mode :: data

/-- `COUNT` of a silence packet (R104, R269). -/
def silenceCount (data : List Byte) : Nat := memRead data 0 2

/-- The raw samples of a byte list; an odd trailing byte is no sample (R61, R64 (a), R105 (d), R268). -/
def rawSamples (data : List Byte) : List Sample :=
  (List.range (data.length / 2)).map fun j => BitVec.ofNat 16 (memRead data (2 * j) 2)

/-! ### Codes and the linear scales (R100 to R102, R105, R154) -/

/-- `t = {SIGN, SEG, IVL}`, a code byte before its line inversion (R121). -/
def composeCode (sign seg iv : Nat) : Byte := BitVec.ofNat 8 ((sign <<< 7) ||| (seg <<< 4) ||| iv)

/-- The fields of a code byte after its line inversion is undone (R121). -/
def codeSign (t : Byte) : Nat := t.toNat >>> 7
def codeSeg (t : Byte) : Nat := (t.toNat >>> 4) % 8
def codeIvl (t : Byte) : Nat := t.toNat % 16

/-- `m` of R122: the one's-complement magnitude of a sample. -/
def onesMagnitude (s : Sample) : Nat := if s.toInt < 0 then (-s.toInt - 1).toNat else s.toInt.toNat

/-- `SL = s >>a 2` (R105 (g), R154). -/
def pcm14 (s : Sample) : Int := s.toInt / 4

/-- `s16(sext_16(SR) << 2)` (R105 (g), R154): it wraps and does not saturate. -/
def pcm16 (sr : Nat) : Sample := BitVec.ofInt 16 ((BitVec.ofNat 16 sr).toInt * 4)

/-- The number of bits of a code width (R151). -/
def CodeWidth.bits : CodeWidth → Nat
  | .w2 => 2
  | .w3 => 3
  | .w4 => 4
  | .w5 => 5

/-- The code width of an `ADPCM_SETW` operand, if it is one (R152). -/
def codeWidth (w : Int) : Option CodeWidth :=
  if w = 2 then some .w2 else if w = 3 then some .w3 else if w = 4 then some .w4 else if w = 5 then some .w5 else none

/-- `ADP.W` of a mode; none where the mode leaves it unchanged (R103). -/
def modeWidth : Mode → Option CodeWidth
  | .noAudio => none
  | .raw16 => none
  | .uLaw => none
  | .adpcm5 => some .w5
  | .adpcm4 => some .w4
  | .adpcm3 => some .w3
  | .adpcm2 => some .w2

/-- The sign of an ADPCM code, 1 for a negative difference (R102, R164). -/
def adpcmSign (w : CodeWidth) (code : Nat) : Nat := code >>> (w.bits - 1)

/-- The magnitude index of an ADPCM code (R102, R164). -/
def magnitudeIndex (w : CodeWidth) (code : Nat) : Nat :=
  if adpcmSign w code = 1 then (2 ^ w.bits - 1) - code else code

end Sys2Proof.Machine
end

