-- ==== Sys2Proof/Machine/AdpcmTables.lean ====
section
/-! DEFINITION. The constant tables of the ADPCM unit (spec/41_adpcm.md R155), one row per code width. -/

namespace Sys2Proof.Machine

/-- `QTAB`, the quantizer's decision levels (R155). -/
def qTab : CodeWidth → List Int
  | .w2 => [261]
  | .w3 => [8, 218, 331]
  | .w4 => [-124, 80, 178, 246, 300, 349, 400]
  | .w5 => [-122, -16, 68, 139, 198, 250, 298, 339, 378, 413, 445, 475, 502, 528, 553]

/-- `DQLN`, the normalised log of the quantizer output (R155). -/
def dqlnTab : CodeWidth → List Int
  | .w2 => [116, 365]
  | .w3 => [-2048, 135, 273, 373]
  | .w4 => [-2048, 4, 135, 213, 273, 323, 373, 425]
  | .w5 => [-2048, -66, 28, 104, 169, 224, 274, 318, 358, 395, 429, 459, 488, 514, 539, 566]

/-- `WTAB`, the scale-factor multipliers W(I) (R155). -/
def wTab : CodeWidth → List Int
  | .w2 => [-22, 439]
  | .w3 => [-4, 30, 137, 582]
  | .w4 => [-12, 18, 41, 64, 112, 198, 355, 1122]
  | .w5 => [14, 14, 24, 39, 40, 41, 58, 100, 141, 179, 219, 280, 358, 440, 529, 696]

/-- `FTAB`, the speed-control function F(I) (R155). -/
def fTab : CodeWidth → List Nat
  | .w2 => [0, 7]
  | .w3 => [0, 1, 2, 7]
  | .w4 => [0, 0, 0, 1, 1, 1, 3, 7]
  | .w5 => [0, 0, 0, 0, 0, 1, 1, 1, 1, 1, 2, 3, 4, 5, 6, 6]

end Sys2Proof.Machine
end

