-- ==== Sys2Proof/Machine/Flags.lean ====
section
/-! DEFINITION. The computations of the block's one-bit state (spec/10_state.md R38). There are no arithmetic
condition codes. -/

namespace Sys2Proof.Machine

/-- `PK0` of R165: the sign of the partial reconstructed signal. -/
def signPk (dqsez : Nat) : Nat := dqsez >>> 15

/-- `SIGPK` of R165: 1 exactly when the partial reconstructed signal is 0. -/
def sigPk (dqsez : Nat) : Nat := if dqsez = 0 then 1 else 0

/-- `DQTHR` of R166, the threshold of the transition detector. -/
def transitionThreshold (yl : Nat) : Nat :=
  let ylint := yl >>> 15
  let ylfrac := (yl >>> 10) &&& 31
  let thr1 := (32 + ylfrac) <<< ylint
  let thr2 := if ylint > 9 then 31 <<< 10 else thr1
  (thr2 + (thr2 >>> 1)) >>> 1

/-- `TR` of R166: a transition on a signal that the previous sample found to be a tone. -/
def transition (dqmag yl td : Nat) : Bool := decide (dqmag > transitionThreshold yl) && decide (td = 1)

/-- `TDP` of R169: A2 below −0.71875. -/
def toneDetected (a2p : Nat) : Nat := if 32768 ≤ a2p ∧ a2p < 53760 then 1 else 0

/-- The condition that ends start-up (R222, R224): the level exceeds half capacity, strictly. -/
def startupEnds (capacity : Nat) (startup : Bool) (level : Nat) : Bool := startup && decide (level > capacity / 2)

/-- The condition that sets `MF.FAULT` (R242, R244): a declared length of 1, 3 or above `MAX_MSG_LEN`. -/
def framingViolates (maxMsgLen len : Nat) : Bool := decide (len = 1) || decide (len = 3) || decide (len > maxMsgLen)

end Sys2Proof.Machine
end

