-- ==== Sys2Proof/Machine/AdpcmStep.lean ====
section
/-! DEFINITION. The ADPCM sample step (spec/41_adpcm.md R156 to R172), stage by stage. Every signal is a natural
number that holds a bit pattern of the stated width (R156); `% 2^n` is the rule's `& (2^n − 1)`. No stage reads a
register that this step has written: all registers are written together by `commit` (R172, R330). -/

namespace Sys2Proof.Machine

/-! ### Stage 1: step size (R159) -/

/-- `AL` of R159. -/
def speedLimit (ap : Nat) : Nat := if ap ≥ 256 then 64 else ap >>> 2

/-- `Y` of R159. -/
def stepSize (ap yu yl : Nat) : Nat :=
  let al := speedLimit ap
  let dif := (yu + 16384 - (yl >>> 6)) % 16384
  let difs := dif >>> 13
  let difm := if difs = 1 then (16384 - dif) % 8192 else dif
  let prodm := (difm * al) >>> 6
  let prod := if difs = 1 then (16384 - prodm) % 16384 else prodm
  ((yl >>> 6) + prod) % 8192

/-! ### Stage 2: signal estimate (R160, R161) -/

/-- `FMULT(An, SRn)` of R160. -/
def fmult (an srn : Nat) : Nat :=
  let ans := an >>> 15
  let anmag := if ans = 1 then (16384 - (an >>> 2)) % 8192 else an >>> 2
  let anexp := bitlen anmag
  let anmant := if anmag = 0 then 32 else (anmag <<< 6) >>> anexp
  let srns := srn >>> 10
  let srnexp := (srn >>> 6) % 16
  let srnmant := srn % 64
  let wans := srns ^^^ ans
  let wanexp := srnexp + anexp
  let wanmant := (srnmant * anmant + 48) >>> 4
  let wanmag := if wanexp ≤ 26 then (wanmant <<< 7) >>> (26 - wanexp) else ((wanmant <<< 7) <<< (wanexp - 26)) % 32768
  if wans = 1 then (65536 - wanmag) % 65536 else wanmag

/-- `SEZI` of R161. -/
def zeroEstimate (a : Adp) : Nat :=
  (fmult a.b.x1.toNat a.dq.x1.toNat + fmult a.b.x2.toNat a.dq.x2.toNat + fmult a.b.x3.toNat a.dq.x3.toNat +
    fmult a.b.x4.toNat a.dq.x4.toNat + fmult a.b.x5.toNat a.dq.x5.toNat + fmult a.b.x6.toNat a.dq.x6.toNat) % 65536

/-- `SEI` of R161. -/
def fullEstimate (a : Adp) : Nat :=
  (zeroEstimate a + fmult a.a2.toNat a.sr2.toNat + fmult a.a1.toNat a.sr1.toNat) % 65536

/-- A 15-bit two's-complement pattern extended to 16 bits (`SEX` of R162 and R165, `SEZX` of R165). -/
def extend15 (v : Nat) : Nat := if v >>> 14 = 1 then 32768 + v else v

/-! ### Stage 3, encode only: the code (R162, R163) -/

/-- `D` of R162. -/
def difference (sl : Int) (se : Nat) : Nat := (truncN 16 sl + 65536 - extend15 se) % 65536

/-- `DLN` of R162 as the signed number `dln`. -/
def logDifference (d y : Nat) : Int :=
  let dqm := if d >>> 15 = 1 then (65536 - d) % 32768 else d
  let exp := bitlen dqm - 1
  let mant := ((dqm <<< 7) >>> exp) % 128
  let dl := (exp <<< 7) + mant
  let dln := (dl + 4096 - (y >>> 2)) % 4096
  if dln ≥ 2048 then (dln : Int) - 4096 else dln

/-- The quantizer of R163. -/
def quantize (w : CodeWidth) (ds : Nat) (dln : Int) : Nat :=
  let k := ((qTab w).filter fun t => decide (t ≤ dln)).length
  let top := 2 ^ w.bits - 1
  match w with
  | .w2 => if ds = 1 then 3 - k else k
  | _ => if ds = 1 then top - k else if k = 0 then top else k

/-! ### Stage 4: inverse quantizer and reconstructed signal (R164, R165) -/

/-- `DQMAG` of R164. The shift by `14 − DEX` with `DEX = 15` is a left shift by 1 (R178). -/
def differenceMagnitude (w : CodeWidth) (code y : Nat) : Nat :=
  let dqln := truncN 12 ((dqlnTab w).getD (magnitudeIndex w code) 0)
  let dql := (dqln + (y >>> 2)) % 4096
  let dls := dql >>> 11
  let dex := (dql >>> 7) % 16
  let dmn := dql % 128
  let dqt := 128 + dmn
  if dls = 1 then 0 else if dex ≤ 14 then (dqt <<< 7) >>> (14 - dex) else (dqt <<< 7) <<< (dex - 14)

/-- `DQI` of R165. -/
def signedDifference (dqs dqmag : Nat) : Nat := if dqs = 1 then (65536 - dqmag) % 65536 else dqmag

/-! ### Stage 6: predictor update (R167 to R169) -/

/-- `FA1` of R167. -/
def limitedA1 (a1 : Nat) : Nat :=
  if a1 >>> 15 = 0 then (if a1 ≤ 8191 then a1 <<< 2 else 8191 <<< 2)
  else (if a1 ≥ 57345 then (a1 <<< 2) % 131072 else 24577 <<< 2)

/-- `A2P` of R167. -/
def nextA2 (a1 a2 pk0 pk1 pk2 sigpk : Nat) : Nat :=
  let pks1 := pk0 ^^^ pk1
  let pks2 := pk0 ^^^ pk2
  let uga2a := if pks2 = 1 then 114688 else 16384
  let fa1 := limitedA1 a1
  let fa := if pks1 = 1 then fa1 else (131072 - fa1) % 131072
  let uga2b := (uga2a + fa) % 131072
  let uga2s := uga2b >>> 16
  let uga2 := if sigpk = 1 then 0 else if uga2s = 1 then (uga2b >>> 7) + 64512 else uga2b >>> 7
  let a2s := a2 >>> 15
  let ula2 := if a2s = 1 then (65536 - ((a2 >>> 7) + 65024)) % 65536 else (65536 - (a2 >>> 7)) % 65536
  let ua2 := (uga2 + ula2) % 65536
  let a2t := (a2 + ua2) % 65536
  if 32768 ≤ a2t ∧ a2t ≤ 53248 then 53248 else if 12288 ≤ a2t ∧ a2t ≤ 32767 then 12288 else a2t

/-- `A1P` of R168. -/
def nextA1 (a1 a2p pk0 pk1 sigpk : Nat) : Nat :=
  let pks1 := pk0 ^^^ pk1
  let uga1 := if sigpk = 1 then 0 else if pks1 = 1 then 65344 else 192
  let ula1 := if a1 >>> 15 = 1 then (65536 - ((a1 >>> 8) + 65280)) % 65536 else (65536 - (a1 >>> 8)) % 65536
  let a1t := (a1 + (uga1 + ula1) % 65536) % 65536
  let a1ul := (15360 + 65536 - a2p) % 65536
  let a1ll := (a2p + 65536 - 15360) % 65536
  if 32768 ≤ a1t ∧ a1t ≤ a1ll then a1ll else if a1ul ≤ a1t ∧ a1t ≤ 32767 then a1ul else a1t

/-- `BP[n]` of R169. -/
def nextB (w : CodeWidth) (dqs dqmag bn dqn : Nat) : Nat :=
  let dqns := dqn >>> 10
  let ugb := if dqmag = 0 then 0 else if dqs ^^^ dqns = 1 then 65408 else 128
  let sh := if w = .w5 then 9 else 8
  let fill := if w = .w5 then 65408 else 65280
  let ulb := if bn >>> 15 = 1 then (65536 - ((bn >>> sh) + fill)) % 65536 else (65536 - (bn >>> sh)) % 65536
  (bn + (ugb + ulb) % 65536) % 65536

/-- The 11-bit float word of a sign and a magnitude (R27; `DQ0` and `SR0` of R169). -/
def floatWord (sign mag : Nat) : Nat :=
  let exp := bitlen mag
  let mant := if mag = 0 then 32 else (mag <<< 6) >>> exp
  (sign <<< 10) + (exp <<< 6) + mant

/-- `SR0` of R169. -/
def floatSr (sr : Nat) : Nat :=
  let srs := sr >>> 15
  floatWord srs (if srs = 1 then (65536 - sr) % 32768 else sr)

/-! ### Stage 7: speed control and scale factor (R170, R171) -/

/-- `DMSP` of R170. -/
def nextDms (fi dms : Nat) : Nat :=
  let dif := ((fi <<< 9) + 8192 - dms) % 8192
  let difsx := if dif >>> 12 = 1 then (dif >>> 5) + 3840 else dif >>> 5
  (difsx + dms) % 4096

/-- `DMLP` of R170. -/
def nextDml (fi dml : Nat) : Nat :=
  let dif := ((fi <<< 11) + 32768 - dml) % 32768
  let difsx := if dif >>> 14 = 1 then (dif >>> 7) + 16128 else dif >>> 7
  (difsx + dml) % 16384

/-- `AX` of R170. -/
def speedUp (y dmsp dmlp tdp : Nat) : Nat :=
  let dif := ((dmsp <<< 2) + 32768 - dmlp) % 32768
  let difm := if dif >>> 14 = 1 then (32768 - dif) % 16384 else dif
  let dthr := dmlp >>> 3
  if y ≥ 1536 ∧ difm < dthr ∧ tdp = 0 then 0 else 1

/-- `APP` of R170. -/
def nextAp (ax ap : Nat) : Nat :=
  let dif := ((ax <<< 9) + 2048 - ap) % 2048
  let difsx := if dif >>> 10 = 1 then (dif >>> 4) + 896 else dif >>> 4
  (difsx + ap) % 1024

/-- `YUP` of R171. -/
def nextYu (wi : Int) (y : Nat) : Nat :=
  let dif := truncN 17 (wi * 32 + 131072 - y)
  let difsx := if dif >>> 16 = 1 then (dif >>> 5) + 4096 else dif >>> 5
  let yut := (y + difsx) % 8192
  let geul := ((yut + 11264) % 16384) >>> 13
  let gell := ((yut + 15840) % 16384) >>> 13
  if gell = 1 then 544 else if geul = 0 then 5120 else yut

/-- `YLP` of R171. -/
def nextYl (yup yl : Nat) : Nat :=
  let dif := (yup + ((1048576 - yl) >>> 6)) % 16384
  let difsx := if dif >>> 13 = 1 then dif + 507904 else dif
  (yl + difsx) % 524288

/-! ### The whole step (R157) -/

/-- The signals of a step that the code and the registers before it give (stages 1, 2, 4 and 5). -/
structure Signals where
  y     : Nat
  code  : Nat
  dqs   : Nat
  mi    : Nat
  dqmag : Nat
  sr    : Nat
  pk0   : Nat
  sigpk : Nat
  tr    : Bool
deriving DecidableEq, Repr

/-- `Y`, stage 1 for an instance. -/
def Adp.stepY (a : Adp) : Nat := stepSize a.ap.toNat a.yu.toNat a.yl.toNat

/-- Stage 3 in encode mode (R162, R163): the code for the 14-bit input `sl`. -/
def Adp.encodeCode (a : Adp) (sl : Int) : Nat :=
  let d := difference sl (fullEstimate a >>> 1)
  quantize a.w (d >>> 15) (logDifference d a.stepY)

/-- Stages 1, 2, 4 and 5 for a code (R159 to R161, R164 to R166). -/
def Adp.signals (a : Adp) (code : Nat) : Signals :=
  let y := a.stepY
  let dqs := adpcmSign a.w code
  let dqmag := differenceMagnitude a.w code y
  let dqi := signedDifference dqs dqmag
  let dqsez := (dqi + extend15 (zeroEstimate a >>> 1)) % 65536
  { y := y
    code := code
    dqs := dqs
    mi := magnitudeIndex a.w code
    dqmag := dqmag
    sr := (dqi + extend15 (fullEstimate a >>> 1)) % 65536
    pk0 := signPk dqsez
    sigpk := sigPk dqsez
    tr := transition dqmag a.yl.toNat a.td.toNat }

/-- Stages 6 and 7 and the commit (R167 to R172): every register but `W`, from the registers before the step. -/
def Adp.commit (a : Adp) (g : Signals) : Adp :=
  let a2p := nextA2 a.a1.toNat a.a2.toNat g.pk0 a.pk1.toNat a.pk2.toNat g.sigpk
  let a1p := nextA1 a.a1.toNat a2p g.pk0 a.pk1.toNat g.sigpk
  let bp (bn : BitVec 16) (dqn : BitVec 11) : BitVec 16 :=
    if g.tr then 0 else BitVec.ofNat 16 (nextB a.w g.dqs g.dqmag bn.toNat dqn.toNat)
  let tdp := toneDetected a2p
  let fi := (fTab a.w).getD g.mi 0
  let dmsp := nextDms fi a.dms.toNat
  let dmlp := nextDml fi a.dml.toNat
  let app := nextAp (speedUp g.y dmsp dmlp tdp) a.ap.toNat
  let yup := nextYu ((wTab a.w).getD g.mi 0) g.y
  { w := a.w
    a1 := if g.tr then 0 else BitVec.ofNat 16 a1p
    a2 := if g.tr then 0 else BitVec.ofNat 16 a2p
    b := ⟨bp a.b.x1 a.dq.x1, bp a.b.x2 a.dq.x2, bp a.b.x3 a.dq.x3, bp a.b.x4 a.dq.x4, bp a.b.x5 a.dq.x5,
      bp a.b.x6 a.dq.x6⟩
    dq := ⟨BitVec.ofNat 11 (floatWord g.dqs g.dqmag), a.dq.x1, a.dq.x2, a.dq.x3, a.dq.x4, a.dq.x5⟩
    sr1 := BitVec.ofNat 11 (floatSr g.sr)
    sr2 := a.sr1
    yl := BitVec.ofNat 19 (nextYl yup a.yl.toNat)
    yu := BitVec.ofNat 13 yup
    dms := BitVec.ofNat 12 dmsp
    dml := BitVec.ofNat 14 dmlp
    ap := if g.tr then 256 else BitVec.ofNat 10 app
    td := if g.tr then 0 else BitVec.ofNat 1 tdp
    pk1 := BitVec.ofNat 1 g.pk0
    pk2 := a.pk1 }

/-- How the one machine of R150 is used: with the code computed from an input, or with the code given. -/
inductive StepInput where
  | enc (sl : Int)
  | dec (code : Nat)
deriving DecidableEq, Repr

/-- The code of a step (R163): computed, or the low `W` bits of the one given. -/
def Adp.codeOf (a : Adp) : StepInput → Nat
  | .enc sl => a.encodeCode sl
  | .dec code => code % 2 ^ a.w.bits

/-- `STEP(i, mode, v) -> (I, SR)` (R157): the registers after the step, the code and the reconstructed signal. -/
def Adp.step (a : Adp) (v : StepInput) : Adp × Nat × Nat :=
  let g := a.signals (a.codeOf v)
  (a.commit g, g.code, g.sr)

end Sys2Proof.Machine
end

