-- ==== Sys2Proof/WellFormed.lean ====
section
/-! DEFINITION. Which operations are well formed: every operand is a value of its type (R10). The only
operand type with an invariant of its own is `FramedMessage` (spec/10_state.md R45). Operand values that a
rule answers with `refuse` (R296) are well formed: the operation's meaning refuses them by name. -/

namespace Sys2Proof

/-- R45 with R95 and R97: a header-only message has an empty payload; a message with an item id has a
total length `4 + payload.length` that the header word can declare. -/
def FramedMessage.wellFormed (m : FramedMessage) : Bool :=
  match m.itemId with
  | none => m.payload.isEmpty
  | some _ => decide (4 + m.payload.length ≤ 8191) || decide (4 + m.payload.length = 8194)

/-- Every operand is a value of its type. -/
def Instr.wellFormed : Instr → Bool
  | .powerOn => true
  | .alawEnc _ => true
  | .alawDec _ => true
  | .ulawEnc _ => true
  | .ulawDec _ => true
  | .alawEncBuf _ => true
  | .alawDecBuf _ => true
  | .ulawEncBuf _ => true
  | .ulawDecBuf _ => true
  | .adpcmReset _ => true
  | .adpcmSetw _ _ => true
  | .adpcmEnc _ _ => true
  | .adpcmDec _ _ => true
  | .adpcmEncBuf _ _ _ _ => true
  | .adpcmDecBuf _ _ _ _ => true
  | .rcReset _ => true
  | .interp6 _ => true
  | .decim6 _ => true
  | .jbReset => true
  | .jbPush _ => true
  | .jbPull _ => true
  | .mfReset => true
  | .mfFeed _ => true
  | .mfEncode _ _ _ => true
  | .soStart => true
  | .soStop => true
  | .soDispatch m => m.wellFormed
  | .soRxAudio _ => true
  | .soRxVideo _ => true
  | .soSetTxMode _ => true
  | .soTxBlock _ => true
  | .soTxDrain => true
  | .soDeviceFail => true
  | .soTransportStop => true

end Sys2Proof
end

