-- ==== Sys2Proof/Decode.lean ====
section
/-! DEFINITION. Reading an operation from bytes, and writing one. The first byte is the operation-select
code `OP` of spec/30_encoding.md R92, exactly as the table there assigns it. The spec gives operands no bit
layout (they are values, R4, R20): the bytes after `OP` are this model's own serial form (log entry 2), in
which no operand has a size limit and all-zero operand bytes name an operand the operation admits.
Reading is total: it rejects by name. -/

namespace Sys2Proof

/-- Why bytes are no operation. -/
inductive Reject where
  /-- The request holds no `OP` byte. -/
  | empty
  /-- R106 (a): an `OP` code that R92 does not list. -/
  | reservedOp (op : Byte)
  /-- The operand bytes end too early. -/
  | truncated
  /-- An operand byte that names no value of its field. -/
  | badOperand
  /-- Bytes stand after the last operand. -/
  | trailing
  /-- An operand breaks the invariant of its type (`Instr.wellFormed`, R45). -/
  | illFormed
deriving DecidableEq, Repr

/-- What reading one field answers: the value and the bytes after it, or why there is none. -/
abbrev Parsed (α : Type) := Except Reject (α × List Byte)

/-- Go on with the bytes after a field. -/
def Parsed.andThen {α β : Type} (x : Parsed α) (f : α → List Byte → Parsed β) : Parsed β :=
  match x with
  | .ok (a, r) => f a r
  | .error e => .error e

/-- Wrap the value read. -/
def Parsed.as {α β : Type} (x : Parsed α) (f : α → β) : Parsed β :=
  x.andThen fun a r => .ok (f a, r)

/-! ### The fields -/

/-- One byte. -/
def getByte : List Byte → Parsed Byte
  | [] => .error .truncated
  | b :: r => .ok (b, r)

def putByte (b : Byte) : List Byte := [b]

/-- A 16-bit value, low byte first (R60). -/
def getU16 (bs : List Byte) : Parsed U16 :=
  (getByte bs).andThen fun lo r => (getByte r).as fun hi => hi ++ lo

def putU16 (v : U16) : List Byte := [v.setWidth 8, (v >>> 8).setWidth 8]

/-- A flag byte, 0 or 1. -/
def getFlag (bs : List Byte) : Parsed Bool :=
  (getByte bs).andThen fun b r =>
    if b = 0#8 then .ok (false, r) else if b = 1#8 then .ok (true, r) else .error .badOperand

def putFlag (f : Bool) : List Byte := if f then [1#8] else [0#8]

/-- A list: before each element the flag 1, after the last the flag 0. The first argument bounds the number of
flags and is the number of bytes at hand. -/
def getListFuel {α : Type} (get : List Byte → Parsed α) : Nat → List Byte → Parsed (List α)
  | 0, _ => .error .truncated
  | fuel + 1, bs =>
    (getFlag bs).andThen fun more r =>
      if more then (get r).andThen fun a r => (getListFuel get fuel r).as fun as => a :: as
      else .ok ([], r)

def getList {α : Type} (get : List Byte → Parsed α) (bs : List Byte) : Parsed (List α) :=
  getListFuel get bs.length bs

def putList {α : Type} (put : α → List Byte) : List α → List Byte
  | [] => putFlag false
  | a :: as => putFlag true ++ put a ++ putList put as

/-- The base-256 digits of a number, least significant first, none for 0. The first argument bounds their number. -/
def natBytesFuel : Nat → Nat → List Byte
  | 0, _ => []
  | fuel + 1, n => if n = 0 then [] else BitVec.ofNat 8 n :: natBytesFuel fuel (n / 256)

def natBytes (n : Nat) : List Byte := natBytesFuel n n

/-- The number whose base-256 digits are given, least significant first. -/
def bytesNat : List Byte → Nat
  | [] => 0
  | b :: r => b.toNat + 256 * bytesNat r

/-- A natural number of any size: the list of its base-256 digits, whose last is not 0. -/
def getNat (bs : List Byte) : Parsed Nat :=
  (getList getByte bs).andThen fun ds r =>
    if ds.getLast? = some 0#8 then .error .badOperand else .ok (bytesNat ds, r)

def putNat (n : Nat) : List Byte := putList putByte (natBytes n)

/-- An integer of any size: a flag, 1 for a negative one, and then `v`, or `-v - 1` for a negative `v`. -/
def getInt (bs : List Byte) : Parsed Int :=
  (getFlag bs).andThen fun neg r => (getNat r).as fun n => if neg then Int.negSucc n else Int.ofNat n

def putInt : Int → List Byte
  | .ofNat n => putFlag false ++ putNat n
  | .negSucc n => putFlag true ++ putNat n

/-- An ADPCM instance, told relative to `own`: 0 for `own`, 1 for the other. -/
def getDir (own : Dir) (bs : List Byte) : Parsed Dir :=
  (getFlag bs).as fun f =>
    match own, f with
    | .rx, false => .rx
    | .rx, true => .tx
    | .tx, false => .tx
    | .tx, true => .rx

def putDir (own i : Dir) : List Byte := putFlag (decide (i ≠ own))

/-- A rate-converter path: 0 for `up`, 1 for `dn`. -/
def getPath (bs : List Byte) : Parsed Path :=
  (getFlag bs).as fun f => if f then .dn else .up

def putPath (p : Path) : List Byte := putFlag (decide (p = .dn))

/-- A mode, numbered in the order of R103 from 0 (this is the operand's form, not `MODE_CODE`). -/
def getMode (bs : List Byte) : Parsed Mode :=
  (getByte bs).andThen fun b r =>
    match b.toNat with
    | 0 => .ok (.noAudio, r)
    | 1 => .ok (.raw16, r)
    | 2 => .ok (.uLaw, r)
    | 3 => .ok (.adpcm5, r)
    | 4 => .ok (.adpcm4, r)
    | 5 => .ok (.adpcm3, r)
    | 6 => .ok (.adpcm2, r)
    | _ => .error .badOperand

def putMode : Mode → List Byte
  | .noAudio => [0#8]
  | .raw16 => [1#8]
  | .uLaw => [2#8]
  | .adpcm5 => [3#8]
  | .adpcm4 => [4#8]
  | .adpcm3 => [5#8]
  | .adpcm2 => [6#8]

/-- A message kind: a byte below 8. -/
def getKind (bs : List Byte) : Parsed Kind :=
  (getByte bs).andThen fun b r =>
    if b.toNat < 8 then .ok (b.setWidth 3, r) else .error .badOperand

def putKind (k : Kind) : List Byte := [k.setWidth 8]

/-- An optional item identifier: the flag 0, or the flag 1 and the identifier. -/
def getItem (bs : List Byte) : Parsed (Option U16) :=
  (getFlag bs).andThen fun f r => if f then (getU16 r).as some else .ok (none, r)

def putItem : Option U16 → List Byte
  | none => putFlag false
  | some v => putFlag true ++ putU16 v

/-- A `FramedMessage` (R45). -/
def getMessage (bs : List Byte) : Parsed FramedMessage :=
  (getKind bs).andThen fun k r => (getItem r).andThen fun i r => (getList getByte r).as fun p => ⟨k, i, p⟩

def putMessage (m : FramedMessage) : List Byte :=
  putKind m.kind ++ putItem m.itemId ++ putList putByte m.payload

/-- A parameter of `MF_ENCODE`. -/
def getParam (bs : List Byte) : Parsed Param :=
  (getNat bs).andThen fun w r => (getInt r).as fun v => ⟨w, v⟩

def putParam (p : Param) : List Byte := putNat p.width ++ putInt p.value

/-- The code width of `ADPCM_SETW`, told relative to the smallest admitted width 2. -/
def getWidth (bs : List Byte) : Parsed Int := (getInt bs).as fun w => w + 2

def putWidth (w : Int) : List Byte := putInt (w - 2)

/-- The payload of `SO_RX_VIDEO`: the flag 0, its first byte and the list of the others; the flag 1 for the
empty payload. -/
def getVideo (bs : List Byte) : Parsed (List Byte) :=
  (getFlag bs).andThen fun f r =>
    if f then .ok ([], r)
    else (getByte r).andThen fun b r => (getList getByte r).as fun d => b :: d

def putVideo : List Byte → List Byte
  | [] => putFlag true
  | b :: d => putFlag false ++ putByte b ++ putList putByte d

/-! ### The operations -/

/-- R92: the 8-bit operation-select code of each operation. -/
def Instr.opcode : Instr → Byte
  | .powerOn => 0x00#8
  | .alawEnc _ => 0x10#8
  | .alawDec _ => 0x11#8
  | .ulawEnc _ => 0x12#8
  | .ulawDec _ => 0x13#8
  | .alawEncBuf _ => 0x14#8
  | .alawDecBuf _ => 0x15#8
  | .ulawEncBuf _ => 0x16#8
  | .ulawDecBuf _ => 0x17#8
  | .adpcmReset _ => 0x20#8
  | .adpcmSetw _ _ => 0x21#8
  | .adpcmEnc _ _ => 0x22#8
  | .adpcmDec _ _ => 0x23#8
  | .adpcmEncBuf _ _ _ _ => 0x24#8
  | .adpcmDecBuf _ _ _ _ => 0x25#8
  | .rcReset _ => 0x30#8
  | .interp6 _ => 0x31#8
  | .decim6 _ => 0x32#8
  | .jbReset => 0x40#8
  | .jbPush _ => 0x41#8
  | .jbPull _ => 0x42#8
  | .mfReset => 0x50#8
  | .mfFeed _ => 0x51#8
  | .mfEncode _ _ _ => 0x52#8
  | .soStart => 0x60#8
  | .soStop => 0x61#8
  | .soDispatch _ => 0x62#8
  | .soRxAudio _ => 0x63#8
  | .soRxVideo _ => 0x64#8
  | .soSetTxMode _ => 0x65#8
  | .soTxBlock _ => 0x66#8
  | .soTxDrain => 0x67#8
  | .soDeviceFail => 0x68#8
  | .soTransportStop => 0x69#8

/-- The operation that `OP` selects (R92), with its operands read from the bytes after it. -/
def getOperands (op : Byte) (r : List Byte) : Parsed Instr :=
  match op.toNat with
  | 0x00 => .ok (.powerOn, r)
  | 0x10 => (getU16 r).as .alawEnc
  | 0x11 => (getByte r).as .alawDec
  | 0x12 => (getU16 r).as .ulawEnc
  | 0x13 => (getByte r).as .ulawDec
  | 0x14 => (getList getU16 r).as .alawEncBuf
  | 0x15 => (getList getByte r).as .alawDecBuf
  | 0x16 => (getList getU16 r).as .ulawEncBuf
  | 0x17 => (getList getByte r).as .ulawDecBuf
  | 0x20 => (getDir .rx r).as .adpcmReset
  | 0x21 => (getDir .rx r).andThen fun i r => (getWidth r).as fun w => .adpcmSetw i w
  | 0x22 => (getDir .tx r).andThen fun i r => (getU16 r).as fun s => .adpcmEnc i s
  | 0x23 => (getDir .rx r).andThen fun i r => (getInt r).as fun c => .adpcmDec i c
  | 0x24 => (getDir .tx r).andThen fun i r => (getList getU16 r).andThen fun x r =>
      (getList getByte r).andThen fun b r => (getInt r).as fun off => .adpcmEncBuf i x b off
  | 0x25 => (getDir .rx r).andThen fun i r => (getList getByte r).andThen fun b r =>
      (getInt r).andThen fun off r => (getInt r).as fun n => .adpcmDecBuf i b off n
  | 0x30 => (getPath r).as .rcReset
  | 0x31 => (getList getU16 r).as .interp6
  | 0x32 => (getList getU16 r).as .decim6
  | 0x40 => .ok (.jbReset, r)
  | 0x41 => (getList getU16 r).as .jbPush
  | 0x42 => (getInt r).as .jbPull
  | 0x50 => .ok (.mfReset, r)
  | 0x51 => (getByte r).as .mfFeed
  | 0x52 => (getKind r).andThen fun k r => (getItem r).andThen fun i r =>
      (getList getParam r).as fun ps => .mfEncode k i ps
  | 0x60 => .ok (.soStart, r)
  | 0x61 => .ok (.soStop, r)
  | 0x62 => (getMessage r).as .soDispatch
  | 0x63 => (getList getByte r).as .soRxAudio
  | 0x64 => (getVideo r).as .soRxVideo
  | 0x65 => (getMode r).as .soSetTxMode
  | 0x66 => (getList getU16 r).as .soTxBlock
  | 0x67 => .ok (.soTxDrain, r)
  | 0x68 => .ok (.soDeviceFail, r)
  | 0x69 => .ok (.soTransportStop, r)
  | _ => .error (.reservedOp op)

/-- The operation at the front of a byte list, and the bytes after it. -/
def decodeFront : List Byte → Parsed Instr
  | [] => .error .empty
  | op :: r => getOperands op r

/-- The operation that a request's bytes are: the whole list, and well formed. -/
def decode (bs : List Byte) : Except Reject Instr :=
  match decodeFront bs with
  | .error e => .error e
  | .ok (i, []) => if i.wellFormed then .ok i else .error .illFormed
  | .ok (_, _ :: _) => .error .trailing

/-- The operand bytes of an operation. -/
def putOperands : Instr → List Byte
  | .powerOn => []
  | .alawEnc s => putU16 s
  | .alawDec c => putByte c
  | .ulawEnc s => putU16 s
  | .ulawDec c => putByte c
  | .alawEncBuf x => putList putU16 x
  | .alawDecBuf y => putList putByte y
  | .ulawEncBuf x => putList putU16 x
  | .ulawDecBuf y => putList putByte y
  | .adpcmReset i => putDir .rx i
  | .adpcmSetw i w => putDir .rx i ++ putWidth w
  | .adpcmEnc i s => putDir .tx i ++ putU16 s
  | .adpcmDec i c => putDir .rx i ++ putInt c
  | .adpcmEncBuf i x b off => putDir .tx i ++ putList putU16 x ++ putList putByte b ++ putInt off
  | .adpcmDecBuf i b off n => putDir .rx i ++ putList putByte b ++ putInt off ++ putInt n
  | .rcReset p => putPath p
  | .interp6 x => putList putU16 x
  | .decim6 x => putList putU16 x
  | .jbReset => []
  | .jbPush x => putList putU16 x
  | .jbPull n => putInt n
  | .mfReset => []
  | .mfFeed b => putByte b
  | .mfEncode k i ps => putKind k ++ putItem i ++ putList putParam ps
  | .soStart => []
  | .soStop => []
  | .soDispatch m => putMessage m
  | .soRxAudio p => putList putByte p
  | .soRxVideo p => putVideo p
  | .soSetTxMode m => putMode m
  | .soTxBlock x => putList putU16 x
  | .soTxDrain => []
  | .soDeviceFail => []
  | .soTransportStop => []

/-- The bytes of an operation: its `OP` code and its operands. -/
def encode (i : Instr) : List Byte := i.opcode :: putOperands i

/-! ### The host's question -/

/-- The bytes of a table word, first byte in the least significant bits. -/
def wordBytes (nbits w : Nat) : List Byte :=
  (List.range ((nbits + 7) / 8)).map fun k => BitVec.ofNat 8 (w >>> (8 * k))

/-- The bytes of the operation that a table word names, with as many zero operand bytes after the word as that
operation has (at most 16); where the word names none, the word's bytes alone. -/
def tableRequest (nbits w : Nat) : List Byte :=
  let padded := wordBytes nbits w ++ List.replicate 16 0#8
  match decodeFront padded with
  | .ok (_, r) => padded.take (padded.length - r.length)
  | .error _ => wordBytes nbits w

/-- The operation the decoder reads from a table word (R109) with zero operand bytes after it. -/
def decodeTableWord (nbits w : Nat) : Option Instr :=
  match decode (tableRequest nbits w) with
  | .ok i => some i
  | .error _ => none

end Sys2Proof
end

