-- ==== Sys2Proof/Machine/State.lean ====
section
/-! DEFINITION. The whole state of the block (spec/10_state.md), why a step can stop, and the state after reset. -/

namespace Sys2Proof.Machine

/-- One operation as an agent issues it: who issues it (R70) and its bytes (`decode`). -/
structure Request where
  agent : Agent
  bytes : List Byte
deriving DecidableEq, Repr

/-- What an operation returns (the results column of R92). -/
inductive Result where
  /-- No result. -/
  | unit
  /-- A code byte. -/
  | byte (c : Byte)
  /-- A sample. -/
  | sample (s : Sample)
  /-- A byte list. -/
  | bytes (y : List Byte)
  /-- A sample list. -/
  | samples (x : List Sample)
  /-- An ADPCM code. -/
  | code (c : Nat)
  /-- `ADPCM_ENC_BUF`: the bytes and the next bit offset. -/
  | packed (b : List Byte) (off : Nat)
  /-- A message, or none. -/
  | message (m : Option FramedMessage)
  /-- `SO_RX_VIDEO`: the mode byte and the data. -/
  | video (mode : Byte) (data : List Byte)
  /-- `SO_TX_DRAIN`: the packets, oldest first. -/
  | packets (pk : List (List Byte))
deriving DecidableEq, Repr

/-- Who has used the code width of an ADPCM instance in a run (R305). -/
inductive WidthUse where
  /-- Neither. -/
  | unused
  /-- An agent, by a direct `ADPCM_SETW`. -/
  | direct
  /-- The orchestrator, by an SO operation on the instance. -/
  | orchestrated
deriving DecidableEq, Repr

/-- The use of the code width of each instance. -/
structure WidthUses where
  rx : WidthUse
  tx : WidthUse
deriving DecidableEq, Repr

/-- Every register of the block (R24 to R37), the parameters it was built with (R9) and four fields of the
model's own: whether `POWER_ON` has happened (R320), who has used the code widths since (R305), the operations
issued and not yet carried out (R21, R71), and the results so far (R339). -/
structure State where
  /-- The parameters of R9; no operation writes them (R78). -/
  cfg : Config
  /-- A `POWER_ON` has happened (R320, R47). -/
  poweredOn : Bool
  /-- Who has used the code widths since the last `POWER_ON` (R305, log entry 16). -/
  widthUse : WidthUses
  /-- `ADP[rx]`. -/
  adpRx : Adp
  /-- `ADP[tx]`. -/
  adpTx : Adp
  /-- `RC.up`. -/
  rcUp : RcUp
  /-- `RC.dn`. -/
  rcDn : RcDn
  /-- `JB`. -/
  jb : Jb
  /-- `MF`. -/
  mf : Mf
  /-- `SO`. -/
  so : So
  /-- `EVT.LOG` (R37). -/
  log : List Event
  /-- The operations issued and not yet carried out, in the one total order of R71. -/
  pending : List Request
  /-- The results of the operations carried out, in order (R339). -/
  results : List Result
deriving DecidableEq, Repr

/-- Why the machine stops for good. -/
inductive Fault where
  /-- `step`: no operation is pending; "it ends when the host issues no more" (R339). Safe: a run has no further step. -/
  | endOfRun
deriving DecidableEq, Repr

/-- Why an operation has no transition (R296). Every one is safe: no claim about a run with such an operation
can be proved. -/
inductive Refusal where
  /-- `exec`: the operation has no meaning yet (no arm answers so). Safe. -/
  | notModelled (mnemonic : String)
  /-- `step`: the request's bytes are no operation (R106 (a) for a reserved `OP`). Safe. -/
  | undecodable (r : Reject)
  /-- `step`: the agent is not one that R70 gives the operation to (R75). Safe. -/
  | wrongAgent
  /-- `step`: a direct `ADPCM_SETW` and an SO operation on the same instance in one run (R305). Safe. -/
  | mixedWidthUse
  /-- Every operation but `POWER_ON`: no `POWER_ON` has happened (R320). Safe. -/
  | beforePowerOn
  /-- `ADPCM_SETW`: the width is not 2, 3, 4 or 5 (R152). Safe. -/
  | badWidth
  /-- `ADPCM_ENC`, `ADPCM_ENC_BUF` on `rx`; `ADPCM_DEC`, `ADPCM_DEC_BUF` on `tx` (R150). Safe. -/
  | wrongInstance
  /-- `ADPCM_ENC_BUF`: the bit offset is outside the bytes given (R175). Safe. -/
  | badOffset
  /-- `ADPCM_DEC_BUF`: the codes asked for are not in the bytes given (R176). Safe. -/
  | badRange
  /-- `DECIM6`, `SO_TX_BLOCK`: the length is no multiple of 6 (R208). Safe. -/
  | badLength
  /-- `JB_PULL`: a negative count (R228). Safe. -/
  | negativeCount
  /-- `MF_FEED`: `MF.FAULT` is set (R244). Safe. -/
  | framerFaulted
  /-- `MF_ENCODE`: no message has these operands (R247). Safe. -/
  | unencodable
  /-- `SO_RX_VIDEO`: the payload is empty (R270). Safe. -/
  | emptyPayload
deriving DecidableEq, Repr

/-- The state right after reset: R46's table, which `POWER_ON` establishes (R320), with the default parameters
of R9, nothing issued yet, no width used and no result (log entries 1, 3, 5, 6, 16). -/
def State.reset : State where
  cfg := defaultConfig
  poweredOn := true
  widthUse := ⟨.unused, .unused⟩
  adpRx := Adp.idle .w4
  adpTx := Adp.idle .w4
  rcUp := RcUp.idle defaultConfig
  rcDn := RcDn.idle defaultConfig
  jb := Jb.idle defaultConfig.capacity 0 0
  mf := Mf.idle
  so := So.idle
  log := []
  pending := []
  results := []

end Sys2Proof.Machine
end

