-- ==== Sys2Proof/Machine/Ops.lean ====
section
/-! DEFINITION. The operations on the state that the meanings share: raising events (spec/60_exceptions.md R290),
returning a result, the power-on condition (R320), and the unit resets (R321). There is no trap entry and no
return from one (R300, R301): `State.raise` is the whole of taking an exception. -/

namespace Sys2Proof.Machine

/-- What an operation answers. -/
abbrev Answer := Host.Outcome State Fault Refusal

/-- `raise E(info)` (R290): append to `EVT.LOG` and go on; nothing else changes. -/
def State.raise (s : State) (e : Event) : State := { s with log := s.log ++ [e] }

/-- The events of a unit's operation, raised in order (R299). -/
def State.raiseAll (s : State) (es : List Event) : State := { s with log := s.log ++ es }

/-- Return a result (R4, R339). -/
def State.give (s : State) (r : Result) : State := { s with results := s.results ++ [r] }

/-- The operation completes with a result. -/
def State.done (s : State) (r : Result) : Answer := .next (s.give r)

/-- Before the first `POWER_ON` every other operation is refused (R320, R296). -/
def State.whenOn (s : State) (k : Answer) : Answer := if s.poweredOn then k else .refused .beforePowerOn

/-- An operation whose composition may refuse (R296). -/
def State.doneOr (r : Result) (x : Except Refusal State) : Answer :=
  match x with
  | .ok s => s.done r
  | .error e => .refused e

/-- The registers of an ADPCM instance. -/
def State.adp (s : State) : Dir → Adp
  | .rx => s.adpRx
  | .tx => s.adpTx

/-- Write the registers of an ADPCM instance. -/
def State.setAdp (s : State) (i : Dir) (a : Adp) : State :=
  match i with
  | .rx => { s with adpRx := a }
  | .tx => { s with adpTx := a }

def State.setRcUp (s : State) (u : RcUp) : State := { s with rcUp := u }
def State.setRcDn (s : State) (d : RcDn) : State := { s with rcDn := d }
def State.setJb (s : State) (j : Jb) : State := { s with jb := j }
def State.setMf (s : State) (m : Mf) : State := { s with mf := m }
def State.setSo (s : State) (o : So) : State := { s with so := o }
def State.setPowered (s : State) (b : Bool) : State := { s with poweredOn := b }
def State.setLog (s : State) (l : List Event) : State := { s with log := l }
def State.setWidthUse (s : State) (u : WidthUses) : State := { s with widthUse := u }
def State.setPending (s : State) (p : List Request) : State := { s with pending := p }

/-! ### The unit resets (R321) -/

/-- `ADPCM_RESET i` (R153): `W` is not changed. -/
def State.adpcmReset (s : State) (i : Dir) : State := s.setAdp i (Adp.idle (s.adp i).w)

/-- `ADPCM_SETW i, w` for an admitted width (R152): nothing else changes. -/
def State.adpcmSetW (s : State) (i : Dir) (w : CodeWidth) : State := s.setAdp i { s.adp i with w := w }

/-- `RC_RESET p` (R209). -/
def State.rcReset (s : State) : Path → State
  | .up => s.setRcUp (RcUp.idle s.cfg)
  | .dn => s.setRcDn (RcDn.idle s.cfg)

/-- `JB_RESET` (R221): the two counters are not changed. -/
def State.jbReset (s : State) : State := s.setJb (Jb.idle s.cfg.capacity s.jb.underruns s.jb.overruns)

/-- `MF_RESET` (R246). -/
def State.mfReset (s : State) : State := s.setMf Mf.idle

/-- The staging registers and the queue of complete packets emptied (R261, R262). -/
def So.discard (o : So) : So := { o with stage := Stage.empty, txq := [] }

/-- What `SO_START` and `SO_STOP` have in common (R261, R262): both ADPCM instances, both converter paths and the
jitter buffer reset, the outbound packets discarded, the receive mode `NoAudio`, and `SO.RUNNING` as given. -/
def State.resetStreams (s : State) (running : Bool) : State :=
  let s := (s.adpcmReset .rx).adpcmReset .tx
  let s := (s.rcReset .up).rcReset .dn
  let s := s.jbReset
  s.setSo { s.so.discard with rxMode := .noAudio, running := running }

/-- What the host may read between operations (R22, R306, R309). -/
structure HostView where
  level     : Nat
  avg       : Rat
  consumed  : Nat
  drift     : Rat
  underruns : Nat
  overruns  : Nat
  meter     : Sample
  log       : List Event
deriving DecidableEq, Repr

/-- The host-readable registers (R309, R338): reading them changes nothing (R66). -/
def State.hostView (s : State) : HostView where
  level := s.jb.level
  avg := s.jb.avg
  consumed := s.jb.consumed
  drift := s.jb.drift
  underruns := s.jb.underruns
  overruns := s.jb.overruns
  meter := s.so.meter
  log := s.log

end Sys2Proof.Machine
end

