-- ==== Sys2Proof/Machine/Adpcm.lean ====
section
/-! DEFINITION. The ADP unit (spec/41_adpcm.md): coding of one sample and of a block, and the meanings of its
six operations. -/

namespace Sys2Proof.Machine

/-- One sample encoded (R173): the registers after it and its code. -/
def Adp.encodeSample (a : Adp) (s : Sample) : Adp × Nat :=
  let r := a.step (.enc (pcm14 s))
  (r.1, r.2.1)

/-- One code decoded (R174): the registers after it and its sample. -/
def Adp.decodeSample (a : Adp) (code : Nat) : Adp × Sample :=
  let r := a.step (.dec code)
  (r.1, pcm16 r.2.2)

/-- The codes of a block, in order (R175). -/
def Adp.encodeAll : Adp → List Sample → Adp × List Nat
  | a, [] => (a, [])
  | a, s :: x =>
    let r := a.encodeSample s
    let t := Adp.encodeAll r.1 x
    (t.1, r.2 :: t.2)

/-- The samples of a list of codes, in order (R176). -/
def Adp.decodeAll : Adp → List Nat → Adp × List Sample
  | a, [] => (a, [])
  | a, c :: cs =>
    let r := a.decodeSample c
    let t := Adp.decodeAll r.1 cs
    (t.1, r.2 :: t.2)

/-- The codes appended to the first `off` stream bits of `b`, zero-padded to whole bytes (R175). -/
def packCodes (w : CodeWidth) (b : List Byte) (off : Nat) (codes : List Nat) : List Byte :=
  packBits ((streamBits b).take off ++ codes.flatMap (natBits w.bits))

/-- The `n` codes of `b` from bit offset `off` (R176). -/
def unpackCodes (w : CodeWidth) (b : List Byte) (off n : Nat) : List Nat :=
  (List.range n).map fun k => codeAt b (off + w.bits * k) w.bits

/-- `ADPCM_ENC_BUF` on an instance's registers (R175): refused where the offset is outside the bytes given. -/
def Adp.encodeBuf (a : Adp) (x : List Sample) (b : List Byte) (off : Nat) : Except Refusal (Adp × List Byte × Nat) :=
  if off ≤ 8 * b.length then
    let r := a.encodeAll x
    .ok (r.1, packCodes a.w b off r.2, off + a.w.bits * x.length)
  else .error .badOffset

/-- `ADPCM_DEC_BUF` on an instance's registers (R176): refused where the codes are not all in the bytes given. -/
def Adp.decodeBuf (a : Adp) (b : List Byte) (off n : Nat) : Except Refusal (Adp × List Sample) :=
  if off + a.w.bits * n ≤ 8 * b.length then .ok (a.decodeAll (unpackCodes a.w b off n))
  else .error .badRange

/-! ### Meanings -/

/-- `ADPCM_RESET i` (R153). -/
def execAdpcmReset (i : Dir) (s : State) : Answer := s.whenOn ((s.adpcmReset i).done .unit)

/-- `ADPCM_SETW i, w` (R152). -/
def execAdpcmSetw (i : Dir) (w : Int) (s : State) : Answer :=
  s.whenOn <|
    match codeWidth w with
    | some cw => (s.adpcmSetW i cw).done .unit
    | none => .refused .badWidth

/-- `ADPCM_ENC i, s -> code` (R173, R150). -/
def execAdpcmEnc (i : Dir) (v : Sample) (s : State) : Answer :=
  s.whenOn <|
    match i with
    | .rx => .refused .wrongInstance
    | .tx =>
      let r := s.adpTx.encodeSample v
      (s.setAdp .tx r.1).done (.code r.2)

/-- `ADPCM_DEC i, code -> s` (R174, R150): the low `W` bits of the operand are the code. -/
def execAdpcmDec (i : Dir) (code : Int) (s : State) : Answer :=
  s.whenOn <|
    match i with
    | .tx => .refused .wrongInstance
    | .rx =>
      let r := s.adpRx.decodeSample (truncN s.adpRx.w.bits code)
      (s.setAdp .rx r.1).done (.sample r.2)

/-- `ADPCM_ENC_BUF i, x, B, off -> B', off'` (R175, R150). -/
def execAdpcmEncBuf (i : Dir) (x : List Sample) (b : List Byte) (off : Int) (s : State) : Answer :=
  s.whenOn <|
    match i with
    | .rx => .refused .wrongInstance
    | .tx =>
      if off < 0 then .refused .badOffset
      else
        match s.adpTx.encodeBuf x b off.toNat with
        | .error e => .refused e
        | .ok r => (s.setAdp .tx r.1).done (.packed r.2.1 r.2.2)

/-- `ADPCM_DEC_BUF i, B, off, n -> x` (R176, R150). -/
def execAdpcmDecBuf (i : Dir) (b : List Byte) (off n : Int) (s : State) : Answer :=
  s.whenOn <|
    match i with
    | .tx => .refused .wrongInstance
    | .rx =>
      if off < 0 ∨ n < 0 then .refused .badRange
      else
        match s.adpRx.decodeBuf b off.toNat n.toNat with
        | .error e => .refused e
        | .ok r => (s.setAdp .rx r.1).done (.samples r.2)

end Sys2Proof.Machine
end

