-- ==== Sys2Proof/Machine/Compander.lean ====
section
/-! DEFINITION. The CMP unit (spec/40_compander.md): the four laws and the meanings of its eight operations.
It reads and writes no register, raises nothing and never refuses once the block is on (R120). -/

namespace Sys2Proof.Machine

/-- The three range tests of R122 on `(ix, seg)`: ≥ 0x100, ≥ 0x40, ≥ 0x20, in this order. -/
def alawSearch (ix : Nat) : Nat × Nat :=
  let p := (ix, 1)
  let p := if p.1 ≥ 0x100 then (p.1 >>> 4, p.2 + 4) else p
  let p := if p.1 ≥ 0x40 then (p.1 >>> 2, p.2 + 2) else p
  if p.1 ≥ 0x20 then (p.1 >>> 1, p.2 + 1) else p

/-- `ALAW_ENC` (R122). -/
def alawEncode (s : Sample) : Byte :=
  let ix := onesMagnitude s >>> 4
  let sign := if s.toInt < 0 then 0 else 1
  let t :=
    if ix < 16 then composeCode sign 0 ix
    else composeCode sign (alawSearch ix).2 ((alawSearch ix).1 - 16)
  t ^^^ 0x55#8

/-- The magnitude that `ALAW_DEC` reconstructs (R123). -/
def alawMagnitude (seg iv : Nat) : Nat :=
  let mant := iv + (if seg ≥ 1 then 16 else 0)
  let mag := (mant <<< 4) + 8
  if seg ≥ 1 then mag <<< (seg - 1) else mag

/-- `ALAW_DEC` (R123). -/
def alawDecode (c : Byte) : Sample :=
  let t := c ^^^ 0x55#8
  let mag : Int := alawMagnitude (codeSeg t) (codeIvl t)
  BitVec.ofInt 16 (if codeSign t = 1 then mag else -mag)

/-- The clipped two's-complement magnitude of a sample (R124, D6). -/
def ulawMagnitude (s : Sample) : Nat := min s.toInt.natAbs ulawClip

/-- `ULAW_ENC` (R124). -/
def ulawEncode (s : Sample) : Byte :=
  let b := ulawMagnitude s + 0x84
  let seg := bitlen b - 8
  let iv := (b >>> (seg + 3)) % 16
  composeCode (if s.toInt < 0 then 1 else 0) seg iv ^^^ 0xFF#8

/-- `ULAW_DEC` (R125). -/
def ulawDecode (c : Byte) : Sample :=
  let t := c ^^^ 0xFF#8
  let mag : Int := ((((codeIvl t <<< 3) + 0x84) <<< codeSeg t : Nat) : Int) - 0x84
  BitVec.ofInt 16 (if codeSign t = 1 then -mag else mag)

/-! ### Meanings -/

/-- `ALAW_ENC s -> c` (R122). -/
def execAlawEnc (v : Sample) (s : State) : Answer := s.whenOn (s.done (.byte (alawEncode v)))

/-- `ALAW_DEC c -> s` (R123). -/
def execAlawDec (c : Byte) (s : State) : Answer := s.whenOn (s.done (.sample (alawDecode c)))

/-- `ULAW_ENC s -> c` (R124). -/
def execUlawEnc (v : Sample) (s : State) : Answer := s.whenOn (s.done (.byte (ulawEncode v)))

/-- `ULAW_DEC c -> s` (R125). -/
def execUlawDec (c : Byte) (s : State) : Answer := s.whenOn (s.done (.sample (ulawDecode c)))

/-- `ALAW_ENC_BUF x -> y` (R126). -/
def execAlawEncBuf (x : List Sample) (s : State) : Answer := s.whenOn (s.done (.bytes (x.map alawEncode)))

/-- `ALAW_DEC_BUF y -> x` (R127). -/
def execAlawDecBuf (y : List Byte) (s : State) : Answer := s.whenOn (s.done (.samples (y.map alawDecode)))

/-- `ULAW_ENC_BUF x -> y` (R128). -/
def execUlawEncBuf (x : List Sample) (s : State) : Answer := s.whenOn (s.done (.bytes (x.map ulawEncode)))

/-- `ULAW_DEC_BUF y -> x` (R129). -/
def execUlawDecBuf (y : List Byte) (s : State) : Answer := s.whenOn (s.done (.samples (y.map ulawDecode)))

end Sys2Proof.Machine
end

