-- ==== Sys2Proof/Machine/JitterBuffer.lean ====
section
/-! DEFINITION. The JB unit (spec/43_jitter_buffer.md): push, pull and their recoveries, sample by sample, and the
meanings of its three operations. `c` is the capacity `C`. An operation on the registers answers the events it
raises, in order (R299). -/

namespace Sys2Proof.Machine

/-- Overrun recovery (R223). -/
def Jb.overrun (c : Nat) (j : Jb) : Jb :=
  { j with tail := (j.tail + c / 2) % c, level := c / 2, overruns := j.overruns + 1 }

/-- Start-up exit and arming (R224). -/
def Jb.arm (c : Nat) (j : Jb) : Jb :=
  { j with startup := false, avg := ((c / 2 : Nat) : Rat), consumed := 0 }

/-- One sample pushed (R222): written first, then the overrun test, then the start-up test. -/
def Jb.pushOne (c : Nat) (j : Jb) (x : Sample) : Jb × List Event :=
  let j := { j with buf := j.buf.set j.head x, head := (j.head + 1) % c, level := j.level + 1 }
  let full := decide (j.level = c)
  let j := if full then j.overrun c else j
  let j := if startupEnds c j.startup j.level then j.arm c else j
  (j, if full then [.overrun] else [])

/-- The samples of a block pushed one after another (R222). -/
def Jb.pushAll (c : Nat) : Jb → List Sample → Jb × List Event
  | j, [] => (j, [])
  | j, x :: xs =>
    let r := j.pushOne c x
    let t := Jb.pushAll c r.1 xs
    (t.1, r.2 ++ t.2)

/-- The smoothed level, once per `JB_PUSH`, not in start-up (R222, R224). -/
def Jb.smooth (j : Jb) : Jb :=
  if j.startup then j else { j with avg := j.avg + alpha * ((j.level : Rat) - j.avg) }

/-- `JB_PUSH` on the registers (R222). -/
def Jb.push (c : Nat) (j : Jb) (x : List Sample) : Jb × List Event :=
  let r := Jb.pushAll c j x
  (r.1.smooth, r.2)

/-- The drift computation (R226). -/
def Jb.computeDrift (c : Nat) (gain : Rat) (j : Jb) : Jb :=
  { j with drift := (j.avg - ((c / 2 : Nat) : Rat)) * gain, consumed := 0 }

/-- One consumed sample counted (R225, R226). -/
def Jb.countConsumed (c : Nat) (gain : Rat) (j : Jb) : Jb :=
  let j := { j with consumed := j.consumed + 1 }
  if j.consumed = driftPeriod then j.computeDrift c gain else j

/-- Underrun recovery (R225): rewind by half the capacity. -/
def Jb.underrun (c : Nat) (j : Jb) : Jb :=
  { j with tail := (j.tail + (c - c / 2)) % c, level := c / 2, underruns := j.underruns + 1 }

/-- One sample pulled (R225): the sample, the registers after it, the events raised. -/
def Jb.pullOne (c : Nat) (gain : Rat) (j : Jb) : Sample × Jb × List Event :=
  if j.startup then (0, j, [])
  else if j.level = 0 then (0, (j.underrun c).countConsumed c gain, [.underrun])
  else
    (j.buf.getD j.tail 0, { j with tail := (j.tail + 1) % c, level := j.level - 1 }.countConsumed c gain, [])

/-- `JB_PULL` on the registers (R225). -/
def Jb.pull (c : Nat) (gain : Rat) : Jb → Nat → List Sample × Jb × List Event
  | j, 0 => ([], j, [])
  | j, n + 1 =>
    let r := j.pullOne c gain
    let t := Jb.pull c gain r.2.1 n
    (r.1 :: t.1, t.2.1, r.2.2 ++ t.2.2)

/-- `JB_PUSH` as part of an operation (R222, R266). -/
def State.jbPush (s : State) (x : List Sample) : State :=
  let r := s.jb.push s.cfg.capacity x
  (s.setJb r.1).raiseAll r.2

/-! ### Meanings -/

/-- `JB_RESET` (R221). -/
def execJbReset (s : State) : Answer := s.whenOn (s.jbReset.done .unit)

/-- `JB_PUSH x` (R222). -/
def execJbPush (x : List Sample) (s : State) : Answer := s.whenOn ((s.jbPush x).done .unit)

/-- `JB_PULL n -> y` (R225, R228). -/
def execJbPull (n : Int) (s : State) : Answer :=
  s.whenOn <|
    if n < 0 then .refused .negativeCount
    else
      let r := s.jb.pull s.cfg.capacity s.cfg.driftGain n.toNat
      ((s.setJb r.2.1).raiseAll r.2.2).done (.samples r.1)

end Sys2Proof.Machine
end

