-- ==== Sys2Proof/Machine/MessageFramer.lean ====
section
/-! DEFINITION. The MF unit (spec/44_message_framer.md): receiving byte by byte, sending a message, and the meanings of
its three operations. -/

namespace Sys2Proof.Machine

/-- What one fed byte does (R240): the registers after it, the message it completes, the events it raises. -/
abbrev Fed := Mf × Option FramedMessage × List Event

/-- A byte in `AwaitHeader1` (R241). -/
def Mf.feedHeader1 (m : Mf) (b : Byte) : Fed :=
  ({ m with hdrLo := b, buf := [b], idx := 1, state := .awaitHeader2 }, none, [])

/-- A byte in `AwaitHeader2` (R242 to R244). -/
def Mf.feedHeader2 (maxLen : Nat) (m : Mf) (b : Byte) : Fed :=
  let hdr := headerWord m.hdrLo b
  let len := declaredLength (lenField hdr)
  let m := { m with kind := kindField hdr, buf := m.buf ++ [b], idx := 2 }
  if framingViolates maxLen len then ({ m with fault := true }, none, [.framingViolation len])
  else if len = 2 then
    ({ m with len := 2, state := .awaitHeader1, buf := [], idx := 0 }, some ⟨m.kind, none, []⟩, [])
  else ({ m with len := len, state := .awaitBody }, none, [])

/-- A byte in `AwaitBody` (R245). -/
def Mf.feedBody (m : Mf) (b : Byte) : Fed :=
  let m := { m with buf := m.buf ++ [b], idx := m.idx + 1 }
  if m.idx = m.len then
    ({ m with state := .awaitHeader1, buf := [], idx := 0 },
      some ⟨m.kind, some (itemOf m.buf), payloadOf m.buf m.len⟩, [])
  else (m, none, [])

/-- `MF_FEED` on the registers of a framer without fault (R240). -/
def Mf.feed (maxLen : Nat) (m : Mf) (b : Byte) : Fed :=
  match m.state with
  | .awaitHeader1 => m.feedHeader1 b
  | .awaitHeader2 => m.feedHeader2 maxLen b
  | .awaitBody => m.feedBody b

/-- The `w/8` bytes of a parameter modulo `2^w`, least significant first (R247). -/
def paramBytes (p : Param) : List Byte := leBytes (p.width / 8) (truncN p.width p.value)

/-- The body of a message (R247). -/
def messageBody (item : Option U16) (params : List Param) : List Byte :=
  match item with
  | none => []
  | some i => leBytes 2 i.toNat ++ params.flatMap paramBytes

/-- R247: parameters follow an item identifier, every width is 8, 16 or 32, and the length can be declared and
does not exceed `MAX_MSG_LEN`. -/
def encodable (maxLen : Nat) (item : Option U16) (params : List Param) : Bool :=
  let len := 2 + (messageBody item params).length
  (item.isSome || params.isEmpty) &&
    params.all (fun p => decide (p.width = 8) || decide (p.width = 16) || decide (p.width = 32)) &&
    !decide (len = 8192) && !decide (len = 8193) && decide (len ≤ 8194) && decide (len ≤ maxLen)

/-- The bytes of a message (R247): the header word, low byte first, then the body. -/
def messageBytes (kind : Kind) (item : Option U16) (params : List Param) : List Byte :=
  let body := messageBody item params
  leBytes 2 (headerOf kind (2 + body.length)) ++ body

/-- `MF_ENCODE` (R247). -/
def encodeMessage (maxLen : Nat) (kind : Kind) (item : Option U16) (params : List Param) : Except Refusal (List Byte) :=
  if encodable maxLen item params then .ok (messageBytes kind item params) else .error .unencodable

/-! ### Meanings -/

/-- `MF_RESET` (R246). -/
def execMfReset (s : State) : Answer := s.whenOn (s.mfReset.done .unit)

/-- `MF_FEED b -> m` (R240 to R245, R293). -/
def execMfFeed (b : Byte) (s : State) : Answer :=
  s.whenOn <|
    if s.mf.fault then .refused .framerFaulted
    else
      let r := s.mf.feed s.cfg.maxMsgLen b
      ((s.setMf r.1).raiseAll r.2.2).done (.message r.2.1)

/-- `MF_ENCODE kind, item, params -> bytes` (R247). -/
def execMfEncode (kind : Kind) (item : Option U16) (params : List Param) (s : State) : Answer :=
  s.whenOn <|
    match encodeMessage s.cfg.maxMsgLen kind item params with
    | .ok y => s.done (.bytes y)
    | .error e => .refused e

end Sys2Proof.Machine
end

