-- ==== Sys2Proof/Machine/RateConverter.lean ====
section
/-! DEFINITION. The RC unit (spec/42_rate_converter.md): the two kinds of stage, the two cascades, and the meanings of
its three operations. -/

namespace Sys2Proof.Machine

/-- `sat16(rdiv(acc, N))` of R202 for the exact accumulator of taps and queue entries. -/
def firOut (taps : List Int) (q : List Sample) (n : Int) : Sample :=
  sat16 (rdiv ((List.zipWith (fun h v => h * v.toInt) taps q).sum) n)

/-- `ISTAGE(L, H, N, Q)` on one input sample (R204): its `L` outputs and the queue after it. `branch h l p` lists the
taps `H[p + k·L]` with `p + k·L < n`, padded with zeros to the queue's length. -/
def istage (l : Nat) (h : List Int) (n : Int) (q : List Sample) (x : Sample) : List Sample × List Sample :=
  let q := x :: q.take ((h.length + l - 1) / l - 1)
  ((List.range l).map fun p => firOut (branch h l p) q n, q)

/-- A stage applied to its inputs one after another, the queue carried along (R205). -/
def istageAll (l : Nat) (h : List Int) (n : Int) : List Sample → List Sample → List Sample × List Sample
  | q, [] => ([], q)
  | q, x :: xs =>
    let r := istage l h n q x
    let t := istageAll l h n r.2 xs
    (r.1 ++ t.1, t.2)

/-- `INTERP6` on one 8 kHz sample (R205): stage U2, then stage U3 on each of its two outputs. -/
def interpOne (c : Config) (u : RcUp) (x : Sample) : List Sample × RcUp :=
  let r := istage 2 c.h2 c.n2i u.d2 x
  let t := istageAll 3 c.h3 c.n3i u.d3 r.1
  (t.1, ⟨r.2, t.2⟩)

/-- `INTERP6` (R205). -/
def interpAll (c : Config) : RcUp → List Sample → List Sample × RcUp
  | u, [] => ([], u)
  | u, x :: xs =>
    let r := interpOne c u x
    let t := interpAll c r.2 xs
    (r.1 ++ t.1, t.2)

/-- `DSTAGE(M, H, N, Q, PH)` on one input sample (R206): its output, if any, the queue and the phase after it. -/
def dstage (m : Nat) (h : List Int) (n : Int) (q : List Sample) (ph : Nat) (x : Sample) :
    Option Sample × List Sample × Nat :=
  let q := x :: q.take (h.length - 1)
  if ph + 1 = m then (some (firOut h q n), q, 0) else (none, q, ph + 1)

/-- `DECIM6` on one 48 kHz sample (R207): stage D2, then stage D3 on what it emits. -/
def decimOne (c : Config) (d : RcDn) (x : Sample) : List Sample × RcDn :=
  let r := dstage 2 c.h2 c.n2d d.d2 d.ph2 x
  match r.1 with
  | none => ([], { d with d2 := r.2.1, ph2 := r.2.2 })
  | some u =>
    let t := dstage 3 c.h3 c.n3d d.d3 d.ph3 u
    (t.1.toList, ⟨r.2.1, t.2.1, r.2.2, t.2.2⟩)

/-- `DECIM6` (R207). -/
def decimAll (c : Config) : RcDn → List Sample → List Sample × RcDn
  | d, [] => ([], d)
  | d, x :: xs =>
    let r := decimOne c d x
    let t := decimAll c r.2 xs
    (r.1 ++ t.1, t.2)

/-! ### Meanings -/

/-- `RC_RESET p` (R209). -/
def execRcReset (p : Path) (s : State) : Answer := s.whenOn ((s.rcReset p).done .unit)

/-- `INTERP6 x -> y` (R205). -/
def execInterp6 (x : List Sample) (s : State) : Answer :=
  s.whenOn <|
    let r := interpAll s.cfg s.rcUp x
    (s.setRcUp r.2).done (.samples r.1)

/-- `DECIM6 x -> y` (R207, R208). -/
def execDecim6 (x : List Sample) (s : State) : Answer :=
  s.whenOn <|
    if x.length % 6 = 0 then
      let r := decimAll s.cfg s.rcDn x
      (s.setRcDn r.2).done (.samples r.1)
    else .refused .badLength

end Sys2Proof.Machine
end

