-- ==== Sys2Proof/Machine/StreamControl.lean ====
section
/-! DEFINITION. The SO unit (spec/45_stream_control.md): mode changes, the receive and transmit paths, and the
meanings of its ten operations. An operation that a rule of this unit issues has the effect of its own rule
(there is no return state, R282); where that rule refuses, so does the whole (log entry 10). -/

namespace Sys2Proof.Machine

/-- The reset and the width that a change of mode issues for an instance (R267, R271): `ADPCM_RESET`, and
`ADPCM_SETW` where the mode is an ADPCM rate. -/
def State.changeCodec (s : State) (i : Dir) (m : Mode) : State :=
  let s := s.adpcmReset i
  match modeWidth m with
  | some w => s.adpcmSetW i w
  | none => s

/-! ### Receive direction -/

/-- Mode switch, receive side (R267); nothing for the mode already configured. -/
def State.switchRx (s : State) (m : Mode) : State :=
  if m = s.so.rxMode then s
  else
    let s := s.changeCodec .rx m
    s.setSo { s.so with rxMode := m }

/-- Payload decode by mode (R268): the registers of `ADP[rx]` after it and the 8 kHz samples. -/
def decodePayload (m : Mode) (a : Adp) (data : List Byte) : Except Refusal (Adp × List Sample) :=
  match modeWidth m with
  | some w => a.decodeBuf data 0 (8 * data.length / w.bits)
  | none =>
    match m with
    | .raw16 => .ok (a, rawSamples data)
    | .uLaw => .ok (a, data.map ulawDecode)
    | _ => .ok (a, [])

/-- The 8 kHz samples of an audio packet in a mode other than `NoAudio` (R266): silence for a 2-byte payload (R269),
else the decoded payload (R268). -/
def audioSamples (m : Mode) (a : Adp) (data : List Byte) : Except Refusal (Adp × List Sample) :=
  if data.length = 2 then .ok (a, List.replicate (silenceCount data) 0) else decodePayload m a data

/-- `INTERP6` and `JB_PUSH` of decoded samples (R266). -/
def State.playSamples (s : State) (pcm : List Sample) : State :=
  let r := interpAll s.cfg s.rcUp pcm
  (s.setRcUp r.2).jbPush r.1

/-- `SO_RX_AUDIO P` (R266). -/
def State.rxAudio (s : State) (p : List Byte) : Except Refusal State :=
  if !s.so.running then .ok s
  else if p.length < 3 then .ok (s.raise (.badPacket p.length))
  else
    match s.cfg.modeOf (audMode p) with
    | none => .ok (s.raise (.badMode (audMode p)))
    | some m =>
      let s := s.setSo { s.so with meter := audMeter p }
      let s := s.switchRx m
      if m = .noAudio then .ok s
      else
        match audioSamples m s.adpRx (audData p) with
        | .error e => .error e
        | .ok r => .ok ((s.setAdp .rx r.1).playSamples r.2)

/-! ### Transmit direction -/

/-- The registers that one captured 8 kHz sample can change (R272, R274). -/
structure TxPath where
  adp   : Adp
  stage : Stage
  txq   : List (List Byte)
deriving DecidableEq, Repr

/-- Sample encode by mode (R272), `SO.STAGE_COUNT` counted (R277). -/
def TxPath.encodeSample (m : Mode) (t : TxPath) (x : Sample) : Except Refusal TxPath :=
  let count := t.stage.count + 1
  match modeWidth m with
  | some _ =>
    match t.adp.encodeBuf [x] t.stage.bytes t.stage.bits with
    | .error e => .error e
    | .ok r => .ok { t with adp := r.1, stage := ⟨r.2.1, r.2.2, count⟩ }
  | none =>
    match m with
    | .raw16 => .ok { t with stage := ⟨t.stage.bytes ++ sampleBytes x, t.stage.bits + 16, count⟩ }
    | .uLaw => .ok { t with stage := ⟨t.stage.bytes ++ [ulawEncode x], t.stage.bits + 8, count⟩ }
    | _ => .ok { t with stage := ⟨t.stage.bytes, t.stage.bits, count⟩ }

/-- The bytes of an outbound audio packet (R274, R98). -/
def audioPacket (c : Config) (m : Mode) (meter : Sample) (data : List Byte) : Except Refusal (List Byte) :=
  encodeMessage c.maxMsgLen c.audioTxKind (some c.audioTxItem)
    ((audPayload meter (c.modeCode.get m) data).map fun b => ⟨8, b.toNat⟩)

/-- Packet build (R274), when the count reaches `TX_MAX` of the mode. -/
def TxPath.build (c : Config) (m : Mode) (meter : Sample) (t : TxPath) : Except Refusal TxPath :=
  if t.stage.count = c.txMax.get m then
    match audioPacket c m meter t.stage.bytes with
    | .error e => .error e
    | .ok p => .ok { t with stage := Stage.empty, txq := t.txq ++ [p] }
  else .ok t

/-- The captured 8 kHz samples encoded and packed one after another (R277). -/
def TxPath.encodeAll (c : Config) (m : Mode) (meter : Sample) : TxPath → List Sample → Except Refusal TxPath
  | t, [] => .ok t
  | t, x :: xs =>
    match t.encodeSample m x with
    | .error e => .error e
    | .ok t =>
      match t.build c m meter with
      | .error e => .error e
      | .ok t => TxPath.encodeAll c m meter t xs

/-- `SO_TX_BLOCK x` for a block of a multiple of 6 samples (R277). -/
def State.txBlock (s : State) (x : List Sample) : Except Refusal State :=
  if !s.so.running || decide (s.so.txMode = .noAudio) then .ok s
  else
    let r := decimAll s.cfg s.rcDn x
    match TxPath.encodeAll s.cfg s.so.txMode s.so.txMeter ⟨s.adpTx, s.so.stage, s.so.txq⟩ r.1 with
    | .error e => .error e
    | .ok t =>
      .ok (((s.setRcDn r.2).setAdp .tx t.adp).setSo { s.so with stage := t.stage, txq := t.txq })

/-- `SO_SET_TX_MODE m` (R271); nothing for the mode already set. -/
def State.setTxMode (s : State) (m : Mode) : State :=
  if m = s.so.txMode then s
  else
    let s := s.changeCodec .tx m
    s.setSo { s.so with stage := Stage.empty, txMode := m }

/-! ### Meanings -/

/-- `SO_START` (R261). -/
def execSoStart (s : State) : Answer := s.whenOn ((s.resetStreams true).done .unit)

/-- `SO_STOP` (R262). -/
def execSoStop (s : State) : Answer := s.whenOn ((s.resetStreams false).done .unit)

/-- `SO_DISPATCH m -> out` (R263 to R265). -/
def execSoDispatch (m : FramedMessage) (s : State) : Answer :=
  s.whenOn <|
    if selects s.cfg.audioSel m.kind m.itemId then State.doneOr (.message none) (s.rxAudio m.payload)
    else s.done (.message (some m))

/-- `SO_RX_AUDIO P` (R266). -/
def execSoRxAudio (p : List Byte) (s : State) : Answer := s.whenOn (State.doneOr .unit (s.rxAudio p))

/-- `SO_RX_VIDEO P -> mode, data` (R270). -/
def execSoRxVideo (p : List Byte) (s : State) : Answer :=
  s.whenOn <|
    match p with
    | [] => .refused .emptyPayload
    | b :: d => s.done (.video b d)

/-- `SO_SET_TX_MODE m` (R271). -/
def execSoSetTxMode (m : Mode) (s : State) : Answer := s.whenOn ((s.setTxMode m).done .unit)

/-- `SO_TX_BLOCK x` (R277, R208). -/
def execSoTxBlock (x : List Sample) (s : State) : Answer :=
  s.whenOn <|
    if x.length % 6 = 0 then State.doneOr .unit (s.txBlock x) else .refused .badLength

/-- `SO_TX_DRAIN -> pk` (R278). -/
def execSoTxDrain (s : State) : Answer := s.whenOn ((s.setSo { s.so with txq := [] }).done (.packets s.so.txq))

/-- `SO_DEVICE_FAIL` (R280): the event first, then everything `SO_STOP` does (R299). -/
def execSoDeviceFail (s : State) : Answer := s.whenOn (((s.raise .stopStreaming).resetStreams false).done .unit)

/-- `SO_TRANSPORT_STOP` (R279). -/
def execSoTransportStop (s : State) : Answer :=
  s.whenOn <|
    let s := s.mfReset
    (s.setSo { s.so with txq := [] }).done .unit

end Sys2Proof.Machine
end

