-- ==== Sys2Proof/Machine/System.lean ====
section
/-! DEFINITION. `POWER_ON` (spec/70_reset_and_hazards.md R320). -/

namespace Sys2Proof.Machine

/-- The effect of `POWER_ON`, in the order of R320. The parameters, the operations still pending and the results so far
are not registers of the block and stay (log entry 6). -/
def State.powerOn (s : State) : State :=
  let s := s.setPowered true
  let s := (s.adpcmSetW .rx .w4).adpcmSetW .tx .w4
  let s := (s.adpcmReset .rx).adpcmReset .tx
  let s := (s.rcReset .up).rcReset .dn
  let s := s.jbReset
  let s := s.setJb { s.jb with underruns := 0, overruns := 0 }
  let s := s.mfReset
  let s := s.setSo So.idle
  s.setLog []

/-- `POWER_ON` (R320): the one operation that a block before its first `POWER_ON` takes. -/
def execPowerOn (s : State) : Answer := s.powerOn.done .unit

end Sys2Proof.Machine
end

