-- ==== Sys2Proof/Machine/Dispatch.lean ====
section
/-! DEFINITION. One arm per operation of spec/30_encoding.md R92, each a direct call of its meaning. -/

namespace Sys2Proof.Machine

def exec (i : Instr) (s : State) : Host.Outcome State Fault Refusal :=
  match i with
  | .powerOn => Sys2Proof.Machine.execPowerOn s
  | .alawEnc v => Sys2Proof.Machine.execAlawEnc v s
  | .alawDec c => Sys2Proof.Machine.execAlawDec c s
  | .ulawEnc v => Sys2Proof.Machine.execUlawEnc v s
  | .ulawDec c => Sys2Proof.Machine.execUlawDec c s
  | .alawEncBuf x => Sys2Proof.Machine.execAlawEncBuf x s
  | .alawDecBuf y => Sys2Proof.Machine.execAlawDecBuf y s
  | .ulawEncBuf x => Sys2Proof.Machine.execUlawEncBuf x s
  | .ulawDecBuf y => Sys2Proof.Machine.execUlawDecBuf y s
  | .adpcmReset d => Sys2Proof.Machine.execAdpcmReset d s
  | .adpcmSetw d w => Sys2Proof.Machine.execAdpcmSetw d w s
  | .adpcmEnc d v => Sys2Proof.Machine.execAdpcmEnc d v s
  | .adpcmDec d c => Sys2Proof.Machine.execAdpcmDec d c s
  | .adpcmEncBuf d x b off => Sys2Proof.Machine.execAdpcmEncBuf d x b off s
  | .adpcmDecBuf d b off n => Sys2Proof.Machine.execAdpcmDecBuf d b off n s
  | .rcReset p => Sys2Proof.Machine.execRcReset p s
  | .interp6 x => Sys2Proof.Machine.execInterp6 x s
  | .decim6 x => Sys2Proof.Machine.execDecim6 x s
  | .jbReset => Sys2Proof.Machine.execJbReset s
  | .jbPush x => Sys2Proof.Machine.execJbPush x s
  | .jbPull n => Sys2Proof.Machine.execJbPull n s
  | .mfReset => Sys2Proof.Machine.execMfReset s
  | .mfFeed b => Sys2Proof.Machine.execMfFeed b s
  | .mfEncode k item ps => Sys2Proof.Machine.execMfEncode k item ps s
  | .soStart => Sys2Proof.Machine.execSoStart s
  | .soStop => Sys2Proof.Machine.execSoStop s
  | .soDispatch m => Sys2Proof.Machine.execSoDispatch m s
  | .soRxAudio p => Sys2Proof.Machine.execSoRxAudio p s
  | .soRxVideo p => Sys2Proof.Machine.execSoRxVideo p s
  | .soSetTxMode m => Sys2Proof.Machine.execSoSetTxMode m s
  | .soTxBlock x => Sys2Proof.Machine.execSoTxBlock x s
  | .soTxDrain => Sys2Proof.Machine.execSoTxDrain s
  | .soDeviceFail => Sys2Proof.Machine.execSoDeviceFail s
  | .soTransportStop => Sys2Proof.Machine.execSoTransportStop s

end Sys2Proof.Machine
end

