-- ==== Sys2Proof/Machine/Issue.lean ====
section
/-! DEFINITION. How an operation reaches the block (spec/20_memory.md R70 to R75): which agent may issue which
operation, which uses of a code width one run may not mix (spec/60_exceptions.md R305), and the next request of the one total order. There is no program counter and no instruction
memory (R21, R76): the next operation is the first pending request. -/

namespace Sys2Proof.Machine

/-- Which agent R70 gives an operation to, itself or through an SO operation. The test agent "plays all roles in turn"
(R75), and it alone issues the unit operations that R70 gives to no agent (`ADPCM_RESET`, `ADPCM_ENC`, `ADPCM_DEC`,
`RC_RESET`; `ADPCM_SETW`, R152). Other rules add: any agent for the eight CMP operations (R120), control for `JB_RESET`
(R220), `SO_TRANSPORT_STOP` (R279) and `SO_RX_VIDEO` (R265; DEDUCED, log entry 4). -/
def permitted (a : Agent) : Instr → Bool
  | .powerOn => a == .ctl || a == .test
  | .alawEnc _ => true
  | .alawDec _ => true
  | .ulawEnc _ => true
  | .ulawDec _ => true
  | .alawEncBuf _ => true
  | .alawDecBuf _ => true
  | .ulawEncBuf _ => true
  | .ulawDecBuf _ => true
  | .adpcmReset _ => a == .test
  | .adpcmSetw _ _ => a == .test
  | .adpcmEnc _ _ => a == .test
  | .adpcmDec _ _ => a == .test
  | .adpcmEncBuf _ _ _ _ => a == .cap || a == .test
  | .adpcmDecBuf _ _ _ _ => a == .net || a == .test
  | .rcReset _ => a == .test
  | .interp6 _ => a == .net || a == .test
  | .decim6 _ => a == .cap || a == .test
  | .jbReset => a == .ctl || a == .test
  | .jbPush _ => a == .net || a == .test
  | .jbPull _ => a == .play || a == .test
  | .mfReset => a == .net || a == .test
  | .mfFeed _ => a == .net || a == .test
  | .mfEncode _ _ _ => a == .net || a == .test
  | .soStart => a == .ctl || a == .test
  | .soStop => a == .ctl || a == .test
  | .soDispatch _ => a == .net || a == .test
  | .soRxAudio _ => a == .net || a == .test
  | .soRxVideo _ => a == .net || a == .ctl || a == .test
  | .soSetTxMode _ => a == .ctl || a == .test
  | .soTxBlock _ => a == .cap || a == .test
  | .soTxDrain => a == .net || a == .test
  | .soDeviceFail => a == .ctl || a == .test
  | .soTransportStop => a == .net || a == .ctl || a == .test

/-! ### Direct and orchestrated widths (R305) -/

/-- How an operation uses the code width of an instance: a direct `ADPCM_SETW` of it, or an SO operation on it, that is
one that resets it, sets it or codes with it (R261 to R271, R277, R280). `SO_DISPATCH` is `SO_RX_AUDIO` for a selected
message (R264). -/
def widthUseOf (c : Config) (d : Dir) : Instr → WidthUse
  | .powerOn => .unused
  | .alawEnc _ => .unused
  | .alawDec _ => .unused
  | .ulawEnc _ => .unused
  | .ulawDec _ => .unused
  | .alawEncBuf _ => .unused
  | .alawDecBuf _ => .unused
  | .ulawEncBuf _ => .unused
  | .ulawDecBuf _ => .unused
  | .adpcmReset _ => .unused
  | .adpcmSetw i _ => if i = d then .direct else .unused
  | .adpcmEnc _ _ => .unused
  | .adpcmDec _ _ => .unused
  | .adpcmEncBuf _ _ _ _ => .unused
  | .adpcmDecBuf _ _ _ _ => .unused
  | .rcReset _ => .unused
  | .interp6 _ => .unused
  | .decim6 _ => .unused
  | .jbReset => .unused
  | .jbPush _ => .unused
  | .jbPull _ => .unused
  | .mfReset => .unused
  | .mfFeed _ => .unused
  | .mfEncode _ _ _ => .unused
  | .soStart => .orchestrated
  | .soStop => .orchestrated
  | .soDispatch m => if d = .rx ∧ selects c.audioSel m.kind m.itemId = true then .orchestrated else .unused
  | .soRxAudio _ => if d = .rx then .orchestrated else .unused
  | .soRxVideo _ => .unused
  | .soSetTxMode _ => if d = .tx then .orchestrated else .unused
  | .soTxBlock _ => if d = .tx then .orchestrated else .unused
  | .soTxDrain => .unused
  | .soDeviceFail => .orchestrated
  | .soTransportStop => .unused

/-- Both uses of one width, which one run must not mix (R305). -/
def WidthUse.clashes (before now : WidthUse) : Bool :=
  (before == .direct && now == .orchestrated) || (before == .orchestrated && now == .direct)

/-- The use of a width after one more operation; one that does not use it leaves it. -/
def WidthUse.after (before now : WidthUse) : WidthUse := if now = .unused then before else now

/-- The use of an instance's width. -/
def WidthUses.of (u : WidthUses) : Dir → WidthUse
  | .rx => u.rx
  | .tx => u.tx

/-- An operation that would mix the two uses on an instance (R305). -/
def WidthUses.mixedBy (c : Config) (u : WidthUses) (i : Instr) : Bool :=
  u.rx.clashes (widthUseOf c .rx i) || u.tx.clashes (widthUseOf c .tx i)

/-- The uses after an operation; `POWER_ON` creates the instances anew (R320). -/
def WidthUses.after (c : Config) (u : WidthUses) (i : Instr) : WidthUses :=
  if i = .powerOn then ⟨.unused, .unused⟩
  else ⟨u.rx.after (widthUseOf c .rx i), u.tx.after (widthUseOf c .tx i)⟩

/-- What the block finds to do next. -/
inductive Fetched where
  /-- Nothing is pending. -/
  | idle
  /-- The first request is refused. -/
  | refuse (r : Refusal)
  /-- The first request is an operation, and the state with the request taken off. -/
  | run (i : Instr) (s : State)
deriving DecidableEq, Repr

/-- The first pending request, decoded and checked against R70 (R75) and R305. -/
def State.fetch (s : State) : Fetched :=
  match s.pending with
  | [] => .idle
  | q :: rest =>
    match decode q.bytes with
    | .error e => .refuse (.undecodable e)
    | .ok i =>
      if permitted q.agent i then
        if s.widthUse.mixedBy s.cfg i then .refuse .mixedWidthUse
        else .run i ((s.setPending rest).setWidthUse (s.widthUse.after s.cfg i))
      else .refuse .wrongAgent

/-- A request of the test agent put in front of what is pending (R75, log entry 1). -/
def State.issueFirst (s : State) (bytes : List Byte) : State := s.setPending (⟨.test, bytes⟩ :: s.pending)

end Sys2Proof.Machine
end

