-- ==== Sys2Proof/Machine/Step.lean ====
section
/-! DEFINITION. One step: the first pending request is taken off, decoded and executed (spec/20_memory.md R63, R71:
each operation is atomic, and all operations form one total order). -/

namespace Sys2Proof.Machine

/-- One operation of the run (R339). -/
def step (s : State) : Host.Outcome State Fault Refusal :=
  match s.fetch with
  | .idle => .fault .endOfRun
  | .refuse r => .refused r
  | .run i s' => exec i s'

/-- The operation of a table word (zero operand bytes after it) issued by the test agent as the next operation. -/
def State.withFetchWord (s : State) (nbits w : Nat) : State := s.issueFirst (tableRequest nbits w)

end Sys2Proof.Machine
end

