-- ==== Sys2Proof/Safety.lean ====
section
/-! DEFINITION. What the registers satisfy between operations, unit by unit, in the terms that claims use. Each part
names the rule of spec/ that states it. `State.Inv` is the whole; `State.ModesAgree` rests on the discipline of R305 about
a direct `ADPCM_SETW` (R281 (b)), which the model enforces (log entry 16) and `State.WidthsDisciplined` records. -/

namespace Sys2Proof.Machine

/-- R26 and R28 with R178: A2 within ±12288, A1 within ±(15360 − A2), YU within 544 … 5120, YL >> 6 within
544 … 5120 (`YL` from 544·64 to 5120·64). -/
abbrev Adp.InRange (a : Adp) : Prop :=
  -12288 ≤ a.a2.toInt ∧ a.a2.toInt ≤ 12288 ∧
  -(15360 - a.a2.toInt) ≤ a.a1.toInt ∧ a.a1.toInt ≤ 15360 - a.a2.toInt ∧
  544 ≤ a.yu.toNat ∧ a.yu.toNat ≤ 5120 ∧ 34816 ≤ a.yl.toNat ∧ a.yl.toNat ≤ 327680

/-! ### The ADPCM step size and estimates as numbers

The rules write every signal as a bit pattern (R156); here the same signals are read as the signed numbers they stand for. -/

/-- R160: the number that `FMULT` stands for, a coefficient times an 11-bit float word. -/
def tapProduct (c : BitVec 16) (f : BitVec 11) : Int :=
  let mag := if c.toInt < 0 then (-(c.toInt / 4)).toNat % 8192 else (c.toInt / 4).toNat
  let exp := if mag = 0 then 0 else Nat.log2 mag + 1
  let mant := if mag = 0 then 32 else mag * 64 / 2 ^ exp
  let e := f.toNat / 64 % 16 + exp
  let p := (f.toNat % 64 * mant + 48) / 16 * 128
  let m := if e ≤ 26 then p / 2 ^ (26 - e) else p * 2 ^ (e - 26) % 32768
  if c.toInt < 0 ↔ f.toNat < 1024 then -(m : Int) else m

/-- The sum of the six zero taps (R161). -/
def Adp.zeroTaps (a : Adp) : Int :=
  tapProduct a.b.x1 a.dq.x1 + tapProduct a.b.x2 a.dq.x2 + tapProduct a.b.x3 a.dq.x3 + tapProduct a.b.x4 a.dq.x4 +
    tapProduct a.b.x5 a.dq.x5 + tapProduct a.b.x6 a.dq.x6

/-- `SEZ` of R161 as a number: half the 16-bit sum of the zero taps, rounded down. -/
def Adp.sez (a : Adp) : Int := (BitVec.ofInt 16 a.zeroTaps).toInt / 2

/-- `SE` of R161 as a number: half the 16-bit sum of all eight taps, rounded down. -/
def Adp.se (a : Adp) : Int :=
  (BitVec.ofInt 16 (a.zeroTaps + tapProduct a.a2 a.sr2 + tapProduct a.a1 a.sr1)).toInt / 2

/-- `Y` of R159: the mixture of `YU` and `YL >> 6` with the weight `AL` of 64, rounded toward `YL >> 6`. -/
def Adp.mixedStep (a : Adp) : Int :=
  let slow : Int := a.yl.toNat / 64
  slow + Int.tdiv ((a.yu.toNat - slow) * (min (a.ap.toNat / 4) 64 : Nat)) 64

/-- R30: the queues of the playback path have their lengths. -/
abbrev RcUp.Sized (c : Config) (u : RcUp) : Prop := u.d2.length = c.k2 ∧ u.d3.length = c.k3

/-- R30 and R207: the queues of the capture path have their lengths, and both phases are 0 between operations. -/
abbrev RcDn.Sized (c : Config) (d : RcDn) : Prop :=
  d.d2.length = c.h2.length ∧ d.d3.length = c.h3.length ∧ d.ph2 = 0 ∧ d.ph3 = 0

/-- R31, R32 and R227 (a), (b), (d): the ring's form for a capacity `c`. -/
abbrev Jb.Wf (c : Nat) (j : Jb) : Prop :=
  j.buf.length = c ∧ j.head < c ∧ j.tail < c ∧ j.level < c ∧ j.head = (j.tail + j.level) % c ∧
  (j.startup = true → j.level ≤ c / 2 ∧ j.tail = 0) ∧ j.consumed < driftPeriod

/-- R34, R241 to R248 (d): what the framer holds in each of its states. -/
abbrev Mf.Wf (maxLen : Nat) (m : Mf) : Prop :=
  m.buf.length = m.idx ∧ 2 ≤ m.len ∧ m.len ≤ 8194 ∧
  (m.state = .awaitHeader1 → m.idx = 0 ∧ m.fault = false) ∧
  (m.state = .awaitHeader2 → (m.fault = false → m.buf = [m.hdrLo]) ∧ (m.fault = true → m.idx = 2)) ∧
  (m.state = .awaitBody → m.fault = false ∧ 2 ≤ m.idx ∧ m.idx < m.len ∧ 4 ≤ m.len ∧ m.len ≤ maxLen)

/-- R36: the staged bytes hold the staged bits. R274, R277: a packet is built as soon as the count reaches `TX_MAX`.
R274: the outbound meter is 0. -/
abbrev So.Wf (c : Config) (o : So) : Prop :=
  o.stage.bytes.length = (o.stage.bits + 7) / 8 ∧
  (o.txMode ≠ .noAudio → o.stage.count < c.txMax.get o.txMode) ∧
  o.txMeter = 0

/-- R281 (c): a packet that waits for the transport is a message with `AUDIO_TX`'s kind and item, whose payload has
format `AUD` with the meter 0 and the byte of some mode. -/
abbrev OutboundPacket (c : Config) (p : List Byte) : Prop :=
  ∃ (m : Mode) (data : List Byte), m ≠ .noAudio ∧
    encodeMessage c.maxMsgLen c.audioTxKind (some c.audioTxItem)
      ((audPayload 0 (c.modeCode.get m) data).map fun b => ⟨8, b.toNat⟩) = .ok p

/-- What every step keeps, over any admissible parameters. -/
structure State.Inv (s : State) : Prop where
  admissible : s.cfg.Admissible
  adpRx : s.adpRx.InRange
  adpTx : s.adpTx.InRange
  rcUp : s.rcUp.Sized s.cfg
  rcDn : s.rcDn.Sized s.cfg
  jb : s.jb.Wf s.cfg.capacity
  mf : s.mf.Wf s.cfg.maxMsgLen
  so : s.so.Wf s.cfg
  txq : ∀ p ∈ s.so.txq, OutboundPacket s.cfg p
  /-- R227 (f). -/
  underruns : s.jb.underruns = s.log.count .underrun
  overruns : s.jb.overruns = s.log.count .overrun

/-- R281 (b): the code width of an instance is the one its mode names. R272: every staged sample takes the number of
bits that the capture mode gives it. -/
abbrev State.ModesAgree (s : State) : Prop :=
  (∀ w, modeWidth s.so.rxMode = some w → s.adpRx.w = w) ∧
  (∀ w, modeWidth s.so.txMode = some w → s.adpTx.w = w) ∧
  s.so.stage.bits = s.so.stage.count * payloadBits s.so.txMode

/-- R305: the orchestrator alone leaves `NoAudio`, so a mode is `NoAudio` where no SO operation has used the instance, as the
model's own field `State.widthUse` notes it (log entry 16). -/
abbrev State.WidthsDisciplined (s : State) : Prop :=
  (s.widthUse.rx ≠ .orchestrated → s.so.rxMode = .noAudio) ∧ (s.widthUse.tx ≠ .orchestrated → s.so.txMode = .noAudio)

/-- The operation that the next step carries out, if there is one. -/
def State.nextOp (s : State) : Option Instr :=
  match s.fetch with
  | .run i _ => some i
  | .idle => none
  | .refuse _ => none

/-- Operations carried out one after another. -/
def runOps : List Instr → State → Answer
  | [], s => .next s
  | i :: is, s =>
    match exec i s with
    | .next t => runOps is t
    | .fault r => .fault r
    | .refused r => .refused r

/-- The samples that a jitter buffer of capacity `c` has queued, oldest first (R31, R227 (e)). -/
def Jb.queue (c : Nat) (j : Jb) : List Sample :=
  (List.range j.level).map fun k => j.buf.getD ((j.tail + k) % c) 0

/-- What pushing a sample does to the queued samples (R222, R223): it is appended, and a full queue loses its oldest
half. -/
def queuePush (c : Nat) (q : List Sample) (x : Sample) : List Sample :=
  if (q ++ [x]).length = c then (q ++ [x]).drop (c / 2) else q ++ [x]

/-- Stream bit `p` of a byte list (R62): bit `p mod 8` of byte `floor(p / 8)`. -/
def streamBit (b : List Byte) (p : Nat) : Bool := (b.getD (p / 8) 0).getLsbD (p % 8)

/-- The message that a result carries, if any. -/
def Result.message? : Result → Option FramedMessage
  | .message m => m
  | .unit => none
  | .byte _ => none
  | .sample _ => none
  | .bytes _ => none
  | .samples _ => none
  | .code _ => none
  | .packed _ _ => none
  | .video _ _ => none
  | .packets _ => none

end Sys2Proof.Machine
end

