-- ==== Sys2Proof/Certificates/Slice0/Obligations.lean ====
section
/-! DEFINITION. The statements for the provers. Each docstring names the rule of spec/ it formalises; a clause that rests
on a choice of the model names the log entry. `{ s with f := v, … }` on the right of `exec … = .next …` is the frame: every
field that is not named is as before. -/

open Sys2Proof Sys2Proof.Machine

/-! ### Issue and encoding -/

/-- R71, R63 with log entry 1: when the first pending request decodes to an operation its agent may issue, and that does not
mix a direct `ADPCM_SETW` with SO operations on one instance (the model's check: log entry 16), the step is that operation's
meaning on the state with the request taken off and its use of the code widths noted (log entry 16;
OnlyTheOrchestratorChangesModes says what is mixed and what is noted). -/
def Obligations.StepRunsDecodedOperation : Prop :=
  ∀ (s : State) (q : Request) (rest : List Request) (i : Instr),
    s.pending = q :: rest → decode q.bytes = .ok i → permitted q.agent i = true → s.widthUse.mixedBy s.cfg i = false →
      step s = exec i { s with pending := rest, widthUse := s.widthUse.after s.cfg i }

/-- R70 with R75: which agents may issue each of the 34 operations, and that any other issue is refused. Any agent issues the
CMP operations (R120); control also `JB_RESET` (R220) and `SO_TRANSPORT_STOP` (R279), and the test agent everything (R75). The
model's reading (log entry 4): an agent that R70 gives an operation through an SO operation may issue it directly, and control
may issue `SO_RX_VIDEO` (R265); the test agent alone issues `ADPCM_SETW` (R152, R305) and the four operations that no rule
gives to an agent (`ADPCM_RESET`, `ADPCM_ENC`, `ADPCM_DEC`, `RC_RESET`). -/
def Obligations.AgentsIssueOnlyTheirOperations : Prop :=
  (∀ (s : State) (q : Request) (rest : List Request) (i : Instr),
    s.pending = q :: rest → decode q.bytes = .ok i → permitted q.agent i = false → step s = .refused .wrongAgent) ∧
  ∀ (a : Agent) (v : Sample) (c : Byte) (x : List Sample) (y : List Byte) (n off : Int) (d : Dir) (p : Path) (k : Kind)
    (item : Option U16) (ps : List Param) (f : FramedMessage) (m : Mode),
    (∀ i ∈ [Instr.alawEnc v, .alawDec c, .ulawEnc v, .ulawDec c, .alawEncBuf x, .alawDecBuf y, .ulawEncBuf x, .ulawDecBuf y],
      permitted a i = true) ∧
    (∀ i ∈ [Instr.mfReset, .mfFeed c, .mfEncode k item ps, .soDispatch f, .soRxAudio y, .soTxDrain, .adpcmDecBuf d y off n,
        .interp6 x, .jbPush x],
      (permitted a i = true ↔ a = .net ∨ a = .test)) ∧
    (∀ i ∈ [Instr.soTxBlock x, .decim6 x, .adpcmEncBuf d x y off], (permitted a i = true ↔ a = .cap ∨ a = .test)) ∧
    (permitted a (.jbPull n) = true ↔ a = .play ∨ a = .test) ∧
    (∀ i ∈ [Instr.powerOn, .soStart, .soStop, .soSetTxMode m, .soDeviceFail, .jbReset],
      (permitted a i = true ↔ a = .ctl ∨ a = .test)) ∧
    (∀ i ∈ [Instr.soTransportStop, .soRxVideo y], (permitted a i = true ↔ a = .net ∨ a = .ctl ∨ a = .test)) ∧
    (∀ i ∈ [Instr.adpcmReset d, .adpcmSetw d n, .adpcmEnc d v, .adpcmDec d n, .rcReset p],
      (permitted a i = true ↔ a = .test))

/-- R92 with R106 (a): a request whose first byte is no code of the table is refused, whatever follows and whoever issues
it. -/
def Obligations.ReservedOperationCodeRefused : Prop :=
  ∀ (s : State) (a : Agent) (op : Byte) (r : List Byte) (rest : List Request),
    op.toNat ∉ [0x00, 0x10, 0x11, 0x12, 0x13, 0x14, 0x15, 0x16, 0x17, 0x20, 0x21, 0x22, 0x23, 0x24, 0x25, 0x30, 0x31, 0x32,
      0x40, 0x41, 0x42, 0x50, 0x51, 0x52, 0x60, 0x61, 0x62, 0x63, 0x64, 0x65, 0x66, 0x67, 0x68, 0x69] →
    s.pending = ⟨a, op :: r⟩ :: rest → step s = .refused (.undecodable (.reservedOp op))

/-- Decode and encode agree: every well-formed operation, with every value of its operands, is read back from its bytes
(the operand bytes are the model's, log entry 2). -/
def Obligations.DecodeEncodeAgree : Prop :=
  ∀ i : Instr, i.wellFormed = true → decode (encode i) = .ok i

/-- Encode and decode agree: bytes that decode are the bytes of the operation they decode to, so an operation has one
encoding, and what decodes is well formed (log entry 2). -/
def Obligations.EncodeDecodeAgree : Prop :=
  ∀ (bs : List Byte) (i : Instr), decode bs = .ok i → encode i = bs ∧ i.wellFormed = true

/-- R92: words of the table, one at least for each unit, with operand bytes where the operation has any (log entry 2). -/
def Obligations.TableWordsDecode : Prop :=
  decode [0x00#8] = .ok .powerOn ∧ decode [0x10#8, 0xE8#8, 0x03#8] = .ok (.alawEnc 1000#16) ∧
  decode [0x13#8, 0x7F#8] = .ok (.ulawDec 0x7F#8) ∧ decode [0x20#8, 0x01#8] = .ok (.adpcmReset .tx) ∧
  decode [0x30#8, 0x01#8] = .ok (.rcReset .dn) ∧ decode [0x40#8] = .ok .jbReset ∧
  decode [0x51#8, 0x0B#8] = .ok (.mfFeed 0x0B#8) ∧ decode [0x60#8] = .ok .soStart ∧
  decode [0x69#8] = .ok .soTransportStop ∧ decode [0x6A#8] = .error (.reservedOp 0x6A#8)

/-! ### Power-on and the unit resets -/

/-- R320, R46: `POWER_ON` completes in every state and leaves every register at its reset value. The parameters, the
operations still pending and the results so far stay (log entry 6); the uses of the widths are noted by the step, not by the
operation (log entry 16). -/
def Obligations.PowerOnSetsEveryRegister : Prop :=
  ∀ s : State, exec .powerOn s = .next
    { cfg := s.cfg
      poweredOn := true
      widthUse := s.widthUse
      adpRx := ⟨.w4, 0, 0, ⟨0, 0, 0, 0, 0, 0⟩, ⟨32, 32, 32, 32, 32, 32⟩, 32, 32, 34816, 544, 0, 0, 0, 0, 0, 0⟩
      adpTx := ⟨.w4, 0, 0, ⟨0, 0, 0, 0, 0, 0⟩, ⟨32, 32, 32, 32, 32, 32⟩, 32, 32, 34816, 544, 0, 0, 0, 0, 0, 0⟩
      rcUp := ⟨List.replicate ((s.cfg.h2.length + 1) / 2) 0, List.replicate ((s.cfg.h3.length + 2) / 3) 0⟩
      rcDn := ⟨List.replicate s.cfg.h2.length 0, List.replicate s.cfg.h3.length 0, 0, 0⟩
      jb := ⟨List.replicate s.cfg.capacity 0, 0, 0, 0, true, 0, 0, 0, 0, 0⟩
      mf := ⟨.awaitHeader1, 0, 2, 0, 0, [], false⟩
      so := ⟨false, .noAudio, .noAudio, 0, 0, ⟨[], 0, 0⟩, []⟩
      log := []
      pending := s.pending
      results := s.results ++ [.unit] }

/-- R320, R296: before the first `POWER_ON` every other operation is refused. -/
def Obligations.RefusedBeforePowerOn : Prop :=
  ∀ (s : State) (i : Instr), s.poweredOn = false → i ≠ .powerOn → exec i s = .refused .beforePowerOn

/-- R153, R209, R221, R246: each unit reset completes, writes the values its rule lists, and keeps everything else: `W` and
the other instance, the other path, the two statistics counters. -/
def Obligations.UnitResetsWriteTheirValues : Prop :=
  ∀ s : State, s.poweredOn = true →
    exec (.adpcmReset .rx) s = .next { s with
      adpRx := ⟨s.adpRx.w, 0, 0, ⟨0, 0, 0, 0, 0, 0⟩, ⟨32, 32, 32, 32, 32, 32⟩, 32, 32, 34816, 544, 0, 0, 0, 0, 0, 0⟩
      results := s.results ++ [.unit] } ∧
    exec (.adpcmReset .tx) s = .next { s with
      adpTx := ⟨s.adpTx.w, 0, 0, ⟨0, 0, 0, 0, 0, 0⟩, ⟨32, 32, 32, 32, 32, 32⟩, 32, 32, 34816, 544, 0, 0, 0, 0, 0, 0⟩
      results := s.results ++ [.unit] } ∧
    exec (.rcReset .up) s = .next { s with
      rcUp := ⟨List.replicate ((s.cfg.h2.length + 1) / 2) 0, List.replicate ((s.cfg.h3.length + 2) / 3) 0⟩
      results := s.results ++ [.unit] } ∧
    exec (.rcReset .dn) s = .next { s with
      rcDn := ⟨List.replicate s.cfg.h2.length 0, List.replicate s.cfg.h3.length 0, 0, 0⟩
      results := s.results ++ [.unit] } ∧
    exec .jbReset s = .next { s with
      jb := ⟨List.replicate s.cfg.capacity 0, 0, 0, 0, true, 0, 0, 0, s.jb.underruns, s.jb.overruns⟩
      results := s.results ++ [.unit] } ∧
    exec .mfReset s = .next { s with
      mf := ⟨.awaitHeader1, 0, 2, 0, 0, [], false⟩
      results := s.results ++ [.unit] }

/-! ### Compander -/

/-- R122, in the closed form it gives: segment 0 below `ix = 16`, else `seg = bitlen(ix) − 4` and the four bits below the
topmost one; the sign bit is 1 for a non-negative sample; alternate bits inverted. -/
def Obligations.AlawEncodeClosedForm : Prop :=
  ∀ (s : State) (v : Sample), s.poweredOn = true →
    let m : Nat := if v.toInt < 0 then (-v.toInt - 1).toNat else v.toInt.toNat
    let ix := m / 16
    let seg := if ix < 16 then 0 else Nat.log2 ix + 1 - 4
    let iv := if ix < 16 then ix else ix / 2 ^ (seg - 1) % 16
    let t := (if v.toInt < 0 then 0 else 128) + 16 * seg + iv
    exec (.alawEnc v) s = .next { s with results := s.results ++ [.byte (BitVec.ofNat 8 t ^^^ 0x55#8)] }

/-- R124, in the form of R131's intervals: with the magnitude clipped to 32635 and 132 added, the segment is the position of
the topmost bit minus 7 and the interval the four bits below it; the sign bit is 1 for a negative sample; all bits
inverted. -/
def Obligations.UlawEncodeClosedForm : Prop :=
  ∀ (s : State) (v : Sample), s.poweredOn = true →
    let b := min v.toInt.natAbs 32635 + 132
    let seg := Nat.log2 b - 7
    let iv := b / 2 ^ (seg + 3) - 16
    let t := (if v.toInt < 0 then 128 else 0) + 16 * seg + iv
    128 ≤ b ∧ b < 32768 ∧ 16 ≤ b / 2 ^ (seg + 3) ∧ b / 2 ^ (seg + 3) < 32 ∧
    exec (.ulawEnc v) s = .next { s with results := s.results ++ [.byte (BitVec.ofNat 8 t ^^^ 0xFF#8)] }

/-- R123, R125 in the form of R131's tables: a decoder answers the midpoint of the code's interval, with the code's sign. -/
def Obligations.DecodersGiveIntervalMidpoints : Prop :=
  (∀ (s : State) (c : Byte), s.poweredOn = true →
    let t := (c ^^^ 0x55#8).toNat
    let seg := t / 16 % 8
    let i := t % 16
    let mag : Nat := if seg = 0 then 16 * i + 8 else 2 ^ (seg + 7) + 2 ^ (seg + 3) * i + 2 ^ (seg + 2)
    exec (.alawDec c) s = .next { s with
      results := s.results ++ [.sample (BitVec.ofInt 16 (if 128 ≤ t then (mag : Int) else -mag))] }) ∧
  (∀ (s : State) (c : Byte), s.poweredOn = true →
    let t := (c ^^^ 0xFF#8).toNat
    let seg := t / 16 % 8
    let i := t % 16
    let mag : Nat := 2 ^ (seg + 3) * i + 2 ^ (seg + 7) + 2 ^ (seg + 2) - 132
    exec (.ulawDec c) s = .next { s with
      results := s.results ++ [.sample (BitVec.ofInt 16 (if 128 ≤ t then -(mag : Int) else mag))] })

/-- R126 to R129: each buffer form completes for a list of any length, answers a list of the same length whose element is
the scalar form's result on the operand's element, and changes nothing else. -/
def Obligations.CompanderBuffersMapTheScalarForms : Prop :=
  ∀ (s : State) (x : List Sample) (codes : List Byte), s.poweredOn = true →
    (∃ y : List Byte, exec (.alawEncBuf x) s = .next { s with results := s.results ++ [.bytes y] } ∧ y.length = x.length ∧
      ∀ (k : Nat) (v : Sample) (b : Byte), x[k]? = some v → y[k]? = some b →
        exec (.alawEnc v) s = .next { s with results := s.results ++ [.byte b] }) ∧
    (∃ y : List Sample, exec (.alawDecBuf codes) s = .next { s with results := s.results ++ [.samples y] } ∧
      y.length = codes.length ∧ ∀ (k : Nat) (b : Byte) (v : Sample), codes[k]? = some b → y[k]? = some v →
        exec (.alawDec b) s = .next { s with results := s.results ++ [.sample v] }) ∧
    (∃ y : List Byte, exec (.ulawEncBuf x) s = .next { s with results := s.results ++ [.bytes y] } ∧ y.length = x.length ∧
      ∀ (k : Nat) (v : Sample) (b : Byte), x[k]? = some v → y[k]? = some b →
        exec (.ulawEnc v) s = .next { s with results := s.results ++ [.byte b] }) ∧
    (∃ y : List Sample, exec (.ulawDecBuf codes) s = .next { s with results := s.results ++ [.samples y] } ∧
      y.length = codes.length ∧ ∀ (k : Nat) (b : Byte) (v : Sample), codes[k]? = some b → y[k]? = some v →
        exec (.ulawDec b) s = .next { s with results := s.results ++ [.sample v] })

/-- R132 (a), (b): every A-law code survives decoding and encoding; every u-law code does but 0x7F, which decodes to 0 and
encodes as 0xFF. -/
def Obligations.CompanderCodesRoundTrip : Prop :=
  (∀ c : Byte, alawEncode (alawDecode c) = c) ∧
  (∀ c : Byte, c ≠ 0x7F#8 → ulawEncode (ulawDecode c) = c) ∧
  ulawDecode 0x7F#8 = 0 ∧ ulawEncode 0 = 0xFF#8

/-- R132 (c), (d): the decoded sample is within half the interval width of the code's segment; beyond the u-law clip the
error is at most 644. -/
def Obligations.CompanderErrorWithinHalfInterval : Prop :=
  (∀ v : Sample, ((alawDecode (alawEncode v)).toInt - v.toInt).natAbs ≤
    2 ^ (max ((alawEncode v ^^^ 0x55#8).toNat / 16 % 8) 1 + 2)) ∧
  (∀ v : Sample, v.toInt.natAbs ≤ 32635 → ((ulawDecode (ulawEncode v)).toInt - v.toInt).natAbs ≤
    2 ^ ((ulawEncode v ^^^ 0xFF#8).toNat / 16 % 8 + 2)) ∧
  (∀ v : Sample, ((ulawDecode (ulawEncode v)).toInt - v.toInt).natAbs ≤ 644)

/-- R132 (e), (f): both decoders composed with their encoders are monotone non-decreasing; u-law is odd about zero (−32768,
which has no negative, apart), A-law about −½. -/
def Obligations.CompandersMonotoneAndSymmetric : Prop :=
  (∀ v w : Sample, v.toInt ≤ w.toInt →
    (alawDecode (alawEncode v)).toInt ≤ (alawDecode (alawEncode w)).toInt ∧
    (ulawDecode (ulawEncode v)).toInt ≤ (ulawDecode (ulawEncode w)).toInt) ∧
  (∀ v w : Sample, w.toInt = -v.toInt → (ulawDecode (ulawEncode w)).toInt = -(ulawDecode (ulawEncode v)).toInt) ∧
  (∀ v w : Sample, w.toInt = -v.toInt - 1 → (alawDecode (alawEncode w)).toInt = -(alawDecode (alawEncode v)).toInt)

/-! ### ADPCM -/

/-- R152: `ADPCM_SETW` writes `W` and nothing else for 2, 3, 4 and 5, and refuses every other width. -/
def Obligations.SetWidthWritesOnlyW : Prop :=
  ∀ s : State, s.poweredOn = true →
    (∀ w : CodeWidth, exec (.adpcmSetw .rx w.bits) s = .next { s with
      adpRx := { s.adpRx with w := w }, results := s.results ++ [.unit] }) ∧
    (∀ w : CodeWidth, exec (.adpcmSetw .tx w.bits) s = .next { s with
      adpTx := { s.adpTx with w := w }, results := s.results ++ [.unit] }) ∧
    (∀ (i : Dir) (w : Int), w ∉ [(2 : Int), 3, 4, 5] → exec (.adpcmSetw i w) s = .refused .badWidth)

/-- R173 with R154, R162, R163: `ADPCM_ENC tx` completes for every sample and every register contents. Its code is the
quantizer's: `k` decision levels of R155 lie at or below the logarithm of the difference `SL − SE` in 1/128 octaves less a
quarter of the step size (`SE` and `Y` are `Adp.se` and `Adp.mixedStep`, R161 and R159 as numbers). The code has `W` bits and is
not 0 for W ≥ 3 (R102). The registers become those that `ADPCM_DEC` leaves for this code from the same registers (R150, R157:
every stage but 3 is the same); `W` is kept, the delay lines shift (R172), and nothing but `ADP[tx]` and the result changes. -/
def Obligations.EncodeSampleCompletes : Prop :=
  ∀ (s : State) (v : Sample), s.poweredOn = true →
    let w := s.adpTx.w
    let levels : List Int := match w with
      | .w2 => [261]
      | .w3 => [8, 218, 331]
      | .w4 => [-124, 80, 178, 246, 300, 349, 400]
      | .w5 => [-122, -16, 68, 139, 198, 250, 298, 339, 378, 413, 445, 475, 502, 528, 553]
    let d : Int := v.toInt / 4 - s.adpTx.se
    let e := Nat.log2 d.natAbs
    let dln : Int := 128 * e + (d.natAbs * 128 / 2 ^ e % 128 : Nat) - s.adpTx.mixedStep / 4
    let k := levels.countP fun t => decide (t ≤ dln)
    let c := if d < 0 then 2 ^ w.bits - 1 - k else if k = 0 ∧ w ≠ .w2 then 2 ^ w.bits - 1 else k
    c < 2 ^ w.bits ∧ (w ≠ .w2 → c ≠ 0) ∧
    ∃ (a : Adp) (out : Sample),
      exec (.adpcmEnc .tx v) s = .next { s with adpTx := a, results := s.results ++ [.code c] } ∧
      exec (.adpcmDec .rx c) { s with adpRx := s.adpTx } = .next { s with
        adpRx := a, results := s.results ++ [.sample out] } ∧
      a.w = w ∧ a.dq.x2 = s.adpTx.dq.x1 ∧ a.dq.x3 = s.adpTx.dq.x2 ∧ a.dq.x4 = s.adpTx.dq.x3 ∧ a.dq.x5 = s.adpTx.dq.x4 ∧
      a.dq.x6 = s.adpTx.dq.x5 ∧ a.sr2 = s.adpTx.sr1 ∧ a.pk2 = s.adpTx.pk1

/-- R174 with R172: `ADPCM_DEC rx` completes for every operand and every register contents; only the low `W` bits of the
operand matter; `W` is kept, the delay lines shift, and nothing but `ADP[rx]` and the result changes. For registers in their
ranges, the sample and every register after it, in exact integers: the difference is the antilogarithm of the code's level
(R155) plus a quarter of the step size (R164); the sample is four times difference plus estimate, wrapped to 16 bits (R165,
R154); on a transition (R166) A1, A2, the B and TD are cleared and AP is 256 (R169, R170); else A2 and A1 move by the sign
correlations, leak and are limited (R167, R168), the B move by ±128 and leak (R169), AP leaks (R170); DQ1 and SR1 are 11-bit
floats (R169). `SE`, `SEZ` and `Y` are `Adp.se`, `Adp.sez` and `Adp.mixedStep`. -/
def Obligations.DecodeSampleCompletes : Prop :=
  ∀ (s : State) (code : Int), s.poweredOn = true →
    (∃ (a : Adp) (v : Sample), exec (.adpcmDec .rx code) s = .next { s with
        adpRx := a, results := s.results ++ [.sample v] } ∧ a.w = s.adpRx.w ∧
      a.dq.x2 = s.adpRx.dq.x1 ∧ a.dq.x3 = s.adpRx.dq.x2 ∧ a.dq.x4 = s.adpRx.dq.x3 ∧ a.dq.x5 = s.adpRx.dq.x4 ∧
      a.dq.x6 = s.adpRx.dq.x5 ∧ a.sr2 = s.adpRx.sr1 ∧ a.pk2 = s.adpRx.pk1) ∧
    (∀ code' : Int, code' % 2 ^ s.adpRx.w.bits = code % 2 ^ s.adpRx.w.bits →
      exec (.adpcmDec .rx code') s = exec (.adpcmDec .rx code) s) ∧
    (s.adpRx.InRange →
      let r := s.adpRx
      let c := (code % 2 ^ r.w.bits).toNat
      let neg := decide (2 ^ (r.w.bits - 1) ≤ c)
      let mi := if neg then 2 ^ r.w.bits - 1 - c else c
      let entry (w2 w3 w4 w5 : List Int) : Int :=
        (match r.w with | .w2 => w2 | .w3 => w3 | .w4 => w4 | .w5 => w5).getD mi 0
      let level := entry [116, 365] [-2048, 135, 273, 373] [-2048, 4, 135, 213, 273, 323, 373, 425]
        [-2048, -66, 28, 104, 169, 224, 274, 318, 358, 395, 429, 459, 488, 514, 539, 566]
      let wi := entry [-22, 439] [-4, 30, 137, 582] [-12, 18, 41, 64, 112, 198, 355, 1122]
        [14, 14, 24, 39, 40, 41, 58, 100, 141, 179, 219, 280, 358, 440, 529, 696]
      let fi := entry [0, 7] [0, 1, 2, 7] [0, 0, 0, 1, 1, 1, 3, 7] [0, 0, 0, 0, 0, 1, 1, 1, 1, 1, 2, 3, 4, 5, 6, 6]
      let y := r.mixedStep
      let l := level + y / 4
      let mag : Nat := if l < 0 then 0 else ((128 + l % 128) * 128 / 2 ^ (14 - (l / 128).toNat)).toNat
      let dq : Int := if neg then -mag else mag
      let sr := (BitVec.ofInt 16 (dq + r.se)).toInt
      let p := (BitVec.ofInt 16 (dq + r.sez)).toInt
      let pk : BitVec 1 := if p < 0 then 1 else 0
      let e := r.yl.toNat / 32768
      let thr := if 9 < e then 31 * 1024 else (32 + r.yl.toNat / 1024 % 32) * 2 ^ e
      let tr := decide (r.td = 1 ∧ (thr + thr / 2) / 2 < mag)
      let float (sign : Bool) (m : Nat) : BitVec 11 :=
        let exp := if m = 0 then 0 else Nat.log2 m + 1
        BitVec.ofNat 11 ((if sign then 1024 else 0) + 64 * exp + if m = 0 then 32 else m * 64 / 2 ^ exp)
      let f := 4 * max (-8191) (min 8191 r.a1.toInt)
      let g2 : Int := if p = 0 then 0 else ((if pk = r.pk2 then 16384 else -16384) + (if pk = r.pk1 then -f else f)) / 128
      let g1 : Int := if p = 0 then 0 else if pk = r.pk1 then 192 else -192
      let a2 := max (-12288) (min 12288 (r.a2.toInt + g2 - r.a2.toInt / 128))
      let a1 := max (-(15360 - a2)) (min (15360 - a2) (r.a1.toInt + g1 - r.a1.toInt / 256))
      let b (bn : BitVec 16) (dqn : BitVec 11) : BitVec 16 :=
        if tr then 0
        else BitVec.ofInt 16 (bn.toInt + (if mag = 0 then 0 else if neg = decide (1024 ≤ dqn.toNat) then 128 else -128) -
          bn.toInt / (if r.w = .w5 then 512 else 256))
      let tone := decide (a2 < -11776)
      let dms := r.dms.toNat + (512 * fi - r.dms.toNat) / 32
      let dml := r.dml.toNat + (2048 * fi - r.dml.toNat) / 128
      let ax : Int := if 1536 ≤ y ∧ ((4 * dms - dml).natAbs : Int) < dml / 8 ∧ tone = false then 0 else 1
      let yu := max 544 (min 5120 (y + (32 * wi - y) / 32))
      exec (.adpcmDec .rx code) s = .next { s with
        adpRx :=
          { w := r.w
            a1 := if tr then 0 else BitVec.ofInt 16 a1
            a2 := if tr then 0 else BitVec.ofInt 16 a2
            b := ⟨b r.b.x1 r.dq.x1, b r.b.x2 r.dq.x2, b r.b.x3 r.dq.x3, b r.b.x4 r.dq.x4, b r.b.x5 r.dq.x5, b r.b.x6 r.dq.x6⟩
            dq := ⟨float neg mag, r.dq.x1, r.dq.x2, r.dq.x3, r.dq.x4, r.dq.x5⟩
            sr1 := float (decide (sr < 0)) (sr.natAbs % 32768)
            sr2 := r.sr1
            yl := BitVec.ofInt 19 (r.yl.toNat + (64 * yu - r.yl.toNat) / 64)
            yu := BitVec.ofInt 13 yu
            dms := BitVec.ofInt 12 dms
            dml := BitVec.ofInt 14 dml
            ap := if tr then 256 else BitVec.ofInt 10 (r.ap.toNat + (512 * ax - r.ap.toNat) / 16)
            td := if tone && !tr then 1 else 0
            pk1 := pk
            pk2 := r.pk1 }
        results := s.results ++ [.sample (BitVec.ofInt 16 (4 * sr))] })

/-- R150: an encode operation naming `rx` and a decode operation naming `tx` are refused, whatever the other operands. -/
def Obligations.WrongInstanceRefused : Prop :=
  ∀ (s : State) (v : Sample) (x : List Sample) (b : List Byte) (c off n : Int), s.poweredOn = true →
    exec (.adpcmEnc .rx v) s = .refused .wrongInstance ∧ exec (.adpcmEncBuf .rx x b off) s = .refused .wrongInstance ∧
    exec (.adpcmDec .tx c) s = .refused .wrongInstance ∧ exec (.adpcmDecBuf .tx b off n) s = .refused .wrongInstance

/-- R177: from equal registers, encoding a sample and decoding its code leave the two instances with equal registers. -/
def Obligations.SampleLockStep : Prop :=
  ∀ (s : State) (v : Sample), s.poweredOn = true → s.adpRx = s.adpTx →
    ∃ (a : Adp) (c : Nat) (out : Sample),
      exec (.adpcmEnc .tx v) s = .next { s with adpTx := a, results := s.results ++ [.code c] } ∧
      exec (.adpcmDec .rx c) { s with adpTx := a } = .next { s with
        adpTx := a, adpRx := a, results := s.results ++ [.sample out] }

/-- R177 with R175 and R176: from equal registers, a block encoded into bytes at any admitted bit offset and decoded from those
bytes leaves the two instances with equal registers and gives as many samples as went in. -/
def Obligations.BlockLockStep : Prop :=
  ∀ (s : State) (x : List Sample) (b : List Byte) (off : Nat), s.poweredOn = true → s.adpRx = s.adpTx →
    off ≤ 8 * b.length →
    ∃ (a : Adp) (y : List Byte) (out : List Sample),
      exec (.adpcmEncBuf .tx x b off) s = .next { s with
        adpTx := a, results := s.results ++ [.packed y (off + s.adpTx.w.bits * x.length)] } ∧
      exec (.adpcmDecBuf .rx y off x.length) { s with adpTx := a } = .next { s with
        adpTx := a, adpRx := a, results := s.results ++ [.samples out] } ∧
      out.length = x.length

/-- R175: the codes are those that `ADPCM_ENC` answers for the samples in order, and the registers those it leaves. The packed
bytes keep the stream bits below `off`, hold the codes one after another, each least significant bit first, end with zero bits,
and are as few as hold them; outside the offsets of R175 the operation is refused. -/
def Obligations.EncodeBufferPacksCodes : Prop :=
  ∀ (s : State) (x : List Sample) (b : List Byte) (off : Int), s.poweredOn = true →
    (0 ≤ off → off ≤ 8 * b.length →
      ∃ (a : Adp) (codes : List Nat) (y : List Byte),
        runOps (x.map (.adpcmEnc .tx)) s = .next { s with adpTx := a, results := s.results ++ codes.map .code } ∧
        codes.length = x.length ∧
        exec (.adpcmEncBuf .tx x b off) s = .next { s with
          adpTx := a, results := s.results ++ [.packed y (off.toNat + s.adpTx.w.bits * x.length)] } ∧
        y.length = (off.toNat + s.adpTx.w.bits * x.length + 7) / 8 ∧
        (∀ p < off.toNat, streamBit y p = streamBit b p) ∧
        (∀ k c, codes[k]? = some c → ∀ j < s.adpTx.w.bits,
          streamBit y (off.toNat + s.adpTx.w.bits * k + j) = c.testBit j) ∧
        ∀ p, off.toNat + s.adpTx.w.bits * x.length ≤ p → streamBit y p = false) ∧
    (off < 0 ∨ 8 * (b.length : Int) < off → exec (.adpcmEncBuf .tx x b off) s = .refused .badOffset)

/-- R176: the operation gives the samples that `ADPCM_DEC` answers, in order, for the `n` codes whose bit `j` is stream bit
`off + W·k + j`, and leaves the registers it leaves; where the bytes do not hold the codes it is refused. -/
def Obligations.DecodeBufferUnpacksCodes : Prop :=
  ∀ (s : State) (b : List Byte) (off n : Int), s.poweredOn = true →
    (0 ≤ off → 0 ≤ n → off + s.adpRx.w.bits * n ≤ 8 * b.length →
      ∃ (codes : List Nat) (a : Adp) (x : List Sample), codes.length = n.toNat ∧
        (∀ k c, codes[k]? = some c → c < 2 ^ s.adpRx.w.bits ∧ ∀ j < s.adpRx.w.bits,
          c.testBit j = streamBit b (off.toNat + s.adpRx.w.bits * k + j)) ∧
        runOps (codes.map fun c : Nat => .adpcmDec .rx c) s = .next { s with adpRx := a, results := s.results ++ x.map .sample } ∧
        x.length = n.toNat ∧
        exec (.adpcmDecBuf .rx b off n) s = .next { s with adpRx := a, results := s.results ++ [.samples x] }) ∧
    (off < 0 ∨ n < 0 ∨ 8 * (b.length : Int) < off + s.adpRx.w.bits * n →
      exec (.adpcmDecBuf .rx b off n) s = .refused .badRange)

/-- R26, R167, R168, R171: whatever the registers were, after one encoded sample A2 is within ±12288, A1 within
±(15360 − A2) and YU within 544 … 5120; and where YL >> 6 was within 544 … 5120 it stays there (R178). -/
def Obligations.SampleStepClampsRegisters : Prop :=
  ∀ (s t : State) (v : Sample), exec (.adpcmEnc .tx v) s = .next t →
    -12288 ≤ t.adpTx.a2.toInt ∧ t.adpTx.a2.toInt ≤ 12288 ∧
    -(15360 - t.adpTx.a2.toInt) ≤ t.adpTx.a1.toInt ∧ t.adpTx.a1.toInt ≤ 15360 - t.adpTx.a2.toInt ∧
    544 ≤ t.adpTx.yu.toNat ∧ t.adpTx.yu.toNat ≤ 5120 ∧
    (34816 ≤ s.adpTx.yl.toNat → s.adpTx.yl.toNat ≤ 327680 → 34816 ≤ t.adpTx.yl.toNat ∧ t.adpTx.yl.toNat ≤ 327680)

/-- R159, R170, R171 in exact integers, for registers in their ranges: the step size is the mixture of YU and YL/64 with the
weight AL of 64, rounded toward YL/64; with W(I) and F(I) of the code that comes out, YU moves from the step size by 1/32 of
its distance to 32·W(I) and is limited, YL by 1/64 of its distance to YU, DMS by 1/32 of its distance to 512·F(I) and DML by
1/128 of its distance to 2048·F(I), each rounded down. -/
def Obligations.ScaleFactorAndSpeedMoveByLeaks : Prop :=
  ∀ (s t : State) (v : Sample) (c : Nat), s.adpTx.InRange → exec (.adpcmEnc .tx v) s = .next t →
    t.results = s.results ++ [.code c] →
    let a := s.adpTx
    let mi := if c < 2 ^ (a.w.bits - 1) then c else 2 ^ a.w.bits - 1 - c
    let w : Int := (wTab a.w).getD mi 0
    let f : Int := (fTab a.w).getD mi 0
    let slow : Int := a.yl.toNat / 64
    let y : Int := slow + Int.tdiv ((a.yu.toNat - slow) * (min (a.ap.toNat / 4) 64 : Nat)) 64
    (t.adpTx.yu.toNat : Int) = max 544 (min 5120 (y + (32 * w - y) / 32)) ∧
    (t.adpTx.yl.toNat : Int) = a.yl.toNat + (64 * t.adpTx.yu.toNat - a.yl.toNat) / 64 ∧
    (t.adpTx.dms.toNat : Int) = a.dms.toNat + (512 * f - a.dms.toNat) / 32 ∧
    (t.adpTx.dml.toNat : Int) = a.dml.toNat + (2048 * f - a.dml.toNat) / 128

/-! ### Rate converter -/

/-- R205: `INTERP6` completes for every length, gives six samples for each, and changes nothing but `RC.up` and the
result. -/
def Obligations.InterpolationGivesSixfold : Prop :=
  ∀ (s : State) (x : List Sample), s.poweredOn = true →
    ∃ (u : RcUp) (y : List Sample), exec (.interp6 x) s = .next { s with
      rcUp := u, results := s.results ++ [.samples y] } ∧ y.length = 6 * x.length

/-- R207, R208: `DECIM6` of a multiple of 6 samples completes, gives one sample for six, leaves the phases as they were and
changes nothing but `RC.dn` and the result; of any other length it is refused. -/
def Obligations.DecimationGivesOneForSix : Prop :=
  ∀ (s : State) (x : List Sample), s.poweredOn = true →
    (x.length % 6 = 0 → s.rcDn.ph2 < 2 → s.rcDn.ph3 < 3 →
      ∃ (d : RcDn) (y : List Sample), exec (.decim6 x) s = .next { s with
        rcDn := d, results := s.results ++ [.samples y] } ∧
        y.length = x.length / 6 ∧ d.ph2 = s.rcDn.ph2 ∧ d.ph3 = s.rcDn.ph3) ∧
    (x.length % 6 ≠ 0 → exec (.decim6 x) s = .refused .badLength)

/-- R202, R204, R205: one 8 kHz sample x gives six. The two outputs of stage U2 are the sums of the even and of the odd taps
of H2 with the newest inputs, x first, divided by N2I, rounded and saturated; stage U3 gives three such outputs for each of
them, one for each third of the taps of H3. The queues keep the newest inputs. -/
def Obligations.InterpolationOfOneSample : Prop :=
  ∀ (s : State) (x : Sample), s.poweredOn = true → 0 < s.cfg.h2.length → 0 < s.cfg.h3.length →
    let fir (h : List Int) (l p : Nat) (n : Int) (q : List Sample) : Sample :=
      sat16 (rdiv (∑ k ∈ Finset.range h.length, h.getD (p + k * l) 0 * (q.getD k 0).toInt) n)
    let q2 := x :: s.rcUp.d2
    let u (p : Nat) : Sample := fir s.cfg.h2 2 p s.cfg.n2i q2
    let q3 := u 0 :: s.rcUp.d3
    let y (p : Nat) (q : List Sample) : Sample := fir s.cfg.h3 3 p s.cfg.n3i q
    exec (.interp6 [x]) s = .next { s with
      rcUp := ⟨q2.take s.cfg.k2, (u 1 :: q3).take s.cfg.k3⟩
      results := s.results ++ [.samples [y 0 q3, y 1 q3, y 2 q3, y 0 (u 1 :: q3), y 1 (u 1 :: q3), y 2 (u 1 :: q3)]] }

/-- R202, R206, R207: with both phases 0, six 48 kHz samples give one. Stage D2 emits after every second input the sum of the
taps of H2 with the newest inputs, divided by N2D, rounded and saturated; stage D3 does the same with H3 and N3D after its
third input. The queues keep the newest inputs and the phases return to 0. -/
def Obligations.DecimationOfSixSamples : Prop :=
  ∀ (s : State) (a b c d e f : Sample), s.poweredOn = true → 0 < s.cfg.h2.length → 0 < s.cfg.h3.length →
    s.rcDn.ph2 = 0 → s.rcDn.ph3 = 0 →
    let fir (h : List Int) (n : Int) (q : List Sample) : Sample :=
      sat16 (rdiv (∑ k ∈ Finset.range h.length, h.getD k 0 * (q.getD k 0).toInt) n)
    let q2 := b :: a :: s.rcDn.d2
    let q4 := d :: c :: q2
    let q6 := f :: e :: q4
    let q3 := fir s.cfg.h2 s.cfg.n2d q6 :: fir s.cfg.h2 s.cfg.n2d q4 :: fir s.cfg.h2 s.cfg.n2d q2 :: s.rcDn.d3
    exec (.decim6 [a, b, c, d, e, f]) s = .next { s with
      rcDn := ⟨q6.take s.cfg.h2.length, q3.take s.cfg.h3.length, 0, 0⟩
      results := s.results ++ [.samples [fir s.cfg.h3 s.cfg.n3d q3]] }

/-- R210 (d): a block cut at any point (for `DECIM6`, into multiples of 6) gives the concatenation of the parts' outputs and
the same converter state. -/
def Obligations.BlockCutsDoNotMatter : Prop :=
  ∀ (s : State) (x y : List Sample), s.poweredOn = true →
    (∃ (u v : RcUp) (p q : List Sample),
      exec (.interp6 x) s = .next { s with rcUp := u, results := s.results ++ [.samples p] } ∧
      exec (.interp6 y) { s with rcUp := u } = .next { s with rcUp := v, results := s.results ++ [.samples q] } ∧
      exec (.interp6 (x ++ y)) s = .next { s with rcUp := v, results := s.results ++ [.samples (p ++ q)] }) ∧
    (x.length % 6 = 0 → y.length % 6 = 0 → ∃ (u v : RcDn) (p q : List Sample),
      exec (.decim6 x) s = .next { s with rcDn := u, results := s.results ++ [.samples p] } ∧
      exec (.decim6 y) { s with rcDn := u } = .next { s with rcDn := v, results := s.results ++ [.samples q] } ∧
      exec (.decim6 (x ++ y)) s = .next { s with rcDn := v, results := s.results ++ [.samples (p ++ q)] })

/-- R210 (a), for any admissible taps (R203): with queues full of a constant, a constant input gives exactly that constant
on either path and changes no queue. -/
def Obligations.ConstantInputReproduced : Prop :=
  ∀ (s : State) (c : Sample) (n : Nat), s.poweredOn = true → s.cfg.Admissible →
    (s.rcUp = ⟨List.replicate s.cfg.k2 c, List.replicate s.cfg.k3 c⟩ →
      exec (.interp6 (List.replicate n c)) s = .next { s with
        results := s.results ++ [.samples (List.replicate (6 * n) c)] }) ∧
    (s.rcDn = ⟨List.replicate s.cfg.h2.length c, List.replicate s.cfg.h3.length c, 0, 0⟩ →
      exec (.decim6 (List.replicate (6 * n) c)) s = .next { s with
        results := s.results ++ [.samples (List.replicate n c)] })

/-! ### Jitter buffer -/

/-- R222 to R224 for one sample: it is written at HEAD; a full queue is halved and the event raised; else a level above C/2
ends start-up and arms the estimator; outside start-up AVG moves by 1/50 of its distance to the level. -/
def Obligations.PushOneSample : Prop :=
  ∀ (s : State) (x : Sample), s.poweredOn = true →
    let j := s.jb
    let c := s.cfg.capacity
    let written : Jb := { j with buf := j.buf.set j.head x, head := (j.head + 1) % c }
    let half : Rat := ((c / 2 : Nat) : Rat)
    let level : Rat := ((j.level + 1 : Nat) : Rat)
    (j.level + 1 = c → exec (.jbPush [x]) s = .next { s with
      jb := { written with
        tail := (j.tail + c / 2) % c, level := c / 2, overruns := j.overruns + 1
        avg := if j.startup then j.avg else j.avg + 1 / 50 * (half - j.avg) }
      log := s.log ++ [.overrun], results := s.results ++ [.unit] }) ∧
    (j.level + 1 ≠ c → j.startup = true → j.level + 1 > c / 2 → exec (.jbPush [x]) s = .next { s with
      jb := { written with level := j.level + 1, startup := false, consumed := 0, avg := half + 1 / 50 * (level - half) }
      results := s.results ++ [.unit] }) ∧
    (j.level + 1 ≠ c → j.startup = true → j.level + 1 ≤ c / 2 → exec (.jbPush [x]) s = .next { s with
      jb := { written with level := j.level + 1 }, results := s.results ++ [.unit] }) ∧
    (j.level + 1 ≠ c → j.startup = false → exec (.jbPush [x]) s = .next { s with
      jb := { written with level := j.level + 1, avg := j.avg + 1 / 50 * (level - j.avg) }
      results := s.results ++ [.unit] })

/-- R222 to R224, R227 (b), (e): `JB_PUSH` of a block of any length completes and treats the queued samples as a queue that loses
its oldest half, and raises `Overrun`, whenever it fills up; the ring keeps its form, entries it does not write are unchanged,
and nothing but JB, EVT.LOG and the result changes. Start-up ends exactly where the level passes C/2 within the block, and
sets CONSUMED to 0. AVG moves once for the whole block, the empty one included, by 1/50 of its distance (from C/2 where
start-up ends in this block) to the final level, and not in start-up; DRIFT is kept. -/
def Obligations.PushRefinesAQueue : Prop :=
  ∀ (s : State) (x : List Sample), s.poweredOn = true → capacityOk s.cfg.capacity → s.jb.Wf s.cfg.capacity →
    let half : Rat := ((s.cfg.capacity / 2 : Nat) : Rat)
    ∃ (j : Jb) (es : List Event), exec (.jbPush x) s = .next { s with
        jb := j, log := s.log ++ es, results := s.results ++ [.unit] } ∧
      j.queue s.cfg.capacity = x.foldl (queuePush s.cfg.capacity) (s.jb.queue s.cfg.capacity) ∧
      j.Wf s.cfg.capacity ∧ j.head = (s.jb.head + x.length) % s.cfg.capacity ∧
      (∀ a < s.cfg.capacity, (∀ k < x.length, (s.jb.head + k) % s.cfg.capacity ≠ a) → j.buf[a]? = s.jb.buf[a]?) ∧
      es = List.replicate (j.overruns - s.jb.overruns) .overrun ∧ s.jb.overruns ≤ j.overruns ∧
      s.jb.level + x.length = j.level + s.cfg.capacity / 2 * (j.overruns - s.jb.overruns) ∧
      j.underruns = s.jb.underruns ∧ j.drift = s.jb.drift ∧
      (s.jb.startup = true → s.jb.level + x.length ≤ s.cfg.capacity / 2 →
        j.startup = true ∧ j.consumed = s.jb.consumed ∧ j.avg = s.jb.avg) ∧
      (s.jb.startup = true → s.cfg.capacity / 2 < s.jb.level + x.length →
        j.startup = false ∧ j.consumed = 0 ∧ j.avg = half + 1 / 50 * ((j.level : Rat) - half)) ∧
      (s.jb.startup = false →
        j.startup = false ∧ j.consumed = s.jb.consumed ∧ j.avg = s.jb.avg + 1 / 50 * ((j.level : Rat) - s.jb.avg))

/-- R225, R228: `JB_PULL n` completes for every n ≥ 0 with exactly n samples and changes nothing but JB, EVT.LOG and the
result, no stored sample among it; out of start-up and with TAIL inside the ring, up to the level the samples are the
oldest queued ones in order; a negative n is refused. A longer pull does what its parts do one after another, in the samples,
in JB and in EVT.LOG, and a pull of none does nothing: with the pulls of one sample (UnderrunReplaysHalfABuffer,
DriftEvery48000Samples) this says what a pull that runs dry midway gives. -/
def Obligations.PullDeliversTheOldestSamples : Prop :=
  (∀ (s : State) (n : Int), s.poweredOn = true →
    (0 ≤ n → ∃ (j : Jb) (es : List Event) (y : List Sample), exec (.jbPull n) s = .next { s with
        jb := j, log := s.log ++ es, results := s.results ++ [.samples y] } ∧
      y.length = n.toNat ∧ j.buf = s.jb.buf ∧ j.head = s.jb.head ∧
      (s.jb.startup = false → s.jb.tail < s.cfg.capacity → n ≤ s.jb.level →
        y = (s.jb.queue s.cfg.capacity).take n.toNat ∧ j.queue s.cfg.capacity = (s.jb.queue s.cfg.capacity).drop n.toNat ∧
          es = [])) ∧
    (n < 0 → exec (.jbPull n) s = .refused .negativeCount)) ∧
  ∀ (s : State) (m n : Nat), s.poweredOn = true →
    exec (.jbPull 0) s = .next { s with results := s.results ++ [.samples []] } ∧
    ∃ (j k : Jb) (ds es : List Event) (y z : List Sample),
      exec (.jbPull m) s = .next { s with jb := j, log := s.log ++ ds, results := s.results ++ [.samples y] } ∧
      exec (.jbPull n) { s with jb := j, log := s.log ++ ds } = .next { s with
        jb := k, log := s.log ++ ds ++ es, results := s.results ++ [.samples z] } ∧
      exec (.jbPull (m + n)) s = .next { s with
        jb := k, log := s.log ++ ds ++ es, results := s.results ++ [.samples (y ++ z)] }

/-- R225: in start-up a pull of any length gives zeros and changes nothing but the result. -/
def Obligations.StartupGivesSilence : Prop :=
  ∀ (s : State) (n : Nat), s.poweredOn = true → s.jb.startup = true →
    exec (.jbPull n) s = .next { s with results := s.results ++ [.samples (List.replicate n 0)] }

/-- R225, R226: a pull that finds the queue empty delivers one zero, raises `Underrun`, and rewinds TAIL by half the capacity, so
that the half buffer before it is queued again, to be replayed in order. The zero counts as consumed: the 48000th consumed
sample computes DRIFT and starts the count again. Nothing else of JB changes. -/
def Obligations.UnderrunReplaysHalfABuffer : Prop :=
  ∀ s : State, s.poweredOn = true → capacityOk s.cfg.capacity → s.jb.Wf s.cfg.capacity → s.jb.startup = false →
    s.jb.level = 0 →
    let half := s.cfg.capacity / 2
    let j : Jb := { s.jb with
      tail := (s.jb.tail + (s.cfg.capacity - half)) % s.cfg.capacity
      level := half
      underruns := s.jb.underruns + 1
      consumed := if s.jb.consumed = 47999 then 0 else s.jb.consumed + 1
      drift := if s.jb.consumed = 47999 then (s.jb.avg - (half : Rat)) * s.cfg.driftGain else s.jb.drift }
    exec (.jbPull 1) s = .next { s with
      jb := j, log := s.log ++ [.underrun], results := s.results ++ [.samples [0]] } ∧
    (j.tail + half) % s.cfg.capacity = s.jb.tail ∧
    j.queue s.cfg.capacity = (List.range half).map (fun k => s.jb.buf.getD ((s.jb.tail + half + k) % s.cfg.capacity) 0)

/-- R226: a pulled queued sample is consumed; the 48000th one computes DRIFT from the smoothed level and starts the count again,
an earlier one only counts. (The zero of an underrun counts alike: UnderrunReplaysHalfABuffer.) -/
def Obligations.DriftEvery48000Samples : Prop :=
  ∀ s : State, s.poweredOn = true → s.jb.startup = false → 0 < s.jb.level →
    (s.jb.consumed = 47999 → exec (.jbPull 1) s = .next { s with
      jb := { s.jb with
        tail := (s.jb.tail + 1) % s.cfg.capacity, level := s.jb.level - 1, consumed := 0
        drift := (s.jb.avg - ((s.cfg.capacity / 2 : Nat) : Rat)) * s.cfg.driftGain }
      results := s.results ++ [.samples [s.jb.buf.getD s.jb.tail 0]] }) ∧
    (s.jb.consumed < 47999 → exec (.jbPull 1) s = .next { s with
      jb := { s.jb with
        tail := (s.jb.tail + 1) % s.cfg.capacity, level := s.jb.level - 1, consumed := s.jb.consumed + 1 }
      results := s.results ++ [.samples [s.jb.buf.getD s.jb.tail 0]] })

/-! ### Message framer -/

/-- R241 to R244: what a header byte does. The header word is low byte first, its low 13 bits the total length (0 for 8194),
its top 3 bits the kind; a length of 1, 3 or above `MAX_MSG_LEN` sets the fault and raises the event; a length of 2 emits a
message without item; any other waits for the body. -/
def Obligations.FeedHeaderBytes : Prop :=
  ∀ (s : State) (b : Byte), s.poweredOn = true → s.mf.fault = false →
    (s.mf.state = .awaitHeader1 → exec (.mfFeed b) s = .next { s with
      mf := { s.mf with hdrLo := b, buf := [b], idx := 1, state := .awaitHeader2 }
      results := s.results ++ [.message none] }) ∧
    (s.mf.state = .awaitHeader2 →
      let hdr := s.mf.hdrLo.toNat + 256 * b.toNat
      let len := if hdr % 8192 = 0 then 8194 else hdr % 8192
      let kind : Kind := BitVec.ofNat 3 (hdr / 8192)
      (len = 1 ∨ len = 3 ∨ len > s.cfg.maxMsgLen → exec (.mfFeed b) s = .next { s with
        mf := { s.mf with kind := kind, buf := s.mf.buf ++ [b], idx := 2, fault := true }
        log := s.log ++ [.framingViolation len], results := s.results ++ [.message none] }) ∧
      (len = 2 → len ≤ s.cfg.maxMsgLen → exec (.mfFeed b) s = .next { s with
        mf := { s.mf with kind := kind, buf := [], idx := 0, len := 2, state := .awaitHeader1 }
        results := s.results ++ [.message (some ⟨kind, none, []⟩)] }) ∧
      (4 ≤ len → len ≤ s.cfg.maxMsgLen → exec (.mfFeed b) s = .next { s with
        mf := { s.mf with kind := kind, buf := s.mf.buf ++ [b], idx := 2, len := len, state := .awaitBody }
        results := s.results ++ [.message none] }))

/-- R245: a body byte is kept; the last one emits the message, its item the two bytes after the header word, low byte
first, its payload the rest. -/
def Obligations.FeedBodyBytes : Prop :=
  ∀ (s : State) (b : Byte), s.poweredOn = true → s.mf.fault = false → s.mf.state = .awaitBody →
    (s.mf.idx + 1 ≠ s.mf.len → exec (.mfFeed b) s = .next { s with
      mf := { s.mf with buf := s.mf.buf ++ [b], idx := s.mf.idx + 1 }, results := s.results ++ [.message none] }) ∧
    (∀ (h0 h1 i0 i1 : Byte) (p : List Byte), s.mf.idx + 1 = s.mf.len → s.mf.buf ++ [b] = h0 :: h1 :: i0 :: i1 :: p →
      s.mf.len = 4 + p.length → exec (.mfFeed b) s = .next { s with
        mf := { s.mf with state := .awaitHeader1, buf := [], idx := 0 }
        results := s.results ++ [.message (some ⟨s.mf.kind, some (i1 ++ i0), p⟩)] })

/-- R293, R244: while `MF.FAULT` is set every `MF_FEED` is refused, and only `MF_RESET`, `SO_TRANSPORT_STOP` and `POWER_ON`
clear it. -/
def Obligations.FramingFaultLatches : Prop :=
  (∀ (s : State) (b : Byte), s.poweredOn = true → s.mf.fault = true → exec (.mfFeed b) s = .refused .framerFaulted) ∧
  ∀ (s t : State) (i : Instr), s.mf.fault = true → exec i s = .next t →
    i ≠ .mfReset → i ≠ .soTransportStop → i ≠ .powerOn → t.mf = s.mf

/-- R247: the bytes of a message with an item identifier and parameters of widths 8, 16 and 32 (values modulo 2^width), of a
message without one, and what is refused. Nothing but the result changes. -/
def Obligations.EncodeMessageLayout : Prop :=
  ∀ (s : State) (kind : Kind) (id : U16) (params : List Param), s.poweredOn = true →
    let body := params.flatMap paramBytes
    let len := 4 + body.length
    let widthsOk := ∀ p ∈ params, p.width = 8 ∨ p.width = 16 ∨ p.width = 32
    (widthsOk → len ≤ s.cfg.maxMsgLen → (len ≤ 8191 ∨ len = 8194) →
      let hdr := kind.toNat * 8192 + (if len = 8194 then 0 else len)
      exec (.mfEncode kind (some id) params) s = .next { s with
        results := s.results ++ [.bytes ([BitVec.ofNat 8 hdr, BitVec.ofNat 8 (hdr / 256), id.setWidth 8,
          (id >>> 8).setWidth 8] ++ body)] }) ∧
    (2 ≤ s.cfg.maxMsgLen → exec (.mfEncode kind none []) s = .next { s with
      results := s.results ++ [.bytes [0x02#8, BitVec.ofNat 8 (kind.toNat * 32)]] }) ∧
    (params ≠ [] → exec (.mfEncode kind none params) s = .refused .unencodable) ∧
    (¬ widthsOk ∨ len = 8192 ∨ len = 8193 ∨ len > 8194 ∨ len > s.cfg.maxMsgLen →
      exec (.mfEncode kind (some id) params) s = .refused .unencodable) ∧
    (∀ p : Param, (p.width = 8 → paramBytes p = [BitVec.ofInt 8 p.value]) ∧
      (p.width = 16 → paramBytes p = [BitVec.ofInt 8 p.value, BitVec.ofInt 8 (p.value / 256)]) ∧
      (p.width = 32 → paramBytes p = [BitVec.ofInt 8 p.value, BitVec.ofInt 8 (p.value / 256),
        BitVec.ofInt 8 (p.value / 65536), BitVec.ofInt 8 (p.value / 16777216)]))

/-- R248 (b): whatever `MF_ENCODE` accepts, feeding its bytes to a framer in `AwaitHeader1` without fault gives nothing for
every byte but the last, for the last the message with the same kind, item and parameter bytes, and leaves the framer in
`AwaitHeader1`; nothing else changes. -/
def Obligations.FramerInvertsEncoder : Prop :=
  ∀ (s : State) (kind : Kind) (item : Option U16) (params : List Param) (bytes : List Byte),
    s.poweredOn = true → s.mf.state = .awaitHeader1 → s.mf.fault = false →
    exec (.mfEncode kind item params) s = .next { s with results := s.results ++ [.bytes bytes] } →
      ∃ m : Mf, runOps (bytes.map .mfFeed) s = .next { s with
          mf := m
          results := s.results ++ List.replicate (bytes.length - 1) (.message none) ++
            [.message (some ⟨kind, item, params.flatMap paramBytes⟩)] } ∧
        m.state = .awaitHeader1 ∧ m.fault = false

/-- R248 (c): the concatenation of any number of encoded messages decodes to the same messages in order. -/
def Obligations.FramerDecodesAStreamInOrder : Prop :=
  ∀ (s : State) (ms : List (Kind × Option U16 × List Param)) (bytes : List (List Byte)),
    s.poweredOn = true → s.mf.state = .awaitHeader1 → s.mf.fault = false →
    ms.map (fun m => encodeMessage s.cfg.maxMsgLen m.1 m.2.1 m.2.2) = bytes.map .ok →
      ∃ (m : Mf) (rs : List Result), runOps (bytes.flatten.map .mfFeed) s = .next { s with
          mf := m, results := s.results ++ rs } ∧
        rs.filterMap Result.message? = ms.map (fun m => ⟨m.1, m.2.1, m.2.2.flatMap paramBytes⟩) ∧
        m.state = .awaitHeader1

/-! ### Stream orchestrator -/

/-- R261, R262, R280, R281 (a): `SO_START`, `SO_STOP` and `SO_DEVICE_FAIL` complete and leave both ADPCM instances (W kept),
both converter paths and the jitter buffer (counters kept) in their reset state, the staging registers and the queue empty
and the receive mode `NoAudio`; SO.RUNNING is true after the first and false after the others; `SO_DEVICE_FAIL` raises
`StopStreaming`; everything else is kept. -/
def Obligations.StartStopResetTheStreams : Prop :=
  ∀ s : State, s.poweredOn = true →
    let after (running : Bool) (log : List Event) : State :=
      { s with
        adpRx := ⟨s.adpRx.w, 0, 0, ⟨0, 0, 0, 0, 0, 0⟩, ⟨32, 32, 32, 32, 32, 32⟩, 32, 32, 34816, 544, 0, 0, 0, 0, 0, 0⟩
        adpTx := ⟨s.adpTx.w, 0, 0, ⟨0, 0, 0, 0, 0, 0⟩, ⟨32, 32, 32, 32, 32, 32⟩, 32, 32, 34816, 544, 0, 0, 0, 0, 0, 0⟩
        rcUp := ⟨List.replicate ((s.cfg.h2.length + 1) / 2) 0, List.replicate ((s.cfg.h3.length + 2) / 3) 0⟩
        rcDn := ⟨List.replicate s.cfg.h2.length 0, List.replicate s.cfg.h3.length 0, 0, 0⟩
        jb := ⟨List.replicate s.cfg.capacity 0, 0, 0, 0, true, 0, 0, 0, s.jb.underruns, s.jb.overruns⟩
        so := { s.so with running := running, rxMode := .noAudio, stage := ⟨[], 0, 0⟩, txq := [] }
        log := log
        results := s.results ++ [.unit] }
    exec .soStart s = .next (after true s.log) ∧ exec .soStop s = .next (after false s.log) ∧
    exec .soDeviceFail s = .next (after false (s.log ++ [.stopStreaming]))

/-- R263 to R265: a message that `AUDIO_SEL` selects has the effect of `SO_RX_AUDIO` with its payload and gives none, and
that completes where the widths agree with the modes; any other, one without item identifier among them, is passed through
unchanged and changes nothing else. -/
def Obligations.DispatchRoutesByKindAndItem : Prop :=
  ∀ (s : State) (m : FramedMessage), s.poweredOn = true →
    (selects s.cfg.audioSel m.kind m.itemId = false → exec (.soDispatch m) s = .next { s with
      results := s.results ++ [.message (some m)] }) ∧
    (m.itemId = none → exec (.soDispatch m) s = .next { s with results := s.results ++ [.message (some m)] }) ∧
    (selects s.cfg.audioSel m.kind m.itemId = true → s.ModesAgree →
      ∃ t : State, exec (.soRxAudio m.payload) s = .next t ∧ t.results = s.results ++ [.unit] ∧
        exec (.soDispatch m) s = .next { t with results := s.results ++ [.message none] })

/-- R266: an audio packet while not running changes nothing and raises nothing; one shorter than 3 bytes raises `BadPacket`
with its length; one whose mode byte names no mode raises `BadMode` with the byte; a dropped packet changes nothing but
EVT.LOG and the result. -/
def Obligations.BadAudioPacketsAreDropped : Prop :=
  ∀ (s : State) (p : List Byte), s.poweredOn = true →
    (s.so.running = false → exec (.soRxAudio p) s = .next { s with results := s.results ++ [.unit] }) ∧
    (s.so.running = true → p.length < 3 → exec (.soRxAudio p) s = .next { s with
      log := s.log ++ [.badPacket p.length], results := s.results ++ [.unit] }) ∧
    (∀ (m0 m1 mb : Byte) (data : List Byte), s.so.running = true → p = m0 :: m1 :: mb :: data →
      (∀ m, s.cfg.modeCode.get m ≠ mb) → exec (.soRxAudio p) s = .next { s with
        log := s.log ++ [.badMode mb], results := s.results ++ [.unit] })

/-- R266 to R269: an audio packet of a mode other than `NoAudio` completes. SO.METER takes its first two bytes; a change of mode
resets `ADP[rx]`, sets its width and SO.RX_MODE; the samples are a count of zeros where the data is two bytes long, else
the data decoded by mode; they go through `INTERP6` and `JB_PUSH`. Nothing else changes. -/
def Obligations.AudioPacketIsDecodedAndPlayed : Prop :=
  ∀ (s : State) (m0 m1 : Byte) (m : Mode) (data : List Byte), s.poweredOn = true → s.so.running = true →
    s.ModesAgree → modeCodeOk s.cfg.modeCode → m ≠ .noAudio →
    let width := (modeWidth m).getD s.adpRx.w
    let s1 : State := { s with
      so := { s.so with meter := m1 ++ m0, rxMode := m }
      adpRx := if m = s.so.rxMode then s.adpRx else Adp.idle width }
    ∃ (a : Adp) (pcm : List Sample) (u : RcUp) (y : List Sample) (j : Jb) (es : List Event),
      (data.length = 2 → a = s1.adpRx ∧ pcm = List.replicate (memRead data 0 2) 0) ∧
      (data.length ≠ 2 → m = .raw16 → a = s1.adpRx ∧ pcm.length = data.length / 2 ∧
        ∀ (k : Nat) (v : Sample), pcm[k]? = some v → v = ((data.getD (2 * k + 1) 0 ++ data.getD (2 * k) 0 : BitVec (8 + 8)) : Sample)) ∧
      (data.length ≠ 2 → m = .uLaw → a = s1.adpRx ∧
        exec (.ulawDecBuf data) s1 = .next { s1 with results := s1.results ++ [.samples pcm] }) ∧
      (data.length ≠ 2 → ∀ w, modeWidth m = some w →
        exec (.adpcmDecBuf .rx data 0 (8 * data.length / w.bits : Nat)) s1 = .next { s1 with
          adpRx := a, results := s1.results ++ [.samples pcm] }) ∧
      exec (.interp6 pcm) s1 = .next { s1 with rcUp := u, results := s1.results ++ [.samples y] } ∧
      exec (.jbPush y) s1 = .next { s1 with jb := j, log := s1.log ++ es, results := s1.results ++ [.unit] } ∧
      exec (.soRxAudio (m0 :: m1 :: s.cfg.modeCode.get m :: data)) s = .next { s1 with
        adpRx := a, rcUp := u, jb := j, log := s1.log ++ es, results := s1.results ++ [.unit] }

/-- R266, R267: a packet of mode `NoAudio` updates the meter and the mode (with its reset, where it is a change) and nothing
else; its data is ignored. -/
def Obligations.NoAudioPacketPushesNothing : Prop :=
  ∀ (s : State) (m0 m1 : Byte) (data : List Byte), s.poweredOn = true → s.so.running = true →
    exec (.soRxAudio (m0 :: m1 :: s.cfg.modeCode.noAudio :: data)) s = .next { s with
      so := { s.so with meter := m1 ++ m0, rxMode := .noAudio }
      adpRx := if s.so.rxMode = .noAudio then s.adpRx else Adp.idle s.adpRx.w
      results := s.results ++ [.unit] }

/-- R267: after a change of mode nothing depends on the registers `ADP[rx]` had before it (but `W` in the modes that leave
it unchanged, R103): two blocks that differ in nothing else answer alike. -/
def Obligations.ModeSwitchForgetsThePredictor : Prop :=
  ∀ (s : State) (a a' : Adp) (p : List Byte) (m : Mode), s.so.running = true → 3 ≤ p.length →
    s.cfg.modeOf (audMode p) = some m → m ≠ s.so.rxMode → (modeWidth m = none → a.w = a'.w) →
      exec (.soRxAudio p) { s with adpRx := a } = exec (.soRxAudio p) { s with adpRx := a' }

/-- R271: setting the capture mode it already has does nothing; another mode resets `ADP[tx]`, sets its width for an ADPCM
rate, discards the partly built packet and keeps the complete ones. -/
def Obligations.SetTxModeDiscardsThePartialPacket : Prop :=
  ∀ (s : State) (m : Mode), s.poweredOn = true →
    (m = s.so.txMode → exec (.soSetTxMode m) s = .next { s with results := s.results ++ [.unit] }) ∧
    (m ≠ s.so.txMode → exec (.soSetTxMode m) s = .next { s with
      adpTx := Adp.idle ((modeWidth m).getD s.adpTx.w)
      so := { s.so with txMode := m, stage := ⟨[], 0, 0⟩ }
      results := s.results ++ [.unit] })

/-- R277, R274, R272: a captured block of a multiple of 6 samples completes; while not running or in mode `NoAudio` it is dropped
and RC.dn is not advanced; else it is decimated, every 8 kHz sample is staged, and a packet is queued behind the others each
time the count reaches `TX_MAX`. Another length is refused. What is staged: six samples give one, staged by mode (two bytes low
first; the byte of `ULAW_ENC`; `ADPCM_ENC_BUF` at SO.STAGE_BITS), and a full stage becomes the bytes of `MF_ENCODE` with
SO.TX_METER, the byte of the mode and the staged bytes. A longer block does what its parts do one after another, and an empty
one nothing. -/
def Obligations.TransmitBlockStagesAndQueues : Prop :=
  ∀ (s : State) (x : List Sample), s.poweredOn = true →
    (x.length % 6 ≠ 0 → exec (.soTxBlock x) s = .refused .badLength) ∧
    (x.length % 6 = 0 → s.so.running = false ∨ s.so.txMode = .noAudio →
      exec (.soTxBlock x) s = .next { s with results := s.results ++ [.unit] }) ∧
    (x.length % 6 = 0 → s.so.running = true → s.so.txMode ≠ .noAudio → s.Inv → s.ModesAgree →
      ∃ (a : Adp) (d : RcDn) (pcm : List Sample) (st : Stage) (new : List (List Byte)),
        exec (.decim6 x) s = .next { s with rcDn := d, results := s.results ++ [.samples pcm] } ∧
        exec (.soTxBlock x) s = .next { s with
          adpTx := a, rcDn := d, so := { s.so with stage := st, txq := s.so.txq ++ new }, results := s.results ++ [.unit] } ∧
        s.so.stage.count + pcm.length = st.count + s.cfg.txMax.get s.so.txMode * new.length ∧
        st.count < s.cfg.txMax.get s.so.txMode ∧
        ∀ p ∈ new, p.length = 7 + (s.cfg.txMax.get s.so.txMode * payloadBits s.so.txMode + 7) / 8) ∧
    (x.length = 6 → s.so.running = true → s.so.txMode ≠ .noAudio → s.Inv → s.ModesAgree →
      ∃ (d : RcDn) (v : Sample) (a : Adp) (bytes : List Byte) (bits : Nat),
        exec (.decim6 x) s = .next { s with rcDn := d, results := s.results ++ [.samples [v]] } ∧
        (s.so.txMode = .raw16 → a = s.adpTx ∧ bits = s.so.stage.bits + 16 ∧
          bytes = s.so.stage.bytes ++ [v.setWidth 8, (v >>> 8).setWidth 8]) ∧
        (s.so.txMode = .uLaw → a = s.adpTx ∧ bits = s.so.stage.bits + 8 ∧ ∃ c : Byte, bytes = s.so.stage.bytes ++ [c] ∧
          exec (.ulawEnc v) s = .next { s with results := s.results ++ [.byte c] }) ∧
        (∀ w, modeWidth s.so.txMode = some w →
          exec (.adpcmEncBuf .tx [v] s.so.stage.bytes s.so.stage.bits) s = .next { s with
            adpTx := a, results := s.results ++ [.packed bytes bits] }) ∧
        (s.so.stage.count + 1 ≠ s.cfg.txMax.get s.so.txMode → exec (.soTxBlock x) s = .next { s with
          adpTx := a, rcDn := d, so := { s.so with stage := ⟨bytes, bits, s.so.stage.count + 1⟩ }
          results := s.results ++ [.unit] }) ∧
        (s.so.stage.count + 1 = s.cfg.txMax.get s.so.txMode → ∃ p : List Byte,
          exec (.mfEncode s.cfg.audioTxKind (some s.cfg.audioTxItem)
              ((s.so.txMeter.setWidth 8 :: (s.so.txMeter >>> 8).setWidth 8 :: s.cfg.modeCode.get s.so.txMode :: bytes).map
                fun b => ⟨8, b.toNat⟩)) s = .next { s with results := s.results ++ [.bytes p] } ∧
          exec (.soTxBlock x) s = .next { s with
            adpTx := a, rcDn := d, so := { s.so with stage := ⟨[], 0, 0⟩, txq := s.so.txq ++ [p] }
            results := s.results ++ [.unit] })) ∧
    (∀ y : List Sample, x.length % 6 = 0 → y.length % 6 = 0 → s.Inv → s.ModesAgree → ∃ t u : State,
      exec (.soTxBlock x) s = .next t ∧ exec (.soTxBlock y) t = .next u ∧
      exec (.soTxBlock (x ++ y)) s = .next { u with results := s.results ++ [.unit] }) ∧
    exec (.soTxBlock []) s = .next { s with results := s.results ++ [.unit] }

/-- R270, R278, R279: splitting a video payload changes nothing and refuses an empty one; draining returns the packets oldest
first and empties the queue; stopping the transport resets the framer and empties the queue. -/
def Obligations.VideoDrainAndTransportStop : Prop :=
  ∀ s : State, s.poweredOn = true →
    (∀ (b : Byte) (d : List Byte), exec (.soRxVideo (b :: d)) s = .next { s with
      results := s.results ++ [.video b d] }) ∧
    exec (.soRxVideo []) s = .refused .emptyPayload ∧
    exec .soTxDrain s = .next { s with so := { s.so with txq := [] }, results := s.results ++ [.packets s.so.txq] } ∧
    exec .soTransportStop s = .next { s with
      mf := ⟨.awaitHeader1, 0, 2, 0, 0, [], false⟩
      so := { s.so with txq := [] }
      results := s.results ++ [.unit] }

/-- R281 (c): every packet waiting for the transport, fed to a framer of the same parameters, yields one message, with
`AUDIO_TX`'s kind and item and a payload of format `AUD`: the meter 0, the byte of a mode, the data. -/
def Obligations.QueuedPacketsAreAudioMessages : Prop :=
  ∀ (s t : State) (p : List Byte), s.Inv → p ∈ s.so.txq → t.cfg = s.cfg → t.poweredOn = true →
    t.mf.state = .awaitHeader1 → t.mf.fault = false →
    ∃ (u : State) (rs : List Result) (m : Mode) (data : List Byte), runOps (p.map .mfFeed) t = .next u ∧
      u.results = t.results ++ rs ∧
      rs.filterMap Result.message? = [⟨s.cfg.audioTxKind, some s.cfg.audioTxItem,
        0#8 :: 0#8 :: s.cfg.modeCode.get m :: data⟩]

/-! ### The whole machine -/

/-- Every step keeps the invariant: the admissible parameters, the ADPCM ranges (R26, R28, R178), the queue lengths and phases
(R30, R207), the ring's form (R227), the framer's (R248 (d)), the staging registers' (R36), the queued packets' (R281 (c))
and the counters' agreement with the log (R227 (f)). -/
def Obligations.StepKeepsTheInvariant : Prop :=
  ∀ s t : State, s.Inv → step s = .next t → t.Inv

/-- The state after reset has the invariant and its modes agree; no width counts as used in it (`State.widthUse`, a field of
the model's own with a reset value of the model's choice: log entry 16), and each mode is `NoAudio`, as the second clause of
StepKeepsModesAgreeing asks of a width that the orchestrator has not used (`State.WidthsDisciplined`); and R320, R46: from
any register contents at all, `POWER_ON` establishes the invariant and the agreement for admissible parameters. -/
def Obligations.ResetHasTheInvariant : Prop :=
  State.reset.Inv ∧ State.reset.ModesAgree ∧ State.reset.widthUse = ⟨.unused, .unused⟩ ∧ State.reset.WidthsDisciplined ∧
  ∀ s : State, s.cfg.Admissible → ∃ t : State, exec .powerOn s = .next t ∧ t.Inv ∧ t.ModesAgree

/-- First clause, R281 (b) and R272: every step but a direct `ADPCM_SETW` keeps the widths in agreement with the modes, and the
staged bits with the staged count. Second clause, the model's (log entry 16, DEDUCED): it rests on the model's own field
`State.widthUse` and on the step's refusal of a mixed run, which R305 forbids without saying what becomes of it. In a state where
a mode is `NoAudio` unless the orchestrator has used the instance, every step, a direct `ADPCM_SETW` included, keeps the
agreement, and keeps that too. -/
def Obligations.StepKeepsModesAgreeing : Prop :=
  (∀ s t : State, s.ModesAgree → step s = .next t → (∀ i w, s.nextOp ≠ some (.adpcmSetw i w)) → t.ModesAgree) ∧
  (∀ s t : State, s.ModesAgree → s.WidthsDisciplined → step s = .next t → t.ModesAgree ∧ t.WidthsDisciplined)

/-- R305, R260: the code widths and the two modes are written only by `POWER_ON`, `SO_START`, `SO_STOP`, `SO_DEVICE_FAIL`,
`SO_RX_AUDIO` (and `SO_DISPATCH`, which issues it), `SO_SET_TX_MODE`, and the width by a direct `ADPCM_SETW`. Second clause, the
model's (log entry 16, DEDUCED: R305 forbids the mixing and does not say what becomes of it): after an SO operation on an instance
a direct `ADPCM_SETW` of it is refused, and after that the others; each is noted in `State.widthUse`, which `POWER_ON`
clears. -/
def Obligations.OnlyTheOrchestratorChangesModes : Prop :=
  (∀ (s t : State) (i : Instr), exec i s = .next t →
    (match i with
      | .powerOn => False
      | .soStart => False
      | .soStop => False
      | .soDeviceFail => False
      | .soRxAudio _ => False
      | .soDispatch _ => False
      | .soSetTxMode _ => False
      | .adpcmSetw _ _ => False
      | _ => True) →
    t.adpRx.w = s.adpRx.w ∧ t.adpTx.w = s.adpTx.w ∧ t.so.rxMode = s.so.rxMode ∧ t.so.txMode = s.so.txMode) ∧
  (∀ (s : State) (q : Request) (rest : List Request) (i : Instr) (d : Dir),
    s.pending = q :: rest → decode q.bytes = .ok i → permitted q.agent i = true →
    let direct := ∃ w, i = .adpcmSetw d w
    let orchestrator := i = .soStart ∨ i = .soStop ∨ i = .soDeviceFail ∨
      (d = .rx ∧ ((∃ p, i = .soRxAudio p) ∨ ∃ m, i = .soDispatch m ∧ selects s.cfg.audioSel m.kind m.itemId = true)) ∨
      (d = .tx ∧ ((∃ m, i = .soSetTxMode m) ∨ ∃ x, i = .soTxBlock x))
    (direct → s.widthUse.of d = .orchestrated → step s = .refused .mixedWidthUse) ∧
    (orchestrator → s.widthUse.of d = .direct → step s = .refused .mixedWidthUse) ∧
    ((∀ d, s.widthUse.of d = .unused) → s.widthUse.mixedBy s.cfg i = false) ∧
    (∀ t, step s = .next t →
      (i = .powerOn → t.widthUse.of d = .unused) ∧ (direct → t.widthUse.of d = .direct) ∧
      (orchestrator → t.widthUse.of d = .orchestrated) ∧
      (i ≠ .powerOn → ¬ direct → ¬ orchestrator → t.widthUse.of d = s.widthUse.of d)))

/-- R320, R37, R78: no operation changes the parameters; no operation but `POWER_ON` removes an entry of EVT.LOG or lowers a
statistics counter; and once on, the block stays on. -/
def Obligations.LogAndCountersOnlyGrow : Prop :=
  ∀ (s t : State) (i : Instr), exec i s = .next t →
    t.cfg = s.cfg ∧ t.poweredOn = true ∧
    (i ≠ .powerOn → s.log <+: t.log ∧ s.jb.underruns ≤ t.jb.underruns ∧ s.jb.overruns ≤ t.jb.overruns)

/-- R290, R299: the events an operation raises, by operation: `JB_PULL` only `Underrun`, `JB_PUSH` only `Overrun`, `MF_FEED` at
most one `FramingViolation`, `SO_RX_AUDIO` and `SO_DISPATCH` either one `BadPacket` or `BadMode` or only `Overrun`,
`SO_DEVICE_FAIL` one `StopStreaming`, every other operation but `POWER_ON` none. -/
def Obligations.EventsByOperation : Prop :=
  ∀ (s t : State) (i : Instr), exec i s = .next t → i ≠ .powerOn →
    ∃ es : List Event, t.log = s.log ++ es ∧
      (match i with
        | .jbPull _ => ∀ e ∈ es, e = .underrun
        | .jbPush _ => ∀ e ∈ es, e = .overrun
        | .mfFeed _ => es = [] ∨ ∃ n, es = [.framingViolation n]
        | .soRxAudio p => es = [.badPacket p.length] ∨ (∃ b, es = [.badMode b]) ∨ ∀ e ∈ es, e = .overrun
        | .soDispatch m => es = [.badPacket m.payload.length] ∨ (∃ b, es = [.badMode b]) ∨ ∀ e ∈ es, e = .overrun
        | .soDeviceFail => es = [.stopStreaming]
        | _ => es = [])
end

