-- ==== Sys2Proof/Laws/Bits.lean ====
section
/-! SUPPORT. Bit strings: what packing and reading back give, bit by bit (R60, R62). -/

namespace Sys2Proof.Machine

@[simp] theorem byteBits_length (b : Byte) : (byteBits b).length = 8 := by simp [byteBits]

@[simp] theorem streamBits_nil : streamBits [] = [] := rfl

@[simp] theorem streamBits_cons (b : Byte) (r : List Byte) : streamBits (b :: r) = byteBits b ++ streamBits r := by
  simp [streamBits]

@[simp] theorem streamBits_length (b : List Byte) : (streamBits b).length = 8 * b.length := by
  induction b with
  | nil => rfl
  | cons a b ih => simp [ih]; omega

theorem byteBits_getElem? (b : Byte) (k : Nat) (h : k < 8) : (byteBits b)[k]? = some (b.getLsbD k) := by
  simp [byteBits, h]

/-- `streamBits` lists the stream bits of R62. -/
theorem streamBits_getElem? (b : List Byte) (p : Nat) (h : p < 8 * b.length) :
    (streamBits b)[p]? = some (streamBit b p) := by
  induction b generalizing p with
  | nil => simp at h
  | cons a b ih =>
    rw [streamBits_cons]
    by_cases hp : p < 8
    · rw [List.getElem?_append_left (by simpa using hp), byteBits_getElem? _ _ hp]
      simp [streamBit, Nat.div_eq_of_lt hp, Nat.mod_eq_of_lt hp]
    · obtain ⟨q, rfl⟩ : ∃ q, p = q + 8 := ⟨p - 8, by omega⟩
      simp only [List.length_cons] at h
      rw [List.getElem?_append_right (by simp), byteBits_length, Nat.add_sub_cancel, ih q (by omega)]
      simp [streamBit]

theorem streamBit_of_le (b : List Byte) (p : Nat) (h : 8 * b.length ≤ p) : streamBit b p = false := by
  have : b.length ≤ p / 8 := by omega
  simp [streamBit, List.getD_eq_getElem?_getD, List.getElem?_eq_none this]

theorem streamBit_eq_getD (b : List Byte) (p : Nat) : streamBit b p = (streamBits b).getD p false := by
  by_cases h : p < 8 * b.length
  · rw [List.getD_eq_getElem?_getD, streamBits_getElem? b p h]; rfl
  · rw [streamBit_of_le b p (by omega), List.getD_eq_getElem?_getD, List.getElem?_eq_none (by simp; omega)]; rfl

@[simp] theorem natBits_length (w v : Nat) : (natBits w v).length = w := by simp [natBits]

theorem natBits_getElem? (w v k : Nat) (h : k < w) : (natBits w v)[k]? = some (v.testBit k) := by
  simp [natBits, h]

theorem bitsNat_testBit (l : List Bool) (k : Nat) : (bitsNat l).testBit k = l.getD k false := by
  induction l generalizing k with
  | nil => simp [bitsNat]
  | cons b l ih =>
    cases k with
    | zero =>
      simp only [bitsNat, Nat.testBit_zero, List.getD_cons_zero]
      cases b <;> simp [Nat.add_mod]
    | succ k =>
      rw [Nat.testBit_succ, List.getD_cons_succ, ← ih]
      congr 1
      simp only [bitsNat]
      cases b with
      | false => simp
      | true => simp; omega

theorem bitsNat_lt (l : List Bool) : bitsNat l < 2 ^ l.length := by
  induction l with
  | nil => simp [bitsNat]
  | cons b l ih =>
    simp only [bitsNat, List.length_cons, Nat.pow_succ]
    cases b <;> simp <;> omega

/-- Reading back the low bits of a number. -/
theorem bitsNat_natBits (w v : Nat) : bitsNat (natBits w v) = v % 2 ^ w := by
  apply Nat.eq_of_testBit_eq
  intro k
  rw [bitsNat_testBit, Nat.testBit_mod_two_pow, List.getD_eq_getElem?_getD]
  by_cases h : k < w
  · rw [natBits_getElem? w v k h]; simp [h]
  · rw [List.getElem?_eq_none (by simp; omega)]; simp [h]

@[simp] theorem packBits_length (l : List Bool) : (packBits l).length = (l.length + 7) / 8 := by simp [packBits]

/-- The stream bits of packed bits are those bits, then zeros (R62, R175). -/
theorem streamBit_packBits (l : List Bool) (p : Nat) : streamBit (packBits l) p = l.getD p false := by
  by_cases h : p / 8 < (l.length + 7) / 8
  · have hb : (packBits l).getD (p / 8) 0 = BitVec.ofNat 8 (bitsNat ((l.drop (8 * (p / 8))).take 8)) := by
      simp [packBits, List.getD_eq_getElem?_getD, h]
    have h8 : p % 8 < 8 := Nat.mod_lt _ (by decide)
    rw [streamBit, hb, BitVec.getLsbD_ofNat, bitsNat_testBit]
    simp only [h8, decide_true, Bool.true_and, List.getD_eq_getElem?_getD]
    rw [List.getElem?_take_of_lt h8, List.getElem?_drop]
    congr 3
    omega
  · rw [streamBit_of_le _ _ (by simp; omega), List.getD_eq_getElem?_getD, List.getElem?_eq_none (by omega)]
    rfl

/-- The code at a place of the stream is the number whose bits stand there (R105 (f)). -/
theorem codeAt_testBit (b : List Byte) (p w j : Nat) :
    (codeAt b p w).testBit j = (decide (j < w) && streamBit b (p + j)) := by
  rw [codeAt, bitsNat_testBit, List.getD_eq_getElem?_getD, streamBit_eq_getD, List.getD_eq_getElem?_getD]
  by_cases h : j < w
  · rw [List.getElem?_take_of_lt h, List.getElem?_drop]; simp [h]
  · rw [List.getElem?_eq_none (by simp; omega)]; simp [h]

theorem codeAt_lt (b : List Byte) (p w : Nat) : codeAt b p w < 2 ^ w := by
  refine Nat.lt_of_lt_of_le (bitsNat_lt _) (Nat.pow_le_pow_right (by decide) ?_)
  simp

/-- Concatenated codes stand one after another. -/
theorem flatMap_natBits_getD (w : Nat) (codes : List Nat) (k j : Nat) (hj : j < w) :
    (codes.flatMap (natBits w)).getD (w * k + j) false = (codes.getD k 0).testBit j := by
  induction codes generalizing k with
  | nil => simp
  | cons c codes ih =>
    rw [List.flatMap_cons]
    cases k with
    | zero =>
      rw [List.getD_eq_getElem?_getD, List.getElem?_append_left (by simpa using hj), Nat.mul_zero, Nat.zero_add,
        natBits_getElem? w c j hj]
      rfl
    | succ k =>
      rw [List.getD_eq_getElem?_getD, List.getElem?_append_right (by simp [Nat.mul_succ]; omega), natBits_length,
        show w * (k + 1) + j - w = w * k + j by rw [Nat.mul_succ]; omega, ← List.getD_eq_getElem?_getD, ih]
      rfl

theorem flatMap_natBits_length (w : Nat) (codes : List Nat) : (codes.flatMap (natBits w)).length = w * codes.length := by
  induction codes with
  | nil => simp
  | cons c codes ih => simp [ih, Nat.mul_succ]; omega

/-! ### Byte order (R60) -/

@[simp] theorem leBytes_length (n v : Nat) : (leBytes n v).length = n := by
  induction n generalizing v with
  | zero => rfl
  | succ n ih => simp [leBytes, ih]

/-- Reading what was written, least significant byte first, gives the value modulo its size. -/
theorem memRead_leBytes (n v : Nat) (r : List Byte) : memRead (leBytes n v ++ r) 0 n = v % 256 ^ n := by
  have key : ∀ (n v i : Nat) (p r : List Byte), p.length = i → memRead (p ++ leBytes n v ++ r) i n = v % 256 ^ n := by
    intro n
    induction n with
    | zero => intro v i p r _; simp [memRead, Nat.mod_one]
    | succ n ih =>
      intro v i p r h
      have h1 : (p ++ leBytes (n + 1) v ++ r).getD i 0 = BitVec.ofNat 8 v := by
        simp [leBytes, List.getD_eq_getElem?_getD, h]
      have h2 := ih (v / 256) (i + 1) (p ++ [BitVec.ofNat 8 v]) r (by simp [h])
      simp only [memRead, h1]
      rw [show p ++ leBytes (n + 1) v ++ r = p ++ [BitVec.ofNat 8 v] ++ leBytes n (v / 256) ++ r by simp [leBytes], h2,
        Nat.pow_succ', Nat.mod_mul]
      simp
  simpa using key n v 0 [] r rfl

end Sys2Proof.Machine
end

