-- ==== Sys2Proof/Laws/State.lean ====
section
/-! SUPPORT. One lemma per field per update of the state: later proofs unfold no record update. -/

namespace Sys2Proof.Machine

variable (s : State)

/-! ### `State.raise` -/

@[simp] theorem State.raise_cfg (e : Event) : (s.raise e).cfg = s.cfg := rfl
@[simp] theorem State.raise_poweredOn (e : Event) : (s.raise e).poweredOn = s.poweredOn := rfl
@[simp] theorem State.raise_widthUse (e : Event) : (s.raise e).widthUse = s.widthUse := rfl
@[simp] theorem State.raise_adpRx (e : Event) : (s.raise e).adpRx = s.adpRx := rfl
@[simp] theorem State.raise_adpTx (e : Event) : (s.raise e).adpTx = s.adpTx := rfl
@[simp] theorem State.raise_rcUp (e : Event) : (s.raise e).rcUp = s.rcUp := rfl
@[simp] theorem State.raise_rcDn (e : Event) : (s.raise e).rcDn = s.rcDn := rfl
@[simp] theorem State.raise_jb (e : Event) : (s.raise e).jb = s.jb := rfl
@[simp] theorem State.raise_mf (e : Event) : (s.raise e).mf = s.mf := rfl
@[simp] theorem State.raise_so (e : Event) : (s.raise e).so = s.so := rfl
@[simp] theorem State.raise_log (e : Event) : (s.raise e).log = s.log ++ [e] := rfl
@[simp] theorem State.raise_pending (e : Event) : (s.raise e).pending = s.pending := rfl
@[simp] theorem State.raise_results (e : Event) : (s.raise e).results = s.results := rfl

/-! ### `State.raiseAll` -/

@[simp] theorem State.raiseAll_cfg (es : List Event) : (s.raiseAll es).cfg = s.cfg := rfl
@[simp] theorem State.raiseAll_poweredOn (es : List Event) : (s.raiseAll es).poweredOn = s.poweredOn := rfl
@[simp] theorem State.raiseAll_widthUse (es : List Event) : (s.raiseAll es).widthUse = s.widthUse := rfl
@[simp] theorem State.raiseAll_adpRx (es : List Event) : (s.raiseAll es).adpRx = s.adpRx := rfl
@[simp] theorem State.raiseAll_adpTx (es : List Event) : (s.raiseAll es).adpTx = s.adpTx := rfl
@[simp] theorem State.raiseAll_rcUp (es : List Event) : (s.raiseAll es).rcUp = s.rcUp := rfl
@[simp] theorem State.raiseAll_rcDn (es : List Event) : (s.raiseAll es).rcDn = s.rcDn := rfl
@[simp] theorem State.raiseAll_jb (es : List Event) : (s.raiseAll es).jb = s.jb := rfl
@[simp] theorem State.raiseAll_mf (es : List Event) : (s.raiseAll es).mf = s.mf := rfl
@[simp] theorem State.raiseAll_so (es : List Event) : (s.raiseAll es).so = s.so := rfl
@[simp] theorem State.raiseAll_log (es : List Event) : (s.raiseAll es).log = s.log ++ es := rfl
@[simp] theorem State.raiseAll_pending (es : List Event) : (s.raiseAll es).pending = s.pending := rfl
@[simp] theorem State.raiseAll_results (es : List Event) : (s.raiseAll es).results = s.results := rfl

/-! ### `State.give` -/

@[simp] theorem State.give_cfg (r : Result) : (s.give r).cfg = s.cfg := rfl
@[simp] theorem State.give_poweredOn (r : Result) : (s.give r).poweredOn = s.poweredOn := rfl
@[simp] theorem State.give_widthUse (r : Result) : (s.give r).widthUse = s.widthUse := rfl
@[simp] theorem State.give_adpRx (r : Result) : (s.give r).adpRx = s.adpRx := rfl
@[simp] theorem State.give_adpTx (r : Result) : (s.give r).adpTx = s.adpTx := rfl
@[simp] theorem State.give_rcUp (r : Result) : (s.give r).rcUp = s.rcUp := rfl
@[simp] theorem State.give_rcDn (r : Result) : (s.give r).rcDn = s.rcDn := rfl
@[simp] theorem State.give_jb (r : Result) : (s.give r).jb = s.jb := rfl
@[simp] theorem State.give_mf (r : Result) : (s.give r).mf = s.mf := rfl
@[simp] theorem State.give_so (r : Result) : (s.give r).so = s.so := rfl
@[simp] theorem State.give_log (r : Result) : (s.give r).log = s.log := rfl
@[simp] theorem State.give_pending (r : Result) : (s.give r).pending = s.pending := rfl
@[simp] theorem State.give_results (r : Result) : (s.give r).results = s.results ++ [r] := rfl

/-! ### `State.setRcUp` -/

@[simp] theorem State.setRcUp_cfg (u : RcUp) : (s.setRcUp u).cfg = s.cfg := rfl
@[simp] theorem State.setRcUp_poweredOn (u : RcUp) : (s.setRcUp u).poweredOn = s.poweredOn := rfl
@[simp] theorem State.setRcUp_widthUse (u : RcUp) : (s.setRcUp u).widthUse = s.widthUse := rfl
@[simp] theorem State.setRcUp_adpRx (u : RcUp) : (s.setRcUp u).adpRx = s.adpRx := rfl
@[simp] theorem State.setRcUp_adpTx (u : RcUp) : (s.setRcUp u).adpTx = s.adpTx := rfl
@[simp] theorem State.setRcUp_rcUp (u : RcUp) : (s.setRcUp u).rcUp = u := rfl
@[simp] theorem State.setRcUp_rcDn (u : RcUp) : (s.setRcUp u).rcDn = s.rcDn := rfl
@[simp] theorem State.setRcUp_jb (u : RcUp) : (s.setRcUp u).jb = s.jb := rfl
@[simp] theorem State.setRcUp_mf (u : RcUp) : (s.setRcUp u).mf = s.mf := rfl
@[simp] theorem State.setRcUp_so (u : RcUp) : (s.setRcUp u).so = s.so := rfl
@[simp] theorem State.setRcUp_log (u : RcUp) : (s.setRcUp u).log = s.log := rfl
@[simp] theorem State.setRcUp_pending (u : RcUp) : (s.setRcUp u).pending = s.pending := rfl
@[simp] theorem State.setRcUp_results (u : RcUp) : (s.setRcUp u).results = s.results := rfl

/-! ### `State.setRcDn` -/

@[simp] theorem State.setRcDn_cfg (d : RcDn) : (s.setRcDn d).cfg = s.cfg := rfl
@[simp] theorem State.setRcDn_poweredOn (d : RcDn) : (s.setRcDn d).poweredOn = s.poweredOn := rfl
@[simp] theorem State.setRcDn_widthUse (d : RcDn) : (s.setRcDn d).widthUse = s.widthUse := rfl
@[simp] theorem State.setRcDn_adpRx (d : RcDn) : (s.setRcDn d).adpRx = s.adpRx := rfl
@[simp] theorem State.setRcDn_adpTx (d : RcDn) : (s.setRcDn d).adpTx = s.adpTx := rfl
@[simp] theorem State.setRcDn_rcUp (d : RcDn) : (s.setRcDn d).rcUp = s.rcUp := rfl
@[simp] theorem State.setRcDn_rcDn (d : RcDn) : (s.setRcDn d).rcDn = d := rfl
@[simp] theorem State.setRcDn_jb (d : RcDn) : (s.setRcDn d).jb = s.jb := rfl
@[simp] theorem State.setRcDn_mf (d : RcDn) : (s.setRcDn d).mf = s.mf := rfl
@[simp] theorem State.setRcDn_so (d : RcDn) : (s.setRcDn d).so = s.so := rfl
@[simp] theorem State.setRcDn_log (d : RcDn) : (s.setRcDn d).log = s.log := rfl
@[simp] theorem State.setRcDn_pending (d : RcDn) : (s.setRcDn d).pending = s.pending := rfl
@[simp] theorem State.setRcDn_results (d : RcDn) : (s.setRcDn d).results = s.results := rfl

/-! ### `State.setJb` -/

@[simp] theorem State.setJb_cfg (j : Jb) : (s.setJb j).cfg = s.cfg := rfl
@[simp] theorem State.setJb_poweredOn (j : Jb) : (s.setJb j).poweredOn = s.poweredOn := rfl
@[simp] theorem State.setJb_widthUse (j : Jb) : (s.setJb j).widthUse = s.widthUse := rfl
@[simp] theorem State.setJb_adpRx (j : Jb) : (s.setJb j).adpRx = s.adpRx := rfl
@[simp] theorem State.setJb_adpTx (j : Jb) : (s.setJb j).adpTx = s.adpTx := rfl
@[simp] theorem State.setJb_rcUp (j : Jb) : (s.setJb j).rcUp = s.rcUp := rfl
@[simp] theorem State.setJb_rcDn (j : Jb) : (s.setJb j).rcDn = s.rcDn := rfl
@[simp] theorem State.setJb_jb (j : Jb) : (s.setJb j).jb = j := rfl
@[simp] theorem State.setJb_mf (j : Jb) : (s.setJb j).mf = s.mf := rfl
@[simp] theorem State.setJb_so (j : Jb) : (s.setJb j).so = s.so := rfl
@[simp] theorem State.setJb_log (j : Jb) : (s.setJb j).log = s.log := rfl
@[simp] theorem State.setJb_pending (j : Jb) : (s.setJb j).pending = s.pending := rfl
@[simp] theorem State.setJb_results (j : Jb) : (s.setJb j).results = s.results := rfl

/-! ### `State.setMf` -/

@[simp] theorem State.setMf_cfg (m : Mf) : (s.setMf m).cfg = s.cfg := rfl
@[simp] theorem State.setMf_poweredOn (m : Mf) : (s.setMf m).poweredOn = s.poweredOn := rfl
@[simp] theorem State.setMf_widthUse (m : Mf) : (s.setMf m).widthUse = s.widthUse := rfl
@[simp] theorem State.setMf_adpRx (m : Mf) : (s.setMf m).adpRx = s.adpRx := rfl
@[simp] theorem State.setMf_adpTx (m : Mf) : (s.setMf m).adpTx = s.adpTx := rfl
@[simp] theorem State.setMf_rcUp (m : Mf) : (s.setMf m).rcUp = s.rcUp := rfl
@[simp] theorem State.setMf_rcDn (m : Mf) : (s.setMf m).rcDn = s.rcDn := rfl
@[simp] theorem State.setMf_jb (m : Mf) : (s.setMf m).jb = s.jb := rfl
@[simp] theorem State.setMf_mf (m : Mf) : (s.setMf m).mf = m := rfl
@[simp] theorem State.setMf_so (m : Mf) : (s.setMf m).so = s.so := rfl
@[simp] theorem State.setMf_log (m : Mf) : (s.setMf m).log = s.log := rfl
@[simp] theorem State.setMf_pending (m : Mf) : (s.setMf m).pending = s.pending := rfl
@[simp] theorem State.setMf_results (m : Mf) : (s.setMf m).results = s.results := rfl

/-! ### `State.setSo` -/

@[simp] theorem State.setSo_cfg (o : So) : (s.setSo o).cfg = s.cfg := rfl
@[simp] theorem State.setSo_poweredOn (o : So) : (s.setSo o).poweredOn = s.poweredOn := rfl
@[simp] theorem State.setSo_widthUse (o : So) : (s.setSo o).widthUse = s.widthUse := rfl
@[simp] theorem State.setSo_adpRx (o : So) : (s.setSo o).adpRx = s.adpRx := rfl
@[simp] theorem State.setSo_adpTx (o : So) : (s.setSo o).adpTx = s.adpTx := rfl
@[simp] theorem State.setSo_rcUp (o : So) : (s.setSo o).rcUp = s.rcUp := rfl
@[simp] theorem State.setSo_rcDn (o : So) : (s.setSo o).rcDn = s.rcDn := rfl
@[simp] theorem State.setSo_jb (o : So) : (s.setSo o).jb = s.jb := rfl
@[simp] theorem State.setSo_mf (o : So) : (s.setSo o).mf = s.mf := rfl
@[simp] theorem State.setSo_so (o : So) : (s.setSo o).so = o := rfl
@[simp] theorem State.setSo_log (o : So) : (s.setSo o).log = s.log := rfl
@[simp] theorem State.setSo_pending (o : So) : (s.setSo o).pending = s.pending := rfl
@[simp] theorem State.setSo_results (o : So) : (s.setSo o).results = s.results := rfl

/-! ### `State.setPowered` -/

@[simp] theorem State.setPowered_cfg (b : Bool) : (s.setPowered b).cfg = s.cfg := rfl
@[simp] theorem State.setPowered_poweredOn (b : Bool) : (s.setPowered b).poweredOn = b := rfl
@[simp] theorem State.setPowered_widthUse (b : Bool) : (s.setPowered b).widthUse = s.widthUse := rfl
@[simp] theorem State.setPowered_adpRx (b : Bool) : (s.setPowered b).adpRx = s.adpRx := rfl
@[simp] theorem State.setPowered_adpTx (b : Bool) : (s.setPowered b).adpTx = s.adpTx := rfl
@[simp] theorem State.setPowered_rcUp (b : Bool) : (s.setPowered b).rcUp = s.rcUp := rfl
@[simp] theorem State.setPowered_rcDn (b : Bool) : (s.setPowered b).rcDn = s.rcDn := rfl
@[simp] theorem State.setPowered_jb (b : Bool) : (s.setPowered b).jb = s.jb := rfl
@[simp] theorem State.setPowered_mf (b : Bool) : (s.setPowered b).mf = s.mf := rfl
@[simp] theorem State.setPowered_so (b : Bool) : (s.setPowered b).so = s.so := rfl
@[simp] theorem State.setPowered_log (b : Bool) : (s.setPowered b).log = s.log := rfl
@[simp] theorem State.setPowered_pending (b : Bool) : (s.setPowered b).pending = s.pending := rfl
@[simp] theorem State.setPowered_results (b : Bool) : (s.setPowered b).results = s.results := rfl

/-! ### `State.setLog` -/

@[simp] theorem State.setLog_cfg (l : List Event) : (s.setLog l).cfg = s.cfg := rfl
@[simp] theorem State.setLog_poweredOn (l : List Event) : (s.setLog l).poweredOn = s.poweredOn := rfl
@[simp] theorem State.setLog_widthUse (l : List Event) : (s.setLog l).widthUse = s.widthUse := rfl
@[simp] theorem State.setLog_adpRx (l : List Event) : (s.setLog l).adpRx = s.adpRx := rfl
@[simp] theorem State.setLog_adpTx (l : List Event) : (s.setLog l).adpTx = s.adpTx := rfl
@[simp] theorem State.setLog_rcUp (l : List Event) : (s.setLog l).rcUp = s.rcUp := rfl
@[simp] theorem State.setLog_rcDn (l : List Event) : (s.setLog l).rcDn = s.rcDn := rfl
@[simp] theorem State.setLog_jb (l : List Event) : (s.setLog l).jb = s.jb := rfl
@[simp] theorem State.setLog_mf (l : List Event) : (s.setLog l).mf = s.mf := rfl
@[simp] theorem State.setLog_so (l : List Event) : (s.setLog l).so = s.so := rfl
@[simp] theorem State.setLog_log (l : List Event) : (s.setLog l).log = l := rfl
@[simp] theorem State.setLog_pending (l : List Event) : (s.setLog l).pending = s.pending := rfl
@[simp] theorem State.setLog_results (l : List Event) : (s.setLog l).results = s.results := rfl

/-! ### `State.setPending` -/

@[simp] theorem State.setPending_cfg (p : List Request) : (s.setPending p).cfg = s.cfg := rfl
@[simp] theorem State.setPending_poweredOn (p : List Request) : (s.setPending p).poweredOn = s.poweredOn := rfl
@[simp] theorem State.setPending_widthUse (p : List Request) : (s.setPending p).widthUse = s.widthUse := rfl
@[simp] theorem State.setPending_adpRx (p : List Request) : (s.setPending p).adpRx = s.adpRx := rfl
@[simp] theorem State.setPending_adpTx (p : List Request) : (s.setPending p).adpTx = s.adpTx := rfl
@[simp] theorem State.setPending_rcUp (p : List Request) : (s.setPending p).rcUp = s.rcUp := rfl
@[simp] theorem State.setPending_rcDn (p : List Request) : (s.setPending p).rcDn = s.rcDn := rfl
@[simp] theorem State.setPending_jb (p : List Request) : (s.setPending p).jb = s.jb := rfl
@[simp] theorem State.setPending_mf (p : List Request) : (s.setPending p).mf = s.mf := rfl
@[simp] theorem State.setPending_so (p : List Request) : (s.setPending p).so = s.so := rfl
@[simp] theorem State.setPending_log (p : List Request) : (s.setPending p).log = s.log := rfl
@[simp] theorem State.setPending_pending (p : List Request) : (s.setPending p).pending = p := rfl
@[simp] theorem State.setPending_results (p : List Request) : (s.setPending p).results = s.results := rfl

/-! ### `State.setWidthUse` -/

@[simp] theorem State.setWidthUse_cfg (u : WidthUses) : (s.setWidthUse u).cfg = s.cfg := rfl
@[simp] theorem State.setWidthUse_poweredOn (u : WidthUses) : (s.setWidthUse u).poweredOn = s.poweredOn := rfl
@[simp] theorem State.setWidthUse_widthUse (u : WidthUses) : (s.setWidthUse u).widthUse = u := rfl
@[simp] theorem State.setWidthUse_adpRx (u : WidthUses) : (s.setWidthUse u).adpRx = s.adpRx := rfl
@[simp] theorem State.setWidthUse_adpTx (u : WidthUses) : (s.setWidthUse u).adpTx = s.adpTx := rfl
@[simp] theorem State.setWidthUse_rcUp (u : WidthUses) : (s.setWidthUse u).rcUp = s.rcUp := rfl
@[simp] theorem State.setWidthUse_rcDn (u : WidthUses) : (s.setWidthUse u).rcDn = s.rcDn := rfl
@[simp] theorem State.setWidthUse_jb (u : WidthUses) : (s.setWidthUse u).jb = s.jb := rfl
@[simp] theorem State.setWidthUse_mf (u : WidthUses) : (s.setWidthUse u).mf = s.mf := rfl
@[simp] theorem State.setWidthUse_so (u : WidthUses) : (s.setWidthUse u).so = s.so := rfl
@[simp] theorem State.setWidthUse_log (u : WidthUses) : (s.setWidthUse u).log = s.log := rfl
@[simp] theorem State.setWidthUse_pending (u : WidthUses) : (s.setWidthUse u).pending = s.pending := rfl
@[simp] theorem State.setWidthUse_results (u : WidthUses) : (s.setWidthUse u).results = s.results := rfl

/-! ### `State.setAdp .rx` -/

@[simp] theorem State.setAdp_rx_cfg (a : Adp) : (s.setAdp .rx a).cfg = s.cfg := rfl
@[simp] theorem State.setAdp_rx_poweredOn (a : Adp) : (s.setAdp .rx a).poweredOn = s.poweredOn := rfl
@[simp] theorem State.setAdp_rx_widthUse (a : Adp) : (s.setAdp .rx a).widthUse = s.widthUse := rfl
@[simp] theorem State.setAdp_rx_adpRx (a : Adp) : (s.setAdp .rx a).adpRx = a := rfl
@[simp] theorem State.setAdp_rx_adpTx (a : Adp) : (s.setAdp .rx a).adpTx = s.adpTx := rfl
@[simp] theorem State.setAdp_rx_rcUp (a : Adp) : (s.setAdp .rx a).rcUp = s.rcUp := rfl
@[simp] theorem State.setAdp_rx_rcDn (a : Adp) : (s.setAdp .rx a).rcDn = s.rcDn := rfl
@[simp] theorem State.setAdp_rx_jb (a : Adp) : (s.setAdp .rx a).jb = s.jb := rfl
@[simp] theorem State.setAdp_rx_mf (a : Adp) : (s.setAdp .rx a).mf = s.mf := rfl
@[simp] theorem State.setAdp_rx_so (a : Adp) : (s.setAdp .rx a).so = s.so := rfl
@[simp] theorem State.setAdp_rx_log (a : Adp) : (s.setAdp .rx a).log = s.log := rfl
@[simp] theorem State.setAdp_rx_pending (a : Adp) : (s.setAdp .rx a).pending = s.pending := rfl
@[simp] theorem State.setAdp_rx_results (a : Adp) : (s.setAdp .rx a).results = s.results := rfl

/-! ### `State.setAdp .tx` -/

@[simp] theorem State.setAdp_tx_cfg (a : Adp) : (s.setAdp .tx a).cfg = s.cfg := rfl
@[simp] theorem State.setAdp_tx_poweredOn (a : Adp) : (s.setAdp .tx a).poweredOn = s.poweredOn := rfl
@[simp] theorem State.setAdp_tx_widthUse (a : Adp) : (s.setAdp .tx a).widthUse = s.widthUse := rfl
@[simp] theorem State.setAdp_tx_adpRx (a : Adp) : (s.setAdp .tx a).adpRx = s.adpRx := rfl
@[simp] theorem State.setAdp_tx_adpTx (a : Adp) : (s.setAdp .tx a).adpTx = a := rfl
@[simp] theorem State.setAdp_tx_rcUp (a : Adp) : (s.setAdp .tx a).rcUp = s.rcUp := rfl
@[simp] theorem State.setAdp_tx_rcDn (a : Adp) : (s.setAdp .tx a).rcDn = s.rcDn := rfl
@[simp] theorem State.setAdp_tx_jb (a : Adp) : (s.setAdp .tx a).jb = s.jb := rfl
@[simp] theorem State.setAdp_tx_mf (a : Adp) : (s.setAdp .tx a).mf = s.mf := rfl
@[simp] theorem State.setAdp_tx_so (a : Adp) : (s.setAdp .tx a).so = s.so := rfl
@[simp] theorem State.setAdp_tx_log (a : Adp) : (s.setAdp .tx a).log = s.log := rfl
@[simp] theorem State.setAdp_tx_pending (a : Adp) : (s.setAdp .tx a).pending = s.pending := rfl
@[simp] theorem State.setAdp_tx_results (a : Adp) : (s.setAdp .tx a).results = s.results := rfl

/-! ### Reading an instance -/

@[simp] theorem State.adp_rx : s.adp .rx = s.adpRx := rfl
@[simp] theorem State.adp_tx : s.adp .tx = s.adpTx := rfl

theorem State.adp_setAdp_same (i : Dir) (a : Adp) : (s.setAdp i a).adp i = a := by cases i <;> rfl

theorem State.adp_setAdp_other (i j : Dir) (a : Adp) (h : i ≠ j) : (s.setAdp i a).adp j = s.adp j := by
  cases i <;> cases j <;> first | rfl | exact absurd rfl h

/-! ### `State.setAdp` of either instance leaves every other field -/

@[simp] theorem State.setAdp_cfg (i : Dir) (a : Adp) : (s.setAdp i a).cfg = s.cfg := by cases i <;> rfl
@[simp] theorem State.setAdp_poweredOn (i : Dir) (a : Adp) : (s.setAdp i a).poweredOn = s.poweredOn := by cases i <;> rfl
@[simp] theorem State.setAdp_widthUse (i : Dir) (a : Adp) : (s.setAdp i a).widthUse = s.widthUse := by cases i <;> rfl
@[simp] theorem State.setAdp_rcUp (i : Dir) (a : Adp) : (s.setAdp i a).rcUp = s.rcUp := by cases i <;> rfl
@[simp] theorem State.setAdp_rcDn (i : Dir) (a : Adp) : (s.setAdp i a).rcDn = s.rcDn := by cases i <;> rfl
@[simp] theorem State.setAdp_jb (i : Dir) (a : Adp) : (s.setAdp i a).jb = s.jb := by cases i <;> rfl
@[simp] theorem State.setAdp_mf (i : Dir) (a : Adp) : (s.setAdp i a).mf = s.mf := by cases i <;> rfl
@[simp] theorem State.setAdp_so (i : Dir) (a : Adp) : (s.setAdp i a).so = s.so := by cases i <;> rfl
@[simp] theorem State.setAdp_log (i : Dir) (a : Adp) : (s.setAdp i a).log = s.log := by cases i <;> rfl
@[simp] theorem State.setAdp_pending (i : Dir) (a : Adp) : (s.setAdp i a).pending = s.pending := by cases i <;> rfl
@[simp] theorem State.setAdp_results (i : Dir) (a : Adp) : (s.setAdp i a).results = s.results := by cases i <;> rfl

end Sys2Proof.Machine
end

