-- ==== Sys2Proof/Laws/Ops.lean ====
section
/-! SUPPORT. What the shared operations of Machine/Ops.lean, the request check of Machine/Issue.lean and `step` can
answer, said once. -/

namespace Sys2Proof.Machine

@[simp] theorem State.whenOn_on {s : State} (h : s.poweredOn = true) (k : Answer) : s.whenOn k = k := by
  simp [State.whenOn, h]

@[simp] theorem State.whenOn_off {s : State} (h : s.poweredOn = false) (k : Answer) :
    s.whenOn k = .refused .beforePowerOn := by
  simp [State.whenOn, h]

/-- A next state through the power-on condition is the operation's own, and the block is on. -/
theorem State.whenOn_next {s t : State} {k : Answer} (h : s.whenOn k = .next t) : s.poweredOn = true ∧ k = .next t := by
  unfold State.whenOn at h
  split at h
  · exact ⟨by assumption, h⟩
  · cases h

theorem State.done_next {s t : State} {r : Result} (h : s.done r = .next t) : t = s.give r := by
  unfold State.done at h
  exact (Host.Outcome.next.inj h).symm

/-- A composition completes exactly when its parts do. -/
theorem State.doneOr_next {x : Except Refusal State} {r : Result} {t : State} (h : State.doneOr r x = .next t) :
    ∃ u, x = .ok u ∧ t = u.give r := by
  unfold State.doneOr at h
  split at h
  · exact ⟨_, rfl, State.done_next h⟩
  · cases h

@[simp] theorem State.doneOr_ok (s : State) (r : Result) : State.doneOr r (.ok s) = .next (s.give r) := rfl
@[simp] theorem State.doneOr_error (e : Refusal) (r : Result) : State.doneOr r (.error e) = .refused e := rfl

/-- What a step that answers a next state has done: taken off the first request, which decodes to an operation its agent
may issue and that mixes no widths, noted its use of the widths, and executed it. -/
theorem step_next {s t : State} (h : step s = .next t) :
    ∃ q rest i, s.pending = q :: rest ∧ decode q.bytes = .ok i ∧ permitted q.agent i = true ∧
      s.widthUse.mixedBy s.cfg i = false ∧
      exec i ((s.setPending rest).setWidthUse (s.widthUse.after s.cfg i)) = .next t := by
  unfold step State.fetch at h
  split at h
  · cases h
  · cases h
  · rename_i i s' hf
    split at hf
    · cases hf
    · rename_i q rest hp
      split at hf
      · cases hf
      · rename_i i' hd
        split at hf
        · rename_i hperm
          split at hf
          · cases hf
          · rename_i hmix
            cases hf
            exact ⟨q, rest, _, hp, hd, hperm, by simpa using hmix, h⟩
        · cases hf

/-! ### The unit resets (R321) -/

@[simp] theorem State.rcReset_up (s : State) : s.rcReset .up = s.setRcUp (RcUp.idle s.cfg) := rfl
@[simp] theorem State.rcReset_dn (s : State) : s.rcReset .dn = s.setRcDn (RcDn.idle s.cfg) := rfl
@[simp] theorem State.adpcmReset_rx (s : State) : s.adpcmReset .rx = s.setAdp .rx (Adp.idle s.adpRx.w) := rfl
@[simp] theorem State.adpcmReset_tx (s : State) : s.adpcmReset .tx = s.setAdp .tx (Adp.idle s.adpTx.w) := rfl
@[simp] theorem Adp.idle_w (w : CodeWidth) : (Adp.idle w).w = w := rfl

/-- Everything `State.resetStreams` does (R261, R262). -/
theorem State.resetStreams_eq (s : State) (running : Bool) :
    s.resetStreams running =
      { s with
        adpRx := Adp.idle s.adpRx.w
        adpTx := Adp.idle s.adpTx.w
        rcUp := RcUp.idle s.cfg
        rcDn := RcDn.idle s.cfg
        jb := Jb.idle s.cfg.capacity s.jb.underruns s.jb.overruns
        so := { s.so with running := running, rxMode := .noAudio, stage := Stage.empty, txq := [] } } := rfl

end Sys2Proof.Machine
end

