-- ==== Sys2Proof/Laws/Adpcm.lean ====
section
/-! SUPPORT. What the ADPCM sample step and its block forms give, said once (spec/41_adpcm.md). -/

namespace Sys2Proof.Machine

/-- No sample step writes `W` (R157), and each delay line moves on by one (R172). -/
theorem Adp.commit_delays (a : Adp) (g : Signals) :
    (a.commit g).w = a.w ∧ (a.commit g).dq.x2 = a.dq.x1 ∧ (a.commit g).dq.x3 = a.dq.x2 ∧
      (a.commit g).dq.x4 = a.dq.x3 ∧ (a.commit g).dq.x5 = a.dq.x4 ∧ (a.commit g).dq.x6 = a.dq.x5 ∧
      (a.commit g).sr2 = a.sr1 ∧ (a.commit g).pk2 = a.pk1 :=
  ⟨rfl, rfl, rfl, rfl, rfl, rfl, rfl, rfl⟩

theorem Adp.encodeSample_w (a : Adp) (s : Sample) : (a.encodeSample s).1.w = a.w := rfl
theorem Adp.decodeSample_w (a : Adp) (c : Nat) : (a.decodeSample c).1.w = a.w := rfl

/-- The quantizer answers a code of `W` bits (R163). -/
theorem quantize_lt (w : CodeWidth) (ds : Nat) (dln : Int) : quantize w ds dln < 2 ^ w.bits := by
  have h := List.length_filter_le (fun t => decide (t ≤ dln)) (qTab w)
  unfold quantize
  generalize (List.filter (fun t => decide (t ≤ dln)) (qTab w)).length = k at *
  cases w <;> simp only [qTab, CodeWidth.bits, List.length_cons, List.length_nil] at h ⊢ <;> split_ifs <;> omega

/-- R102: code 0 is not sent, but for W = 2. -/
theorem quantize_ne_zero (w : CodeWidth) (ds : Nat) (dln : Int) (hw : w ≠ .w2) : quantize w ds dln ≠ 0 := by
  have h := List.length_filter_le (fun t => decide (t ≤ dln)) (qTab w)
  unfold quantize
  generalize (List.filter (fun t => decide (t ≤ dln)) (qTab w)).length = k at *
  cases w <;> simp only [qTab, CodeWidth.bits, List.length_cons, List.length_nil] at h ⊢
  · exact absurd rfl hw
  all_goals split_ifs <;> omega

theorem Adp.encodeSample_lt (a : Adp) (s : Sample) : (a.encodeSample s).2 < 2 ^ a.w.bits := quantize_lt _ _ _

theorem Adp.encodeSample_ne_zero (a : Adp) (s : Sample) (hw : a.w ≠ .w2) : (a.encodeSample s).2 ≠ 0 :=
  quantize_ne_zero _ _ _ hw

/-- R177 for one sample: decoding the code of an encoded sample leaves the same registers. -/
theorem Adp.decodeSample_encodeSample (a : Adp) (s : Sample) :
    (a.decodeSample (a.encodeSample s).2).1 = (a.encodeSample s).1 := by
  have h : (a.encodeSample s).2 % 2 ^ a.w.bits = (a.encodeSample s).2 := Nat.mod_eq_of_lt (a.encodeSample_lt s)
  show a.commit (a.signals ((a.encodeSample s).2 % 2 ^ a.w.bits)) = _
  rw [h]
  rfl

theorem Adp.encodeAll_w (a : Adp) (x : List Sample) : (a.encodeAll x).1.w = a.w := by
  induction x generalizing a with
  | nil => rfl
  | cons s x ih => exact (ih (a.encodeSample s).1).trans rfl

theorem Adp.encodeAll_length (a : Adp) (x : List Sample) : (a.encodeAll x).2.length = x.length := by
  induction x generalizing a with
  | nil => rfl
  | cons s x ih => exact congrArg (· + 1) (ih (a.encodeSample s).1)

theorem Adp.encodeAll_lt (a : Adp) (x : List Sample) : ∀ c ∈ (a.encodeAll x).2, c < 2 ^ a.w.bits := by
  induction x generalizing a with
  | nil => intro c h; cases h
  | cons s x ih =>
    intro c h
    rcases List.mem_cons.1 h with rfl | h
    · exact a.encodeSample_lt s
    · exact ih (a.encodeSample s).1 c h

theorem Adp.decodeAll_w (a : Adp) (cs : List Nat) : (a.decodeAll cs).1.w = a.w := by
  induction cs generalizing a with
  | nil => rfl
  | cons c cs ih => exact (ih (a.decodeSample c).1).trans rfl

theorem Adp.decodeAll_length (a : Adp) (cs : List Nat) : (a.decodeAll cs).2.length = cs.length := by
  induction cs generalizing a with
  | nil => rfl
  | cons c cs ih => exact congrArg (· + 1) (ih (a.decodeSample c).1)

/-- R177 for a list of samples. -/
theorem Adp.decodeAll_encodeAll (a : Adp) (x : List Sample) : (a.decodeAll (a.encodeAll x).2).1 = (a.encodeAll x).1 := by
  induction x generalizing a with
  | nil => rfl
  | cons s x ih =>
    show ((a.decodeSample (a.encodeSample s).2).1.decodeAll _).1 = _
    rw [Adp.decodeSample_encodeSample]
    exact ih (a.encodeSample s).1

/-! ### Packed codes (R175, R176) -/

theorem packCodes_length (w : CodeWidth) (b : List Byte) (off : Nat) (codes : List Nat) (h : off ≤ 8 * b.length) :
    (packCodes w b off codes).length = (off + w.bits * codes.length + 7) / 8 := by
  rw [packCodes, packBits_length, List.length_append, List.length_take, streamBits_length, flatMap_natBits_length,
    Nat.min_eq_left h]

/-- The bits below the offset are kept. -/
theorem streamBit_packCodes_lt (w : CodeWidth) (b : List Byte) (off : Nat) (codes : List Nat) (h : off ≤ 8 * b.length)
    (p : Nat) (hp : p < off) : streamBit (packCodes w b off codes) p = streamBit b p := by
  rw [packCodes, streamBit_packBits, streamBit_eq_getD, List.getD_eq_getElem?_getD, List.getD_eq_getElem?_getD,
    List.getElem?_append_left (by simp; omega), List.getElem?_take_of_lt hp]

/-- The codes stand one after another from the offset; zeros follow. -/
theorem streamBit_packCodes_code (w : CodeWidth) (b : List Byte) (off : Nat) (codes : List Nat) (h : off ≤ 8 * b.length)
    (k j : Nat) (hj : j < w.bits) :
    streamBit (packCodes w b off codes) (off + w.bits * k + j) = (codes.getD k 0).testBit j := by
  rw [packCodes, streamBit_packBits, List.getD_eq_getElem?_getD, List.getElem?_append_right (by simp; omega),
    ← List.getD_eq_getElem?_getD, ← flatMap_natBits_getD w.bits codes k j hj]
  congr 1
  simp
  omega

theorem streamBit_packCodes_ge (w : CodeWidth) (b : List Byte) (off : Nat) (codes : List Nat) (h : off ≤ 8 * b.length)
    (p : Nat) (hp : off + w.bits * codes.length ≤ p) : streamBit (packCodes w b off codes) p = false := by
  rw [packCodes, streamBit_packBits, List.getD_eq_getElem?_getD, List.getElem?_eq_none]
  · rfl
  · rwa [List.length_append, List.length_take, streamBits_length, flatMap_natBits_length, Nat.min_eq_left h]

theorem unpackCodes_length (w : CodeWidth) (b : List Byte) (off n : Nat) : (unpackCodes w b off n).length = n := by
  simp [unpackCodes]

/-- Unpacking packed codes gives them back. -/
theorem unpackCodes_packCodes (w : CodeWidth) (b : List Byte) (off : Nat) (codes : List Nat) (h : off ≤ 8 * b.length)
    (hc : ∀ c ∈ codes, c < 2 ^ w.bits) : unpackCodes w (packCodes w b off codes) off codes.length = codes := by
  apply List.ext_getElem?
  intro k
  by_cases hk : k < codes.length
  · have hlt : codes[k] < 2 ^ w.bits := hc _ (List.getElem_mem hk)
    simp only [unpackCodes, List.getElem?_map, List.getElem?_range hk, Option.map_some, List.getElem?_eq_getElem hk,
      Option.some.injEq]
    apply Nat.eq_of_testBit_eq
    intro j
    rw [codeAt_testBit]
    by_cases hj : j < w.bits
    · rw [streamBit_packCodes_code w b off codes h k j hj]
      simp [hj, List.getD_eq_getElem?_getD, hk]
    · rw [Nat.testBit_lt_two_pow (Nat.lt_of_lt_of_le hlt (Nat.pow_le_pow_right (by decide) (by omega)))]
      simp [hj]
  · simp [unpackCodes, hk]

/-! ### The ranges (R26, R28, R167, R168, R171, R178) -/

/-- The value of a 16-bit pattern. -/
theorem toInt_ofNat16 (n : Nat) (h : n < 65536) : (BitVec.ofNat 16 n).toInt = if n < 32768 then (n : Int) else n - 65536 := by
  simp only [BitVec.toInt_eq_toNat_cond, BitVec.toNat_ofNat, Nat.mod_eq_of_lt h]
  split <;> split <;> omega

/-- A2 is limited to ±0.75 (R167). -/
theorem nextA2_range (a1 a2 pk0 pk1 pk2 sigpk : Nat) :
    nextA2 a1 a2 pk0 pk1 pk2 sigpk ≤ 12288 ∨
      53248 ≤ nextA2 a1 a2 pk0 pk1 pk2 sigpk ∧ nextA2 a1 a2 pk0 pk1 pk2 sigpk < 65536 := by
  unfold nextA2
  extract_lets
  split
  · omega
  · split
    · omega
    · rename_i a2t _ _
      have : a2t < 65536 := Nat.mod_lt _ (by decide)
      omega

/-- A1 is limited to ±(15/16 − A2) (R168). -/
theorem nextA1_range (a1 a2p pk0 pk1 sigpk : Nat) :
    nextA1 a1 a2p pk0 pk1 sigpk ≤ (15360 + 65536 - a2p) % 65536 ∨
      (a2p + 65536 - 15360) % 65536 ≤ nextA1 a1 a2p pk0 pk1 sigpk ∧ nextA1 a1 a2p pk0 pk1 sigpk < 65536 := by
  unfold nextA1
  extract_lets
  split
  · omega
  · split
    · omega
    · rename_i a1t a1ul a1ll _ _
      have : a1t < 65536 := Nat.mod_lt _ (by decide)
      omega

/-- YU is limited to 544 … 5120 (R171). -/
theorem nextYu_range (wi : Int) (y : Nat) : 544 ≤ nextYu wi y ∧ nextYu wi y ≤ 5120 := by
  unfold nextYu
  extract_lets
  rename_i yut geul gell
  have h : yut < 8192 := Nat.mod_lt _ (by decide)
  have h1 : geul = ((yut + 11264) % 16384) / 8192 := Nat.shiftRight_eq_div_pow _ 13
  have h2 : gell = ((yut + 15840) % 16384) / 8192 := Nat.shiftRight_eq_div_pow _ 13
  split
  · omega
  · split <;> omega

/-- YL stays in its range (R178). -/
theorem nextYl_range (yup yl : Nat) (h : 544 ≤ yup ∧ yup ≤ 5120) (h1 : 34816 ≤ yl) (h2 : yl ≤ 327680) :
    34816 ≤ nextYl yup yl ∧ nextYl yup yl ≤ 327680 := by
  unfold nextYl
  simp only [Nat.shiftRight_eq_div_pow, Nat.reducePow]
  generalize hq : (1048576 - yl) / 64 = q
  have hq1 : 64 * q ≤ 1048576 - yl := by omega
  have hq2 : 1048576 - yl < 64 * q + 64 := by omega
  rcases Nat.lt_or_ge (yup + q) 16384 with hc | hc
  · rw [Nat.mod_eq_of_lt hc, if_pos (by omega), show yl + (yup + q + 507904) = yl + yup + q - 16384 + 524288 by omega,
      Nat.add_mod_right, Nat.mod_eq_of_lt (by omega)]
    omega
  · rw [show (yup + q) % 16384 = yup + q - 16384 by omega, if_neg (by omega), Nat.mod_eq_of_lt (by omega)]
    omega

/-! The leaks of R159, R170 and R171 in exact integers. -/

theorem nextDms_eq (fi dms : Nat) (hf : fi ≤ 7) (hd : dms < 4096) :
    (nextDms fi dms : Int) = dms + (512 * (fi : Int) - dms) / 32 := by
  unfold nextDms
  simp only [Nat.shiftRight_eq_div_pow, Nat.shiftLeft_eq, Nat.reducePow]
  rcases Nat.lt_or_ge (fi * 512) dms with hc | hc
  · rw [show (fi * 512 + 8192 - dms) % 8192 = fi * 512 + 8192 - dms by omega, if_pos (by omega)]
    omega
  · rw [show (fi * 512 + 8192 - dms) % 8192 = fi * 512 - dms by omega, if_neg (by omega)]
    omega

theorem nextDml_eq (fi dml : Nat) (hf : fi ≤ 7) (hd : dml < 16384) :
    (nextDml fi dml : Int) = dml + (2048 * (fi : Int) - dml) / 128 := by
  unfold nextDml
  simp only [Nat.shiftRight_eq_div_pow, Nat.shiftLeft_eq, Nat.reducePow]
  rcases Nat.lt_or_ge (fi * 2048) dml with hc | hc
  · rw [show (fi * 2048 + 32768 - dml) % 32768 = fi * 2048 + 32768 - dml by omega, if_pos (by omega)]
    omega
  · rw [show (fi * 2048 + 32768 - dml) % 32768 = fi * 2048 - dml by omega, if_neg (by omega)]
    omega

theorem nextYl_eq (yup yl : Nat) (h : 544 ≤ yup ∧ yup ≤ 5120) (h1 : 34816 ≤ yl) (h2 : yl ≤ 327680) :
    (nextYl yup yl : Int) = yl + (64 * (yup : Int) - yl) / 64 := by
  unfold nextYl
  simp only [Nat.shiftRight_eq_div_pow, Nat.reducePow]
  generalize hq : (1048576 - yl) / 64 = q
  have hq1 : 64 * q ≤ 1048576 - yl := by omega
  have hq2 : 1048576 - yl < 64 * q + 64 := by omega
  rcases Nat.lt_or_ge (yup + q) 16384 with hc | hc
  · rw [Nat.mod_eq_of_lt hc, if_pos (by omega), show yl + (yup + q + 507904) = yl + yup + q - 16384 + 524288 by omega,
      Nat.add_mod_right, Nat.mod_eq_of_lt (by omega)]
    omega
  · rw [show (yup + q) % 16384 = yup + q - 16384 by omega, if_neg (by omega), Nat.mod_eq_of_lt (by omega)]
    omega

theorem stepSize_eq (ap yu yl : Nat) (h : 544 ≤ yu ∧ yu ≤ 5120) (h1 : 34816 ≤ yl) (h2 : yl ≤ 327680) :
    (stepSize ap yu yl : Int) = (yl / 64 : Nat) + Int.tdiv (((yu : Int) - (yl / 64 : Nat)) * (min (ap / 4) 64 : Nat)) 64 ∧
      544 ≤ stepSize ap yu yl ∧ stepSize ap yu yl ≤ 5120 := by
  have hal : speedLimit ap = min (ap/4) 64 := by
    unfold speedLimit; rw [Nat.shiftRight_eq_div_pow]; split <;> omega
  unfold stepSize
  simp only [hal]
  have hl : min (ap/4) 64 ≤ 64 := Nat.min_le_right _ _
  generalize min (ap/4) 64 = al at *
  simp only [Nat.shiftRight_eq_div_pow, Nat.reducePow]
  have hz1 : 544 ≤ yl / 64 := by omega
  have hz2 : yl / 64 ≤ 5120 := by omega
  generalize yl / 64 = z at *
  rcases Nat.lt_or_ge yu z with hc | hc
  · have e1 : (yu + 16384 - z) % 16384 = 16384 - (z - yu) := by omega
    have e2 : (16384 - (z - yu)) / 8192 = 1 := by omega
    rw [e1, e2]
    simp only [if_true]
    have e3 : (16384 - (16384 - (z-yu))) % 8192 = z - yu := by omega
    rw [e3]
    have hp : (z - yu) * al ≤ (z - yu) * 64 := Nat.mul_le_mul_left _ hl
    have ed : ((yu : Int) - z) * al = - (((z - yu) * al : Nat) : Int) := by push_cast [Nat.le_of_lt hc]; ring
    rw [ed, Int.neg_tdiv, Int.tdiv_eq_ediv_of_nonneg (by positivity)]
    generalize (z - yu) * al = pr at *
    omega
  · have e1 : (yu + 16384 - z) % 16384 = yu - z := by omega
    have e2 : ¬ (yu - z) / 8192 = 1 := by omega
    rw [e1]
    simp only [e2, if_false]
    have hp : (yu - z) * al ≤ (yu - z) * 64 := Nat.mul_le_mul_left _ hl
    have ed : ((yu : Int) - z) * al = (((yu - z) * al : Nat) : Int) := by push_cast [hc]; ring
    rw [ed, Int.tdiv_eq_ediv_of_nonneg (by positivity)]
    generalize (yu - z) * al = pr at *
    omega
theorem nextYu_eq (wi : Int) (y : Nat) (hw : -22 ≤ wi ∧ wi ≤ 1122) (h : 544 ≤ y ∧ y ≤ 5120) :
    (nextYu wi y : Int) = max 544 (min 5120 (y + (32 * wi - y) / 32)) := by
  have key : ∀ u : Nat, u < 8192 →
      ((if ((u + 15840) % 16384) / 8192 = 1 then 544 else if ((u + 11264) % 16384) / 8192 = 0 then 5120 else u : Nat) : Int) =
        max 544 (min 5120 (u : Int)) := by
    intro u hu
    split_ifs <;> omega
  unfold nextYu truncN
  simp only [Nat.shiftRight_eq_div_pow, Nat.reducePow]
  rcases lt_or_ge (wi * 32) (y : Int) with hc | hc
  · obtain ⟨d, hd⟩ : ∃ d : Nat, wi * 32 + 131072 - (y : Int) = d := ⟨_, (Int.toNat_of_nonneg (by omega)).symm⟩
    have e : ((wi * 32 + 131072 - (y : Int)) % 2 ^ 17).toNat = d := by omega
    rw [e, key _ (Nat.mod_lt _ (by decide)), if_pos (by omega), show (y + (d / 32 + 4096)) % 8192 = y + d / 32 - 4096 by omega]
    omega
  · obtain ⟨d, hd⟩ : ∃ d : Nat, wi * 32 - (y : Int) = d := ⟨_, (Int.toNat_of_nonneg (by omega)).symm⟩
    have e : ((wi * 32 + 131072 - (y : Int)) % 2 ^ 17).toNat = d := by omega
    rw [e, key _ (Nat.mod_lt _ (by decide)), if_neg (by omega), show (y + d / 32) % 8192 = y + d / 32 by omega]
    omega

theorem wTab_range (w : CodeWidth) (m : Nat) : -22 ≤ (wTab w).getD m 0 ∧ (wTab w).getD m 0 ≤ 1122 := by
  by_cases h : m < 16
  · cases w <;> interval_cases m <;> decide
  · rw [List.getD_eq_default]; decide; cases w <;> simp [wTab] <;> omega

theorem fTab_range (w : CodeWidth) (m : Nat) : (fTab w).getD m 0 ≤ 7 := by
  by_cases h : m < 16
  · cases w <;> interval_cases m <;> decide
  · rw [List.getD_eq_default]; decide; cases w <;> simp [fTab] <;> omega

/-- The registers after any step are in their ranges (YL where it was before). -/
theorem Adp.commit_inRange (a : Adp) (g : Signals) :
    -12288 ≤ (a.commit g).a2.toInt ∧ (a.commit g).a2.toInt ≤ 12288 ∧
    -(15360 - (a.commit g).a2.toInt) ≤ (a.commit g).a1.toInt ∧ (a.commit g).a1.toInt ≤ 15360 - (a.commit g).a2.toInt ∧
    544 ≤ (a.commit g).yu.toNat ∧ (a.commit g).yu.toNat ≤ 5120 ∧
    (34816 ≤ a.yl.toNat → a.yl.toNat ≤ 327680 →
      34816 ≤ (a.commit g).yl.toNat ∧ (a.commit g).yl.toNat ≤ 327680) := by
  have hA2 := nextA2_range a.a1.toNat a.a2.toNat g.pk0 a.pk1.toNat a.pk2.toNat g.sigpk
  have hA1 := nextA1_range a.a1.toNat (nextA2 a.a1.toNat a.a2.toNat g.pk0 a.pk1.toNat a.pk2.toNat g.sigpk) g.pk0
    a.pk1.toNat g.sigpk
  have hYu := nextYu_range ((wTab a.w).getD g.mi 0) g.y
  have hYl := nextYl_range _ a.yl.toNat hYu
  simp only [Adp.commit]
  generalize nextA2 a.a1.toNat a.a2.toNat g.pk0 a.pk1.toNat a.pk2.toNat g.sigpk = a2p at *
  generalize nextA1 a.a1.toNat a2p g.pk0 a.pk1.toNat g.sigpk = a1p at *
  generalize nextYu ((wTab a.w).getD g.mi 0) g.y = yup at *
  generalize nextYl yup a.yl.toNat = ylp at *
  have e2 : (BitVec.ofNat 16 a2p).toInt = if a2p < 32768 then (a2p : Int) else a2p - 65536 := toInt_ofNat16 _ (by omega)
  have e1 : (BitVec.ofNat 16 a1p).toInt = if a1p < 32768 then (a1p : Int) else a1p - 65536 := toInt_ofNat16 _ (by omega)
  have e3 : (BitVec.ofNat 13 yup).toNat = yup := by simp; omega
  have key : -12288 ≤ (BitVec.ofNat 16 a2p).toInt ∧ (BitVec.ofNat 16 a2p).toInt ≤ 12288 ∧
      -(15360 - (BitVec.ofNat 16 a2p).toInt) ≤ (BitVec.ofNat 16 a1p).toInt ∧
      (BitVec.ofNat 16 a1p).toInt ≤ 15360 - (BitVec.ofNat 16 a2p).toInt := by
    rw [e1, e2]
    split <;> split <;> omega
  have kyl : 34816 ≤ a.yl.toNat → a.yl.toNat ≤ 327680 →
      34816 ≤ (BitVec.ofNat 19 ylp).toNat ∧ (BitVec.ofNat 19 ylp).toNat ≤ 327680 := by
    intro l1 l2
    have := hYl l1 l2
    have e4 : (BitVec.ofNat 19 ylp).toNat = ylp := by simp; omega
    omega
  rw [e3]
  cases g.tr
  · exact ⟨key.1, key.2.1, key.2.2.1, key.2.2.2, hYu.1, hYu.2, kyl⟩
  · exact ⟨by simp, by simp, by simp, by simp, hYu.1, hYu.2, kyl⟩

theorem Adp.encodeSample_inRange (a : Adp) (s : Sample) (h : a.InRange) : (a.encodeSample s).1.InRange := by
  obtain ⟨h1, h2, h3, h4, h5, h6, h7⟩ := a.commit_inRange (a.signals (a.codeOf (.enc (pcm14 s))))
  exact ⟨h1, h2, h3, h4, h5, h6, h7 h.2.2.2.2.2.2.1 h.2.2.2.2.2.2.2⟩

theorem Adp.decodeSample_inRange (a : Adp) (c : Nat) (h : a.InRange) : (a.decodeSample c).1.InRange := by
  obtain ⟨h1, h2, h3, h4, h5, h6, h7⟩ := a.commit_inRange (a.signals (a.codeOf (.dec c)))
  exact ⟨h1, h2, h3, h4, h5, h6, h7 h.2.2.2.2.2.2.1 h.2.2.2.2.2.2.2⟩

theorem Adp.encodeAll_inRange (a : Adp) (x : List Sample) (h : a.InRange) : (a.encodeAll x).1.InRange := by
  induction x generalizing a with
  | nil => exact h
  | cons s x ih => exact ih _ (a.encodeSample_inRange s h)

theorem Adp.decodeAll_inRange (a : Adp) (cs : List Nat) (h : a.InRange) : (a.decodeAll cs).1.InRange := by
  induction cs generalizing a with
  | nil => exact h
  | cons c cs ih => exact ih _ (a.decodeSample_inRange c h)

/-- The reset values are in range. -/
theorem Adp.idle_inRange (w : CodeWidth) : (Adp.idle w).InRange := by
  cases w <;> decide

/-! ### The block forms -/

/-- All that `ADPCM_ENC_BUF` does to an instance's registers. -/
theorem Adp.encodeBuf_ok {a : Adp} {x : List Sample} {b : List Byte} {off : Nat} (h : off ≤ 8 * b.length) :
    a.encodeBuf x b off =
      .ok ((a.encodeAll x).1, packCodes a.w b off (a.encodeAll x).2, off + a.w.bits * x.length) := by
  simp [Adp.encodeBuf, h]

theorem Adp.encodeBuf_inv {a : Adp} {x : List Sample} {b : List Byte} {off : Nat} {r : Adp × List Byte × Nat}
    (h : a.encodeBuf x b off = .ok r) :
    off ≤ 8 * b.length ∧ r = ((a.encodeAll x).1, packCodes a.w b off (a.encodeAll x).2, off + a.w.bits * x.length) := by
  unfold Adp.encodeBuf at h
  split at h
  · exact ⟨by assumption, (Except.ok.inj h).symm⟩
  · cases h

/-- All that `ADPCM_DEC_BUF` does to an instance's registers. -/
theorem Adp.decodeBuf_ok {a : Adp} {b : List Byte} {off n : Nat} (h : off + a.w.bits * n ≤ 8 * b.length) :
    a.decodeBuf b off n = .ok (a.decodeAll (unpackCodes a.w b off n)) := by
  simp [Adp.decodeBuf, h]

theorem Adp.decodeBuf_inv {a : Adp} {b : List Byte} {off n : Nat} {r : Adp × List Sample}
    (h : a.decodeBuf b off n = .ok r) :
    off + a.w.bits * n ≤ 8 * b.length ∧ r = a.decodeAll (unpackCodes a.w b off n) := by
  unfold Adp.decodeBuf at h
  split at h
  · exact ⟨by assumption, (Except.ok.inj h).symm⟩
  · cases h

end Sys2Proof.Machine
end

