-- ==== Sys2Proof/Laws/AdpcmExact.lean ====
section
/-! SUPPORT. The stages of the ADPCM sample step as signed integers: for each stage, the number that its bit pattern
stands for (spec/41_adpcm.md R159 to R171). -/

namespace Sys2Proof.Machine

/-! ### Patterns and numbers -/

/-- The number that a 16-bit pattern stands for. -/
theorem ofInt16_toInt (v : Int) (h : -32768 ≤ v) (h' : v < 32768) : (BitVec.ofInt 16 v).toInt = v := by
  rw [BitVec.toInt_ofInt]
  exact Int.bmod_eq_of_le (by omega) (by omega)

theorem ofInt16_toNat (v : Int) : ((BitVec.ofInt 16 v).toNat : Int) = v % 65536 := by
  rw [BitVec.toNat_ofInt]
  omega

/-- A number below 2^16 is the pattern of the number congruent to it. -/
theorem ofNat16_eq_ofInt (n : Nat) (v : Int) (h : (n : Int) % 65536 = v % 65536) : BitVec.ofNat 16 n = BitVec.ofInt 16 v := by
  apply BitVec.eq_of_toNat_eq
  have := ofInt16_toNat v
  rw [BitVec.toNat_ofNat]
  omega

/-- The number of a 16-bit pattern, halved and extended, is the number halved. -/
theorem extend15_half (n : Nat) (h : n < 65536) : (extend15 (n >>> 1) : Int) = ((BitVec.ofNat 16 n).toInt / 2) % 65536 := by
  rw [toInt_ofNat16 n h]
  unfold extend15
  simp only [Nat.shiftRight_eq_div_pow, Nat.reducePow]
  split <;> split <;> omega

theorem bitlen_pos {v : Nat} (h : v ≠ 0) : bitlen v = Nat.log2 v + 1 := if_neg h

theorem toNat_of_toInt (c : BitVec 16) : (c.toNat : Int) = if c.toInt < 0 then c.toInt + 65536 else c.toInt := by
  have := c.isLt
  rw [BitVec.toInt_eq_toNat_cond]
  split <;> split <;> omega

theorem toInt16_range (c : BitVec 16) : -32768 ≤ c.toInt ∧ c.toInt < 32768 := by
  have := c.isLt
  rw [BitVec.toInt_eq_toNat_cond]
  split <;> omega

/-! ### Stages 1 and 2 -/

/-- R160: `FMULT` is the pattern of the product. -/
theorem fmult_eq (c : BitVec 16) (f : BitVec 11) : (fmult c.toNat f.toNat : Int) = tapProduct c f % 65536 := by
  have hf := f.isLt
  have hc := toNat_of_toInt c
  have hr := toInt16_range c
  have hmag : (if c.toNat >>> 15 = 1 then (16384 - (c.toNat >>> 2)) % 8192 else c.toNat >>> 2) =
      (if c.toInt < 0 then (-(c.toInt / 4)).toNat % 8192 else (c.toInt / 4).toNat) := by
    simp only [Nat.shiftRight_eq_div_pow, Nat.reducePow]
    split at hc <;> rename_i hneg
    · rw [if_pos (by omega), if_pos hneg]; omega
    · rw [if_neg (by omega), if_neg hneg]; omega
  have hsign : (f.toNat >>> 10) ^^^ (c.toNat >>> 15) = if (c.toInt < 0 ↔ f.toNat < 1024) then 1 else 0 := by
    simp only [Nat.shiftRight_eq_div_pow, Nat.reducePow]
    rcases Nat.lt_or_ge f.toNat 1024 with h1 | h1
    · rw [show f.toNat / 1024 = 0 by omega]
      split at hc <;> rename_i hneg
      · rw [show c.toNat / 32768 = 1 by omega, if_pos (by simp [hneg, h1])]; rfl
      · rw [show c.toNat / 32768 = 0 by omega, if_neg (by simp [hneg, h1])]; rfl
    · rw [show f.toNat / 1024 = 1 by omega]
      split at hc <;> rename_i hneg
      · rw [show c.toNat / 32768 = 1 by omega, if_neg (by simp [hneg]; omega)]; rfl
      · rw [show c.toNat / 32768 = 0 by omega, if_pos (by simp [hneg]; omega)]; rfl
  unfold fmult tapProduct
  simp only [hmag, hsign]
  generalize (if c.toInt < 0 then (-(c.toInt / 4)).toNat % 8192 else (c.toInt / 4).toNat) = mag
  simp only [bitlen, Nat.shiftRight_eq_div_pow, Nat.shiftLeft_eq, Nat.reducePow]
  have hmant : (if mag = 0 then 32 else mag * 64 / 2 ^ (if mag = 0 then 0 else mag.log2 + 1)) < 64 := by
    split
    · decide
    · exact (Nat.div_lt_iff_lt_mul (by positivity)).2 (by have := @Nat.lt_log2_self mag; omega)
  generalize (if mag = 0 then 32 else mag * 64 / 2 ^ (if mag = 0 then 0 else mag.log2 + 1)) = mant at *
  generalize f.toNat / 64 % 16 + (if mag = 0 then 0 else mag.log2 + 1) = e
  have hp : f.toNat % 64 * mant ≤ 63 * 63 := Nat.mul_le_mul (by omega) (by omega)
  generalize hq : (f.toNat % 64 * mant + 48) / 16 * 128 = q
  have hm : (if e ≤ 26 then q / 2 ^ (26 - e) else q * 2 ^ (e - 26) % 32768) < 32768 := by
    split
    · exact Nat.lt_of_le_of_lt (Nat.div_le_self _ _) (by omega)
    · exact Nat.mod_lt _ (by decide)
  generalize (if e ≤ 26 then q / 2 ^ (26 - e) else q * 2 ^ (e - 26) % 32768) = m at *
  by_cases hs : c.toInt < 0 ↔ f.toNat < 1024
  · simp only [if_pos hs, if_true]; omega
  · simp only [if_neg hs]; rw [if_neg (by decide)]; omega

/-- R161: the estimates' patterns are those of the halved 16-bit sums. -/
theorem zeroEstimate_eq (a : Adp) : BitVec.ofNat 16 (zeroEstimate a) = BitVec.ofInt 16 a.zeroTaps := by
  apply ofNat16_eq_ofInt
  have h1 := fmult_eq a.b.x1 a.dq.x1
  have h2 := fmult_eq a.b.x2 a.dq.x2
  have h3 := fmult_eq a.b.x3 a.dq.x3
  have h4 := fmult_eq a.b.x4 a.dq.x4
  have h5 := fmult_eq a.b.x5 a.dq.x5
  have h6 := fmult_eq a.b.x6 a.dq.x6
  unfold zeroEstimate Adp.zeroTaps
  omega

theorem fullEstimate_eq (a : Adp) : BitVec.ofNat 16 (fullEstimate a) =
    BitVec.ofInt 16 (a.zeroTaps + tapProduct a.a2 a.sr2 + tapProduct a.a1 a.sr1) := by
  apply ofNat16_eq_ofInt
  have h0 := congrArg BitVec.toNat (zeroEstimate_eq a)
  have h3 := ofInt16_toNat a.zeroTaps
  rw [BitVec.toNat_ofNat] at h0
  have h1 := fmult_eq a.a2 a.sr2
  have h2 := fmult_eq a.a1 a.sr1
  unfold fullEstimate
  omega

theorem extend_zeroEstimate (a : Adp) : (extend15 (zeroEstimate a >>> 1) : Int) = a.sez % 65536 := by
  rw [extend15_half (zeroEstimate a) (Nat.mod_lt _ (by decide)), zeroEstimate_eq]; rfl

theorem extend_fullEstimate (a : Adp) : (extend15 (fullEstimate a >>> 1) : Int) = a.se % 65536 := by
  rw [extend15_half (fullEstimate a) (Nat.mod_lt _ (by decide)), fullEstimate_eq]; rfl

theorem Adp.se_range (a : Adp) : -16384 ≤ a.se ∧ a.se < 16384 := by
  have := toInt16_range (BitVec.ofInt 16 (a.zeroTaps + tapProduct a.a2 a.sr2 + tapProduct a.a1 a.sr1))
  unfold Adp.se
  omega

theorem Adp.sez_range (a : Adp) : -16384 ≤ a.sez ∧ a.sez < 16384 := by
  have := toInt16_range (BitVec.ofInt 16 a.zeroTaps)
  unfold Adp.sez
  omega

/-- R159: `Y`, for any register contents. -/
theorem Adp.stepY_eq (a : Adp) : (a.stepY : Int) = a.mixedStep ∧ a.stepY < 8192 := by
  have hy := a.yu.isLt
  have hl := a.yl.isLt
  have hal : speedLimit a.ap.toNat = min (a.ap.toNat / 4) 64 := by
    unfold speedLimit; rw [Nat.shiftRight_eq_div_pow]; split <;> omega
  have h64 : min (a.ap.toNat / 4) 64 ≤ 64 := Nat.min_le_right _ _
  unfold Adp.stepY stepSize Adp.mixedStep
  simp only [hal, Nat.shiftRight_eq_div_pow, Nat.reducePow]
  rw [show ((a.yl.toNat : Int) / 64) = ((a.yl.toNat / 64 : Nat) : Int) by omega]
  generalize min (a.ap.toNat / 4) 64 = al at *
  generalize a.yu.toNat = u at *
  have hz : a.yl.toNat / 64 < 8192 := by omega
  generalize a.yl.toNat / 64 = z at *
  rcases Nat.lt_or_ge u z with hc | hc
  · have hp : (z - u) * al ≤ (z - u) * 64 := Nat.mul_le_mul_left _ h64
    have ed : ((u : Int) - z) * al = -(((z - u) * al : Nat) : Int) := by push_cast [Nat.le_of_lt hc]; ring
    rw [ed, Int.neg_tdiv, Int.tdiv_eq_ediv_of_nonneg (by positivity),
      show (u + 16384 - z) % 16384 = 16384 - (z - u) by omega, if_pos (by omega), if_pos (by omega),
      show (16384 - (16384 - (z - u))) % 8192 = z - u by omega]
    generalize (z - u) * al = pr at *
    omega
  · have hp : (u - z) * al ≤ (u - z) * 64 := Nat.mul_le_mul_left _ h64
    have ed : ((u : Int) - z) * al = (((u - z) * al : Nat) : Int) := by push_cast [hc]; ring
    rw [ed, Int.tdiv_eq_ediv_of_nonneg (by positivity), show (u + 16384 - z) % 16384 = u - z by omega,
      if_neg (by omega), if_neg (by omega)]
    generalize (u - z) * al = pr at *
    omega

/-! ### Stage 3 -/

/-- R162: the difference is the exact one. -/
theorem difference_eq (sl : Int) (a : Adp) (h : -8192 ≤ sl) (h' : sl ≤ 8191) :
    (difference sl (fullEstimate a >>> 1) : Int) = (sl - a.se) % 65536 := by
  have he := extend_fullEstimate a
  have hr := a.se_range
  unfold difference truncN
  omega

/-- R162: the logarithm of a difference less the step size, both in units of 1/128 octave. -/
theorem logDifference_eq (d : Int) (n y : Nat) (hn : (n : Int) = d % 65536) (hd : -24576 ≤ d) (hd' : d ≤ 24576) (hy : y < 8192) :
    logDifference n y = 128 * Nat.log2 d.natAbs + (d.natAbs * 128 / 2 ^ Nat.log2 d.natAbs % 128 : Nat) - (y / 4 : Nat) ∧
      n >>> 15 = if d < 0 then 1 else 0 := by
  have hs : n >>> 15 = if d < 0 then 1 else 0 := by
    rw [Nat.shiftRight_eq_div_pow]; split <;> omega
  refine ⟨?_, hs⟩
  have hm : (if n >>> 15 = 1 then (65536 - n) % 32768 else n) = d.natAbs := by
    rw [hs]; split <;> split <;> omega
  unfold logDifference
  simp only [hm]
  have hlog : Nat.log2 d.natAbs ≤ 14 := by
    by_contra hc
    have := Nat.log2_self_le (n := d.natAbs) (by rintro h0; rw [h0] at hc; exact hc (by decide))
    have h15 : 2 ^ 15 ≤ 2 ^ Nat.log2 d.natAbs := Nat.pow_le_pow_right (by decide) (by omega)
    omega
  have hb : bitlen d.natAbs - 1 = Nat.log2 d.natAbs := by
    unfold bitlen; split
    · rename_i h0; rw [h0]; rfl
    · rfl
  simp only [hb, Nat.shiftRight_eq_div_pow, Nat.shiftLeft_eq, Nat.reducePow]
  have hmod := Nat.mod_lt (d.natAbs * 128 / 2 ^ Nat.log2 d.natAbs) (y := 128) (by decide)
  generalize d.natAbs * 128 / 2 ^ Nat.log2 d.natAbs % 128 = mt at *
  generalize Nat.log2 d.natAbs = ex at *
  split <;> omega

/-! ### Stage 4 -/

theorem dqlnTab_range (w : CodeWidth) (m : Nat) : -2048 ≤ (dqlnTab w).getD m 0 ∧ (dqlnTab w).getD m 0 ≤ 566 := by
  by_cases h : m < 16
  · cases w <;> interval_cases m <;> decide
  · rw [List.getD_eq_default]; decide; cases w <;> simp [dqlnTab] <;> omega

/-- R164 for a step size in its range: the antilogarithm of the code's level plus the step size, 0 below 0. -/
theorem differenceMagnitude_eq (w : CodeWidth) (code y : Nat) (hy : y ≤ 5120) :
    let l : Int := (dqlnTab w).getD (magnitudeIndex w code) 0 + (y / 4 : Nat)
    (differenceMagnitude w code y : Int) = (if l < 0 then 0 else (128 + l % 128) * 128 / 2 ^ (14 - (l / 128).toNat)) ∧
      differenceMagnitude w code y ≤ 32640 := by
  intro l
  have ht := dqlnTab_range w (magnitudeIndex w code)
  unfold differenceMagnitude truncN
  simp only [l]
  generalize (dqlnTab w).getD (magnitudeIndex w code) 0 = t at *
  simp only [Nat.shiftRight_eq_div_pow, Nat.shiftLeft_eq, Nat.reducePow]
  generalize hq : y / 4 = q
  rcases lt_or_ge (t + q) 0 with hl | hl
  · have e : ((t % 2 ^ 12).toNat + q) % 4096 / 2048 = 1 := by omega
    rw [if_pos e, if_pos hl]; simp
  · have e : ((t % 2 ^ 12).toNat + q) % 4096 = (t + q).toNat := by omega
    obtain ⟨n, hn⟩ : ∃ n : Nat, t + q = n := ⟨_, (Int.toNat_of_nonneg hl).symm⟩
    have hn2 : n ≤ 1846 := by omega
    rw [e, hn, Int.toNat_natCast, if_neg (show ¬ n / 2048 = 1 by omega), if_neg (show ¬ (n : Int) < 0 by omega),
      show n / 128 % 16 = n / 128 by omega, show ((n : Int) / 128).toNat = n / 128 by omega, if_pos (by omega)]
    exact ⟨by push_cast; rfl, Nat.le_trans (Nat.div_le_self _ _) (by omega)⟩

/-- R165: the reconstructed difference's pattern. -/
theorem signedDifference_eq (dqs m : Nat) (h : m ≤ 32640) :
    (signedDifference dqs m : Int) = (if dqs = 1 then -(m : Int) else m) % 65536 := by
  unfold signedDifference
  split <;> omega

/-! ### Stage 6 -/

/-- The leak of a coefficient, as in R167 to R169: minus the coefficient's 2^k-th part, rounded down. -/
theorem leak_eq (c : BitVec 16) (k fill : Nat) (hk : fill + 2 ^ (16 - k) = 65536) (h : 1 ≤ k) (h' : k ≤ 15) :
    ((if c.toNat >>> 15 = 1 then (65536 - ((c.toNat >>> k) + fill)) % 65536 else (65536 - (c.toNat >>> k)) % 65536 : Nat) : Int) =
      (-(c.toInt / 2 ^ k)) % 65536 := by
  have e := toNat_of_toInt c
  have r := toInt16_range c
  interval_cases k <;> simp only [Nat.shiftRight_eq_div_pow, Nat.reducePow, Int.reducePow, Nat.reduceSub] at hk ⊢ <;>
    split at e <;> split <;> omega

/-- The limiter of R167. -/
theorem limitA2_eq (n : Nat) (v : Int) (h : (n : Int) = v % 65536) (hlo : -32768 ≤ v) (hhi : v ≤ 32767) :
    ((if 32768 ≤ n ∧ n ≤ 53248 then 53248 else if 12288 ≤ n ∧ n ≤ 32767 then 12288 else n : Nat) : Int) =
      max (-12288) (min 12288 v) % 65536 := by
  split_ifs <;> omega

theorem xor_bits (p q : Nat) (hp : p < 2) (hq : q < 2) : p ^^^ q = if p = q then 0 else 1 := by
  interval_cases p <;> interval_cases q <;> rfl

/-- `FA1` of R167. -/
theorem limitedA1_eq (c : BitVec 16) : (limitedA1 c.toNat : Int) = 4 * max (-8191) (min 8191 c.toInt) % 131072 := by
  have e := toNat_of_toInt c
  have r := toInt16_range c
  unfold limitedA1
  simp only [Nat.shiftRight_eq_div_pow, Nat.shiftLeft_eq, Nat.reducePow]
  split at e <;> split_ifs <;> omega

/-- R167 as numbers: A2 moves by the signs' correlation and leaks by 1/128, limited to ±12288. -/
theorem nextA2_eq (a1 a2 : BitVec 16) (pk0 pk1 pk2 sigpk : Nat) (h0 : pk0 < 2) (h1 : pk1 < 2) (h2 : pk2 < 2)
    (hlo : -12288 ≤ a2.toInt) (hhi : a2.toInt ≤ 12288) :
    let f := 4 * max (-8191) (min 8191 a1.toInt)
    let g : Int := if sigpk = 1 then 0 else
      ((if pk0 = pk2 then 16384 else -16384) + (if pk0 = pk1 then -f else f)) / 128
    (nextA2 a1.toNat a2.toNat pk0 pk1 pk2 sigpk : Int) = max (-12288) (min 12288 (a2.toInt + g - a2.toInt / 128)) % 65536 := by
  intro f g
  have hf := limitedA1_eq a1
  have hfr : -32764 ≤ f ∧ f ≤ 32764 := by simp only [f]; omega
  have hl := leak_eq a2 7 65024 (by decide) (by decide) (by decide)
  have e2 := toNat_of_toInt a2
  unfold nextA2
  simp only [xor_bits pk0 pk1 h0 h1, xor_bits pk0 pk2 h0 h2]
  generalize (if a2.toNat >>> 15 = 1 then (65536 - ((a2.toNat >>> 7) + 65024)) % 65536 else (65536 - (a2.toNat >>> 7)) % 65536)
    = ula at *
  have hg : (if sigpk = 1 then 0 else
      if (((if (if pk0 = pk2 then 0 else 1) = 1 then 114688 else 16384) +
        if (if pk0 = pk1 then 0 else 1) = 1 then limitedA1 a1.toNat else (131072 - limitedA1 a1.toNat) % 131072) % 131072) >>> 16 = 1
      then ((((if (if pk0 = pk2 then 0 else 1) = 1 then 114688 else 16384) +
        if (if pk0 = pk1 then 0 else 1) = 1 then limitedA1 a1.toNat else (131072 - limitedA1 a1.toNat) % 131072) % 131072) >>> 7) + 64512
      else (((if (if pk0 = pk2 then 0 else 1) = 1 then 114688 else 16384) +
        if (if pk0 = pk1 then 0 else 1) = 1 then limitedA1 a1.toNat else (131072 - limitedA1 a1.toNat) % 131072) % 131072) >>> 7 : Nat)
      = g % 65536 := by
    change (limitedA1 a1.toNat : Int) = f % 131072 at hf
    simp only [g]
    clear_value f
    generalize limitedA1 a1.toNat = n at *
    by_cases hs : sigpk = 1
    · simp [hs]
    · simp only [hs, if_false, Nat.shiftRight_eq_div_pow, Nat.reducePow]
      interval_cases pk0 <;> interval_cases pk1 <;> interval_cases pk2 <;>
        simp only [zero_ne_one, one_ne_zero, if_true, if_false] <;> split_ifs <;> omega
  have hgr : -385 ≤ g ∧ g ≤ 384 := by
    simp only [g]
    split_ifs <;> omega
  apply limitA2_eq
  · rw [Int.natCast_mod, Int.natCast_add, Int.natCast_mod, Int.natCast_add, hg, hl]
    split at e2 <;> omega
  · omega
  · omega

/-- R168 as numbers: A1 moves by the signs' correlation and leaks by 1/256, limited to ±(15360 − A2). -/
theorem nextA1_eq (a1 : BitVec 16) (n : Nat) (a2 : Int) (pk0 pk1 sigpk : Nat) (h0 : pk0 < 2) (h1 : pk1 < 2)
    (hn : (n : Int) = a2 % 65536) (h2 : -12288 ≤ a2) (h2' : a2 ≤ 12288) (hlo : -27648 ≤ a1.toInt) (hhi : a1.toInt ≤ 27648) :
    let g : Int := if sigpk = 1 then 0 else if pk0 = pk1 then 192 else -192
    (nextA1 a1.toNat n pk0 pk1 sigpk : Int) =
      max (-(15360 - a2)) (min (15360 - a2) (a1.toInt + g - a1.toInt / 256)) % 65536 := by
  intro g
  have hl := leak_eq a1 8 65280 (by decide) (by decide) (by decide)
  have e1 := toNat_of_toInt a1
  unfold nextA1
  simp only [xor_bits pk0 pk1 h0 h1]
  generalize (if a1.toNat >>> 15 = 1 then (65536 - ((a1.toNat >>> 8) + 65280)) % 65536 else (65536 - (a1.toNat >>> 8)) % 65536)
    = ula at *
  have hg : ((if sigpk = 1 then 0 else if (if pk0 = pk1 then 0 else 1) = 1 then 65344 else 192 : Nat) : Int) = g % 65536 := by
    simp only [g]
    split_ifs <;> simp_all
  have hgr : -192 ≤ g ∧ g ≤ 192 := by simp only [g]; split_ifs <;> omega
  clear_value g
  generalize (if sigpk = 1 then 0 else if (if pk0 = pk1 then 0 else 1) = 1 then 65344 else 192 : Nat) = u at *
  obtain ⟨t, ht⟩ : ∃ t : Nat, (a1.toNat + (u + ula) % 65536) % 65536 = t := ⟨_, rfl⟩
  have htv : (t : Int) = (a1.toInt + g - a1.toInt / 256) % 65536 := by
    split at e1 <;> omega
  have hv : -32768 ≤ a1.toInt + g - a1.toInt / 256 ∧ a1.toInt + g - a1.toInt / 256 ≤ 32767 := by omega
  rw [ht]
  generalize a1.toInt + g - a1.toInt / 256 = v at *
  split_ifs <;> omega

/-- R169 as numbers: a zero coefficient moves by ±128 and leaks by 1/256, or 1/512 at W = 5, in 16 bits. -/
theorem nextB_eq (w : CodeWidth) (dqs m : Nat) (b : BitVec 16) (q : BitVec 11) (hs : dqs < 2) :
    BitVec.ofNat 16 (nextB w dqs m b.toNat q.toNat) = BitVec.ofInt 16 (b.toInt +
      (if m = 0 then 0 else if (dqs = 1 ↔ 1024 ≤ q.toNat) then 128 else -128) - b.toInt / (if w = .w5 then 512 else 256)) := by
  have hq := q.isLt
  have e := toNat_of_toInt b
  apply ofNat16_eq_ofInt
  have hx : dqs ^^^ (q.toNat >>> 10) = if (dqs = 1 ↔ 1024 ≤ q.toNat) then 0 else 1 := by
    rw [Nat.shiftRight_eq_div_pow, xor_bits _ _ hs (by omega)]
    split_ifs <;> omega
  have hb : -32768 ≤ b.toInt ∧ b.toInt < 32768 := toInt16_range b
  unfold nextB
  simp only [hx]
  have key (ula : Nat) (k : Int) (hl : (ula : Int) = (-(b.toInt / k)) % 65536) :
      (((b.toNat + ((if m = 0 then 0 else if (if dqs = 1 ↔ 1024 ≤ q.toNat then 0 else 1) = 1 then 65408 else 128) + ula) % 65536) %
        65536 : Nat) : Int) % 65536 =
      (b.toInt + (if m = 0 then 0 else if (dqs = 1 ↔ 1024 ≤ q.toNat) then 128 else -128) - b.toInt / k) % 65536 := by
    generalize b.toInt / k = r at *
    split at e <;> by_cases h0 : m = 0 <;> by_cases hP : dqs = 1 ↔ 1024 ≤ q.toNat <;>
      simp only [if_pos, if_neg, h0, hP, not_false_eq_true, zero_ne_one] <;> omega
  cases w
  case w5 => exact key _ _ (leak_eq b 9 65408 (by decide) (by decide) (by decide))
  all_goals exact key _ _ (leak_eq b 8 65280 (by decide) (by decide) (by decide))

/-! ### Stage 7 -/

/-- R170: the speed test as numbers. -/
theorem speedUp_eq (y dms dml td : Nat) (h : dms < 4096) (h' : dml < 16384) :
    speedUp y dms dml td = if 1536 ≤ y ∧ (4 * (dms : Int) - dml).natAbs < dml / 8 ∧ td = 0 then 0 else 1 := by
  have hd : (if (((dms <<< 2) + 32768 - dml) % 32768) >>> 14 = 1 then (32768 - ((dms <<< 2) + 32768 - dml) % 32768) % 16384
      else ((dms <<< 2) + 32768 - dml) % 32768) = (4 * (dms : Int) - dml).natAbs := by
    simp only [Nat.shiftRight_eq_div_pow, Nat.shiftLeft_eq, Nat.reducePow]
    split <;> omega
  unfold speedUp
  simp only [hd]
  rw [Nat.shiftRight_eq_div_pow]

/-- R170: AP moves by 1/16 of its distance to 512·AX. -/
theorem nextAp_eq (ax ap : Nat) (hx : ax < 2) (ha : ap < 1024) :
    (nextAp ax ap : Int) = ap + (512 * (ax : Int) - ap) / 16 ∧ nextAp ax ap < 1024 := by
  unfold nextAp
  simp only [Nat.shiftRight_eq_div_pow, Nat.shiftLeft_eq, Nat.reducePow]
  rcases Nat.lt_or_ge (ax * 512) ap with hc | hc
  · rw [show (ax * 512 + 2048 - ap) % 2048 = ax * 512 + 2048 - ap by omega, if_pos (by omega)]
    omega
  · rw [show (ax * 512 + 2048 - ap) % 2048 = ax * 512 - ap by omega, if_neg (by omega)]
    omega

/-! ### The whole step -/

/-- The sign of a code of `W` bits (R164). -/
theorem adpcmSign_eq (w : CodeWidth) (c : Nat) (h : c < 2 ^ w.bits) :
    adpcmSign w c = if 2 ^ (w.bits - 1) ≤ c then 1 else 0 := by
  have hd : ∀ P, 0 < P → c < 2 * P → c / P = if P ≤ c then 1 else 0 := by
    intro P hP hc
    split
    · rw [Nat.div_eq_iff hP]; omega
    · exact Nat.div_eq_of_lt (by omega)
  unfold adpcmSign
  rw [Nat.shiftRight_eq_div_pow]
  apply hd _ (by positivity)
  cases w <;> exact h

/-- R169: the 11-bit float word of a sign and a magnitude. -/
theorem floatWord_eq (sign m : Nat) (b : Bool) (hb : sign = if b then 1 else 0) :
    BitVec.ofNat 11 (floatWord sign m) = BitVec.ofNat 11 ((if b then 1024 else 0) + 64 * (if m = 0 then 0 else Nat.log2 m + 1) +
      if m = 0 then 32 else m * 64 / 2 ^ (if m = 0 then 0 else Nat.log2 m + 1)) := by
  subst hb
  unfold floatWord bitlen
  simp only [Nat.shiftRight_eq_div_pow, Nat.shiftLeft_eq, Nat.reducePow]
  congr 1
  cases b <;> by_cases h : m = 0 <;> simp [h] <;> omega

/-- R169: the float word of a 16-bit signal is that of its sign and its 15-bit magnitude. -/
theorem floatSr_eq (n : Nat) (v : Int) (hn : n < 65536) (hv : v = if n < 32768 then (n : Int) else n - 65536) :
    floatSr n = floatWord (if v < 0 then 1 else 0) (v.natAbs % 32768) := by
  have hs : n >>> 15 = if v < 0 then 1 else 0 := by
    rw [Nat.shiftRight_eq_div_pow, hv]; split_ifs <;> omega
  have hm : (if n >>> 15 = 1 then (65536 - n) % 32768 else n) = v.natAbs % 32768 := by
    rw [Nat.shiftRight_eq_div_pow]; split_ifs at hv ⊢ <;> omega
  show floatWord (n >>> 15) (if n >>> 15 = 1 then (65536 - n) % 32768 else n) = _
  rw [hm, hs]

/-- R166: the transition test. -/
theorem transition_eq (m yl : Nat) (td : BitVec 1) :
    let thr := if 9 < yl / 32768 then 31 * 1024 else (32 + yl / 1024 % 32) * 2 ^ (yl / 32768)
    transition m yl td.toNat = decide (td = 1 ∧ (thr + thr / 2) / 2 < m) := by
  intro thr
  have ht : ∀ q : BitVec 1, decide (q.toNat = 1) = decide (q = 1) := by decide
  have ha : transitionThreshold yl = (thr + thr / 2) / 2 := by
    unfold transitionThreshold
    rw [show (31 : Nat) = 2 ^ 5 - 1 from rfl]
    simp only [Nat.and_two_pow_sub_one_eq_mod, Nat.shiftRight_eq_div_pow, Nat.shiftLeft_eq]
    rfl
  unfold transition
  rw [ha, ht, Bool.decide_and, Bool.and_comm]

/-- The reconstructed and the partial reconstructed signal of a step as numbers (R164, R165), for registers in their
ranges and a code of `W` bits. -/
theorem Adp.signals_eq (r : Adp) (c : Nat) (hc : c < 2 ^ r.w.bits) (h : r.InRange) :
    let m := (r.signals c).dqmag
    let dq : Int := if 2 ^ (r.w.bits - 1) ≤ c then -(m : Int) else m
    let sr := (BitVec.ofInt 16 (dq + r.se)).toInt
    let p := (BitVec.ofInt 16 (dq + r.sez)).toInt
    m ≤ 32640 ∧ (r.signals c).sr < 65536 ∧
      sr = (if (r.signals c).sr < 32768 then ((r.signals c).sr : Int) else (r.signals c).sr - 65536) ∧
      (r.signals c).pk0 = (if p < 0 then 1 else 0) ∧ (r.signals c).sigpk = if p = 0 then 1 else 0 := by
  obtain ⟨_, _, _, _, hyu1, hyu2, hyl1, hyl2⟩ := h
  have hle := (differenceMagnitude_eq r.w c r.stepY
    (stepSize_eq r.ap.toNat r.yu.toNat r.yl.toNat ⟨hyu1, hyu2⟩ hyl1 hyl2).2.2).2
  intro m dq sr p
  change m ≤ 32640 at hle
  have hdq : (signedDifference (adpcmSign r.w c) m : Int) = dq % 65536 := by
    rw [signedDifference_eq _ _ hle, adpcmSign_eq _ _ hc]
    simp only [dq]
    split <;> rfl
  have hse := r.se_range
  have hsez := r.sez_range
  have he := extend_fullEstimate r
  have hz := extend_zeroEstimate r
  have gsr : ((r.signals c).sr : Int) = (dq + r.se) % 65536 := by
    show (((signedDifference (adpcmSign r.w c) m + extend15 (fullEstimate r >>> 1)) % 65536 : Nat) : Int) = _
    clear_value m dq
    omega
  obtain ⟨n, hn, hpk, hsig⟩ : ∃ n : Nat, (n : Int) = (dq + r.sez) % 65536 ∧ (r.signals c).pk0 = signPk n ∧
      (r.signals c).sigpk = sigPk n := by
    refine ⟨(signedDifference (adpcmSign r.w c) m + extend15 (zeroEstimate r >>> 1)) % 65536, ?_, rfl, rfl⟩
    clear_value m dq
    omega
  have hp : p = if n < 32768 then (n : Int) else n - 65536 := by
    rw [← toInt_ofNat16 _ (by omega), ofNat16_eq_ofInt n (dq + r.sez) (by omega)]
  have hsr : sr = if (r.signals c).sr < 32768 then ((r.signals c).sr : Int) else (r.signals c).sr - 65536 := by
    rw [← toInt_ofNat16 _ (by omega), ofNat16_eq_ofInt (r.signals c).sr (dq + r.se) (by omega)]
  refine ⟨hle, by omega, hsr, ?_, ?_⟩
  · rw [hpk, signPk, Nat.shiftRight_eq_div_pow]
    clear_value p
    split_ifs at hp ⊢ <;> omega
  · rw [hsig, sigPk]
    clear_value p
    split_ifs at hp ⊢ <;> omega

/-- All register writes of a step as numbers (R167 to R172), from its signals, for registers in their ranges. -/
theorem Adp.commit_eq (r : Adp) (g : Signals) (h : r.InRange) (hy : 544 ≤ g.y ∧ g.y ≤ 5120) (hp : g.pk0 < 2)
    (hs : g.dqs < 2) :
    let f := 4 * max (-8191) (min 8191 r.a1.toInt)
    let g2 : Int := if g.sigpk = 1 then 0 else
      ((if g.pk0 = r.pk2.toNat then 16384 else -16384) + (if g.pk0 = r.pk1.toNat then -f else f)) / 128
    let g1 : Int := if g.sigpk = 1 then 0 else if g.pk0 = r.pk1.toNat then 192 else -192
    let a2 := max (-12288) (min 12288 (r.a2.toInt + g2 - r.a2.toInt / 128))
    let a1 := max (-(15360 - a2)) (min (15360 - a2) (r.a1.toInt + g1 - r.a1.toInt / 256))
    let b (bn : BitVec 16) (dqn : BitVec 11) : BitVec 16 :=
      if g.tr then 0
      else BitVec.ofInt 16 (bn.toInt + (if g.dqmag = 0 then 0 else if (g.dqs = 1 ↔ 1024 ≤ dqn.toNat) then 128 else -128) -
        bn.toInt / (if r.w = .w5 then 512 else 256))
    let fi : Int := (fTab r.w).getD g.mi 0
    let dms := r.dms.toNat + (512 * fi - r.dms.toNat) / 32
    let dml := r.dml.toNat + (2048 * fi - r.dml.toNat) / 128
    let ax : Int := if 1536 ≤ g.y ∧ ((4 * dms - dml).natAbs : Int) < dml / 8 ∧ ¬ a2 < -11776 then 0 else 1
    let yu := max 544 (min 5120 (g.y + (32 * (wTab r.w).getD g.mi 0 - g.y) / 32))
    r.commit g = {
      w := r.w
      a1 := if g.tr then 0 else BitVec.ofInt 16 a1
      a2 := if g.tr then 0 else BitVec.ofInt 16 a2
      b := ⟨b r.b.x1 r.dq.x1, b r.b.x2 r.dq.x2, b r.b.x3 r.dq.x3, b r.b.x4 r.dq.x4, b r.b.x5 r.dq.x5, b r.b.x6 r.dq.x6⟩
      dq := ⟨BitVec.ofNat 11 (floatWord g.dqs g.dqmag), r.dq.x1, r.dq.x2, r.dq.x3, r.dq.x4, r.dq.x5⟩
      sr1 := BitVec.ofNat 11 (floatSr g.sr)
      sr2 := r.sr1
      yl := BitVec.ofInt 19 (r.yl.toNat + (64 * yu - r.yl.toNat) / 64)
      yu := BitVec.ofInt 13 yu
      dms := BitVec.ofInt 12 dms
      dml := BitVec.ofInt 14 dml
      ap := if g.tr then 256 else BitVec.ofInt 10 (r.ap.toNat + (512 * ax - r.ap.toNat) / 16)
      td := if ¬ a2 < -11776 ∨ g.tr then 0 else 1
      pk1 := BitVec.ofNat 1 g.pk0
      pk2 := r.pk1 } := by
  intro f g2 g1 a2 a1 b fi dms dml ax yu
  obtain ⟨ha2l, ha2h, ha1l, ha1h, _, _, hyl1, hyl2⟩ := h
  have hA2 := nextA2_eq r.a1 r.a2 g.pk0 r.pk1.toNat r.pk2.toNat g.sigpk hp r.pk1.isLt r.pk2.isLt ha2l ha2h
  change (_ : Int) = a2 % 65536 at hA2
  have ha2r : -12288 ≤ a2 ∧ a2 ≤ 12288 := by simp only [a2]; omega
  have hA1 := nextA1_eq r.a1 _ a2 g.pk0 r.pk1.toNat g.sigpk hp r.pk1.isLt hA2 ha2r.1 ha2r.2 (by omega) (by omega)
  change (_ : Int) = a1 % 65536 at hA1
  have htone : toneDetected (nextA2 r.a1.toNat r.a2.toNat g.pk0 r.pk1.toNat r.pk2.toNat g.sigpk) =
      if a2 < -11776 then 1 else 0 := by
    clear_value a2
    unfold toneDetected
    split_ifs <;> omega
  have hB (bn : BitVec 16) (q : BitVec 11) :
      (if g.tr then (0 : BitVec 16) else BitVec.ofNat 16 (nextB r.w g.dqs g.dqmag bn.toNat q.toNat)) = b bn q := by
    rw [nextB_eq _ _ _ _ _ hs]
  have hfl := fTab_range r.w g.mi
  have hdms := nextDms_eq _ r.dms.toNat hfl r.dms.isLt
  have hdml := nextDml_eq _ r.dml.toNat hfl r.dml.isLt
  change (_ : Int) = dms at hdms
  change (_ : Int) = dml at hdml
  have hdmsl : nextDms ((fTab r.w).getD g.mi 0) r.dms.toNat < 4096 := Nat.mod_lt _ (by decide)
  have hdmll : nextDml ((fTab r.w).getD g.mi 0) r.dml.toNat < 16384 := Nat.mod_lt _ (by decide)
  have hyu := nextYu_eq _ g.y (wTab_range r.w g.mi) hy
  change (_ : Int) = yu at hyu
  have hyl := nextYl_eq _ r.yl.toNat (nextYu_range ((wTab r.w).getD g.mi 0) g.y) hyl1 hyl2
  rw [hyu] at hyl
  have hof (k n : Nat) (v : Int) (e : (n : Int) = v) : BitVec.ofNat k n = BitVec.ofInt k v := by
    subst e; exact (BitVec.ofInt_natCast k n).symm
  have hax : (speedUp g.y (nextDms ((fTab r.w).getD g.mi 0) r.dms.toNat) (nextDml ((fTab r.w).getD g.mi 0) r.dml.toNat)
      (if a2 < -11776 then 1 else 0) : Int) = ax ∧ speedUp g.y (nextDms ((fTab r.w).getD g.mi 0) r.dms.toNat)
        (nextDml ((fTab r.w).getD g.mi 0) r.dml.toNat) (if a2 < -11776 then 1 else 0) < 2 := by
    rw [speedUp_eq _ _ _ _ hdmsl hdmll]
    simp only [ax, ← hdms, ← hdml]
    generalize nextDms ((fTab r.w).getD g.mi 0) r.dms.toNat = A
    generalize nextDml ((fTab r.w).getD g.mi 0) r.dml.toNat = B
    generalize (4 * (A : Int) - B).natAbs = C
    clear_value a2
    have hC : (C : Int) < (B : Int) / 8 ↔ C < B / 8 := by omega
    simp only [hC]
    by_cases ha : a2 < -11776 <;> simp only [if_pos, if_neg, ha, not_false_eq_true, not_true_eq_false] <;>
      constructor <;> split_ifs <;> first | rfl | decide
  have hap := (nextAp_eq _ r.ap.toNat hax.2 r.ap.isLt).1
  rw [hax.1] at hap
  unfold Adp.commit
  simp only [htone, hB]
  rw [ofNat16_eq_ofInt _ a1 (by omega), ofNat16_eq_ofInt _ a2 (by omega), hof 19 _ _ hyl, hof 13 _ _ hyu, hof 12 _ _ hdms,
    hof 14 _ _ hdml, hof 10 _ _ hap]
  clear_value a2
  congr 1
  by_cases ha : a2 < -11776 <;> cases g.tr <;> simp [ha]

end Sys2Proof.Machine
end

