-- ==== Sys2Proof/Laws/Decode.lean ====
section
/-! SUPPORT. For each field of the serial form: reading what was written gives it back, with the bytes after it
(log entry 2). -/

namespace Sys2Proof

@[simp] theorem Parsed.andThen_ok {α β : Type} (a : α) (r : List Byte) (f : α → List Byte → Parsed β) :
    Parsed.andThen (.ok (a, r)) f = f a r := rfl

@[simp] theorem Parsed.andThen_error {α β : Type} (e : Reject) (f : α → List Byte → Parsed β) :
    Parsed.andThen (.error e : Parsed α) f = .error e := rfl

@[simp] theorem Parsed.as_ok {α β : Type} (a : α) (r : List Byte) (f : α → β) :
    Parsed.as (.ok (a, r)) f = .ok (f a, r) := rfl

@[simp] theorem getByte_cons (b : Byte) (r : List Byte) : getByte (b :: r) = .ok (b, r) := rfl

@[simp] theorem getByte_putByte (b : Byte) (r : List Byte) : getByte (putByte b ++ r) = .ok (b, r) := rfl

@[simp] theorem getFlag_putFlag (f : Bool) (r : List Byte) : getFlag (putFlag f ++ r) = .ok (f, r) := by
  cases f <;> rfl

theorem u16_of_halves (v : U16) : (v >>> 8).setWidth 8 ++ v.setWidth 8 = v := by
  apply BitVec.eq_of_getLsbD_eq
  intro i hi
  simp only [BitVec.getLsbD_append, BitVec.getLsbD_setWidth, BitVec.getLsbD_ushiftRight]
  split
  · simp [*]
  · rename_i h
    have : i - 8 < 8 := by omega
    have h2 : 8 + (i - 8) = i := by omega
    simp [this, h2]

@[simp] theorem getU16_putU16 (v : U16) (r : List Byte) : getU16 (putU16 v ++ r) = .ok (v, r) := by
  simp [getU16, putU16, u16_of_halves]

/-- Reading a written list gives it back, for any element that reads back and any bound that suffices. -/
theorem getListFuel_putList {α : Type} {get : List Byte → Parsed α} {put : α → List Byte}
    (h : ∀ a r, get (put a ++ r) = .ok (a, r)) (as : List α) (r : List Byte) :
    ∀ fuel, as.length < fuel → getListFuel get fuel (putList put as ++ r) = .ok (as, r) := by
  induction as with
  | nil =>
    intro fuel hf
    obtain ⟨n, rfl⟩ : ∃ n, fuel = n + 1 := ⟨fuel - 1, by simp at hf; omega⟩
    simp [getListFuel, putList]
  | cons a as ih =>
    intro fuel hf
    obtain ⟨n, rfl⟩ : ∃ n, fuel = n + 1 := ⟨fuel - 1, by simp at hf; omega⟩
    simp [getListFuel, putList, h, ih n (by simpa using hf)]

theorem length_putList {α : Type} (put : α → List Byte) (as : List α) : as.length < (putList put as).length := by
  induction as with
  | nil => simp [putList, putFlag]
  | cons a as ih => simp [putList, putFlag]; omega

theorem getList_putList {α : Type} {get : List Byte → Parsed α} {put : α → List Byte}
    (h : ∀ a r, get (put a ++ r) = .ok (a, r)) (as : List α) (r : List Byte) :
    getList get (putList put as ++ r) = .ok (as, r) :=
  getListFuel_putList h as r _ (by have := length_putList put as; simp; omega)

@[simp] theorem getList_bytes (as : List Byte) (r : List Byte) : getList getByte (putList putByte as ++ r) = .ok (as, r) :=
  getList_putList getByte_putByte as r

@[simp] theorem getList_samples (as : List Sample) (r : List Byte) : getList getU16 (putList putU16 as ++ r) = .ok (as, r) :=
  getList_putList getU16_putU16 as r

theorem bytesNat_natBytesFuel (fuel n : Nat) (h : n ≤ fuel) : bytesNat (natBytesFuel fuel n) = n := by
  induction fuel generalizing n with
  | zero => simp [natBytesFuel, bytesNat]; omega
  | succ f ih =>
    unfold natBytesFuel
    split
    · simp [bytesNat, *]
    · simp only [bytesNat, BitVec.toNat_ofNat]
      rw [ih (n / 256) (by omega)]
      omega

/-- The last digit of a written number is not 0. -/
theorem natBytesFuel_getLast (fuel n : Nat) (h : n ≤ fuel) : (natBytesFuel fuel n).getLast? ≠ some 0#8 := by
  induction fuel generalizing n with
  | zero => simp [natBytesFuel]
  | succ f ih =>
    unfold natBytesFuel
    split
    · simp
    · rename_i hn
      cases hq : natBytesFuel f (n / 256) with
      | nil =>
        have hz : n / 256 = 0 := by
          have := bytesNat_natBytesFuel f (n / 256) (by omega)
          rw [hq] at this
          simpa [bytesNat] using this.symm
        simp only [List.getLast?_singleton, ne_eq, Option.some.injEq]
        intro hc
        have := congrArg BitVec.toNat hc
        simp at this
        omega
      | cons b l =>
        have := ih (n / 256) (by omega)
        rw [hq] at this
        rwa [List.getLast?_cons_cons]

@[simp] theorem getNat_putNat (n : Nat) (r : List Byte) : getNat (putNat n ++ r) = .ok (n, r) := by
  simp [getNat, putNat, natBytes, natBytesFuel_getLast, bytesNat_natBytesFuel]

@[simp] theorem getInt_putInt (v : Int) (r : List Byte) : getInt (putInt v ++ r) = .ok (v, r) := by
  cases v <;> simp [getInt, putInt]

@[simp] theorem getDir_putDir (own i : Dir) (r : List Byte) : getDir own (putDir own i ++ r) = .ok (i, r) := by
  cases own <;> cases i <;> rfl

@[simp] theorem getPath_putPath (p : Path) (r : List Byte) : getPath (putPath p ++ r) = .ok (p, r) := by
  cases p <;> rfl

@[simp] theorem getMode_putMode (m : Mode) (r : List Byte) : getMode (putMode m ++ r) = .ok (m, r) := by
  cases m <;> rfl

@[simp] theorem getKind_putKind (k : Kind) (r : List Byte) : getKind (putKind k ++ r) = .ok (k, r) := by
  have h : k.toNat < 8 := k.isLt
  simp [getKind, putKind, Nat.mod_eq_of_lt (show k.toNat < 256 by omega), h]

@[simp] theorem getItem_putItem (i : Option U16) (r : List Byte) : getItem (putItem i ++ r) = .ok (i, r) := by
  cases i <;> simp [getItem, putItem]

@[simp] theorem getMessage_putMessage (m : FramedMessage) (r : List Byte) :
    getMessage (putMessage m ++ r) = .ok (m, r) := by
  simp [getMessage, putMessage]

@[simp] theorem getParam_putParam (p : Param) (r : List Byte) : getParam (putParam p ++ r) = .ok (p, r) := by
  simp [getParam, putParam]

@[simp] theorem getList_params (as : List Param) (r : List Byte) :
    getList getParam (putList putParam as ++ r) = .ok (as, r) :=
  getList_putList getParam_putParam as r

@[simp] theorem getWidth_putWidth (w : Int) (r : List Byte) : getWidth (putWidth w ++ r) = .ok (w, r) := by
  simp [getWidth, putWidth]

@[simp] theorem getVideo_putVideo (p : List Byte) (r : List Byte) : getVideo (putVideo p ++ r) = .ok (p, r) := by
  cases p <;> simp [getVideo, putVideo]

/-! ### The other direction: what a field reads from is what it writes -/

theorem Parsed.andThen_ok_inv {α β : Type} {x : Parsed α} {f : α → List Byte → Parsed β} {b : β} {r : List Byte}
    (h : x.andThen f = .ok (b, r)) : ∃ a r', x = .ok (a, r') ∧ f a r' = .ok (b, r) := by
  unfold Parsed.andThen at h
  split at h
  · exact ⟨_, _, rfl, h⟩
  · cases h

theorem Parsed.as_ok_inv {α β : Type} {x : Parsed α} {f : α → β} {b : β} {r : List Byte} (h : x.as f = .ok (b, r)) :
    ∃ a, x = .ok (a, r) ∧ b = f a := by
  obtain ⟨a, r', h1, h2⟩ := Parsed.andThen_ok_inv h
  cases h2
  exact ⟨a, h1, rfl⟩

theorem getByte_inv {bs r : List Byte} {a : Byte} (h : getByte bs = .ok (a, r)) : bs = putByte a ++ r := by
  cases bs with
  | nil => cases h
  | cons b bs => cases h; rfl

theorem halves_of_u16 (hi lo : Byte) : putU16 (hi ++ lo) = [lo, hi] := by
  have h1 : BitVec.setWidth 8 (hi ++ lo : BitVec (8 + 8)) = lo := by
    apply BitVec.eq_of_getLsbD_eq
    intro i h
    simp only [BitVec.getLsbD_setWidth, BitVec.getLsbD_append, h, decide_true, Bool.true_and, if_true]
  have h2 : BitVec.setWidth 8 ((hi ++ lo : BitVec (8 + 8)) >>> 8) = hi := by
    apply BitVec.eq_of_getLsbD_eq
    intro i h
    simp only [BitVec.getLsbD_setWidth, BitVec.getLsbD_ushiftRight, BitVec.getLsbD_append, h, decide_true, Bool.true_and]
    simp
  exact congrArg₂ (fun a b => [a, b]) h1 h2

theorem getU16_inv {bs r : List Byte} {a : U16} (h : getU16 bs = .ok (a, r)) : bs = putU16 a ++ r := by
  obtain ⟨lo, r', h1, h2⟩ := Parsed.andThen_ok_inv h
  obtain ⟨hi, h3, rfl⟩ := Parsed.as_ok_inv h2
  rw [getByte_inv h1, getByte_inv h3, halves_of_u16]
  rfl

theorem getFlag_inv {bs r : List Byte} {a : Bool} (h : getFlag bs = .ok (a, r)) : bs = putFlag a ++ r := by
  obtain ⟨b, r', h1, h2⟩ := Parsed.andThen_ok_inv h
  have h3 := getByte_inv h1
  split at h2
  · cases h2; subst_vars; rfl
  · split at h2
    · cases h2; subst_vars; rfl
    · cases h2

theorem getListFuel_inv {α : Type} {get : List Byte → Parsed α} {put : α → List Byte}
    (H : ∀ {bs r a}, get bs = .ok (a, r) → bs = put a ++ r) (n : Nat) :
    ∀ {bs r : List Byte} {as : List α}, getListFuel get n bs = .ok (as, r) → bs = putList put as ++ r := by
  induction n with
  | zero => intro bs r as h; cases h
  | succ n ih =>
    intro bs r as h
    obtain ⟨b, r', h1, h2⟩ := Parsed.andThen_ok_inv h
    rw [getFlag_inv h1]
    split at h2
    · obtain ⟨a, r'', h3, h4⟩ := Parsed.andThen_ok_inv h2
      obtain ⟨as', h5, rfl⟩ := Parsed.as_ok_inv h4
      rw [H h3, ih h5]
      simp_all [putList]
    · cases h2
      simp_all [putList]

theorem getList_inv {α : Type} {get : List Byte → Parsed α} {put : α → List Byte}
    (H : ∀ {bs r a}, get bs = .ok (a, r) → bs = put a ++ r) {bs r : List Byte} {as : List α}
    (h : getList get bs = .ok (as, r)) : bs = putList put as ++ r :=
  getListFuel_inv H _ h

theorem natBytesFuel_bytesNat (ds : List Byte) (h : ds.getLast? ≠ some 0#8) :
    ∀ fuel, bytesNat ds ≤ fuel → natBytesFuel fuel (bytesNat ds) = ds := by
  induction ds with
  | nil => intro fuel _; cases fuel <;> simp [natBytesFuel, bytesNat]
  | cons b ds ih =>
    intro fuel hf
    have hb := b.isLt
    have hds : ds.getLast? ≠ some 0#8 := by
      cases ds with
      | nil => simp
      | cons c ds => rwa [List.getLast?_cons_cons] at h
    have hpos : bytesNat (b :: ds) ≠ 0 := by
      intro h0
      simp only [bytesNat] at h0
      have hn : bytesNat ds = 0 := by omega
      have hnil := ih hds 0 (by omega)
      rw [hn] at hnil
      simp only [natBytesFuel] at hnil
      subst hnil
      apply h
      have : b = 0#8 := BitVec.eq_of_toNat_eq (by simp; omega)
      simp [this]
    obtain ⟨n, rfl⟩ : ∃ n, fuel = n + 1 := ⟨fuel - 1, by omega⟩
    rw [natBytesFuel, if_neg hpos]
    simp only [bytesNat] at hf hpos ⊢
    have hdiv : (b.toNat + 256 * bytesNat ds) / 256 = bytesNat ds := by omega
    rw [hdiv, ih hds n (by omega)]
    congr 1
    exact BitVec.eq_of_toNat_eq (by simp; omega)

theorem getNat_inv {bs r : List Byte} {n : Nat} (h : getNat bs = .ok (n, r)) : bs = putNat n ++ r := by
  obtain ⟨ds, r', h1, h2⟩ := Parsed.andThen_ok_inv h
  split at h2
  · cases h2
  · cases h2
    rw [getList_inv getByte_inv h1, putNat, natBytes, natBytesFuel_bytesNat ds (by assumption) _ (Nat.le_refl _)]

theorem getInt_inv {bs r : List Byte} {v : Int} (h : getInt bs = .ok (v, r)) : bs = putInt v ++ r := by
  obtain ⟨neg, r', h1, h2⟩ := Parsed.andThen_ok_inv h
  obtain ⟨n, h3, rfl⟩ := Parsed.as_ok_inv h2
  rw [getFlag_inv h1, getNat_inv h3]
  cases neg <;> simp [putInt]

theorem getDir_inv {own i : Dir} {bs r : List Byte} (h : getDir own bs = .ok (i, r)) : bs = putDir own i ++ r := by
  obtain ⟨f, h1, rfl⟩ := Parsed.as_ok_inv h
  rw [getFlag_inv h1]
  cases own <;> cases f <;> rfl

theorem getPath_inv {p : Path} {bs r : List Byte} (h : getPath bs = .ok (p, r)) : bs = putPath p ++ r := by
  obtain ⟨f, h1, rfl⟩ := Parsed.as_ok_inv h
  rw [getFlag_inv h1]
  cases f <;> rfl

theorem getMode_inv {m : Mode} {bs r : List Byte} (h : getMode bs = .ok (m, r)) : bs = putMode m ++ r := by
  obtain ⟨b, r', h1, h2⟩ := Parsed.andThen_ok_inv h
  rw [getByte_inv h1]
  have key : ∀ n : Nat, b.toNat = n → n < 256 → b = BitVec.ofNat 8 n := fun n hn hlt =>
    BitVec.eq_of_toNat_eq (by simp [hn, Nat.mod_eq_of_lt hlt])
  split at h2 <;> cases h2 <;> rename_i hb <;> rw [key _ hb (by decide)] <;> rfl

theorem getKind_inv {k : Kind} {bs r : List Byte} (h : getKind bs = .ok (k, r)) : bs = putKind k ++ r := by
  obtain ⟨b, r', h1, h2⟩ := Parsed.andThen_ok_inv h
  rw [getByte_inv h1]
  split at h2
  · rename_i hb
    cases h2
    have : (b.setWidth 3).setWidth 8 = b := BitVec.eq_of_toNat_eq (by simp; omega)
    simp [putKind, putByte, this]
  · cases h2

theorem getItem_inv {i : Option U16} {bs r : List Byte} (h : getItem bs = .ok (i, r)) : bs = putItem i ++ r := by
  obtain ⟨f, r', h1, h2⟩ := Parsed.andThen_ok_inv h
  rw [getFlag_inv h1]
  split at h2
  · obtain ⟨v, h3, rfl⟩ := Parsed.as_ok_inv h2
    rw [getU16_inv h3]
    simp_all [putItem]
  · cases h2
    simp_all [putItem]

theorem getMessage_inv {m : FramedMessage} {bs r : List Byte} (h : getMessage bs = .ok (m, r)) :
    bs = putMessage m ++ r := by
  obtain ⟨k, r1, h1, h2⟩ := Parsed.andThen_ok_inv h
  obtain ⟨i, r2, h3, h4⟩ := Parsed.andThen_ok_inv h2
  obtain ⟨p, h5, rfl⟩ := Parsed.as_ok_inv h4
  rw [getKind_inv h1, getItem_inv h3, getList_inv getByte_inv h5]
  simp [putMessage]

theorem getParam_inv {p : Param} {bs r : List Byte} (h : getParam bs = .ok (p, r)) : bs = putParam p ++ r := by
  obtain ⟨w, r1, h1, h2⟩ := Parsed.andThen_ok_inv h
  obtain ⟨v, h3, rfl⟩ := Parsed.as_ok_inv h2
  rw [getNat_inv h1, getInt_inv h3]
  simp [putParam]

theorem getWidth_inv {w : Int} {bs r : List Byte} (h : getWidth bs = .ok (w, r)) : bs = putWidth w ++ r := by
  obtain ⟨v, h1, rfl⟩ := Parsed.as_ok_inv h
  rw [getInt_inv h1]
  simp [putWidth]

theorem getVideo_inv {p : List Byte} {bs r : List Byte} (h : getVideo bs = .ok (p, r)) : bs = putVideo p ++ r := by
  obtain ⟨f, r', h1, h2⟩ := Parsed.andThen_ok_inv h
  rw [getFlag_inv h1]
  split at h2
  · cases h2
    simp_all [putVideo]
  · obtain ⟨b, r2, h3, h4⟩ := Parsed.andThen_ok_inv h2
    obtain ⟨d, h5, rfl⟩ := Parsed.as_ok_inv h4
    rw [getByte_inv h3, getList_inv getByte_inv h5]
    simp_all [putVideo]

end Sys2Proof
end

