-- ==== Sys2Proof/Laws/JitterBuffer.lean ====
section
/-! SUPPORT. What pushing and pulling samples give: the ring's form, the queued samples and the events
(spec/43_jitter_buffer.md). -/

namespace Sys2Proof.Machine

@[simp] theorem Jb.queue_length (c : Nat) (j : Jb) : (j.queue c).length = j.level := by simp [Jb.queue]

theorem Jb.queue_getElem? (c : Nat) (j : Jb) (k : Nat) (h : k < j.level) :
    (j.queue c)[k]? = some (j.buf.getD ((j.tail + k) % c) 0) := by simp [Jb.queue, h]

/-- Two queued positions of a ring that is not full are different entries. -/
theorem ring_ne {c a k m : Nat} (hkm : k < m) (hm : m < c) : (a + k) % c ≠ (a + m) % c := by
  intro h
  have h1 : (a + k) % c = (a + k + (m - k)) % c := by rw [h]; congr 1; omega
  have h2 := Nat.div_add_mod (a + k) c
  have h3 := Nat.div_add_mod (a + k + (m - k)) c
  rw [← h1] at h3
  have h4 : c * ((a + k + (m - k)) / c) = c * ((a + k) / c) + (m - k) := by omega
  have h5 : c ∣ m - k := by
    refine ⟨(a + k + (m - k)) / c - (a + k) / c, ?_⟩
    rw [Nat.mul_sub]
    omega
  have := Nat.le_of_dvd (by omega) h5
  omega

/-- Everything one pushed sample does to a ring in its form (R222 to R224). -/
theorem Jb.pushOne_spec (c : Nat) (j : Jb) (x : Sample) (hc : capacityOk c) (hj : j.Wf c) :
    (j.pushOne c x).1.Wf c ∧
    (j.pushOne c x).1.queue c = queuePush c (j.queue c) x ∧
    (j.pushOne c x).1.head = (j.head + 1) % c ∧
    (j.pushOne c x).1.buf = j.buf.set j.head x ∧
    (j.pushOne c x).1.underruns = j.underruns ∧
    (j.pushOne c x).1.overruns = j.overruns + (j.pushOne c x).2.length ∧
    (j.pushOne c x).2 = List.replicate (j.pushOne c x).2.length .overrun := by
  obtain ⟨hc1, hc2⟩ := hc
  obtain ⟨w1, w2, w3, w4, w5, w6, w7⟩ := hj
  have hset : (j.buf.set j.head x).length = c := by simp [w1]
  have happ : ∀ k < j.level + 1, (j.queue c ++ [x])[k]? = some ((j.buf.set j.head x).getD ((j.tail + k) % c) 0) := by
    intro k hk
    rcases Nat.lt_or_ge k j.level with h | h
    · rw [List.getElem?_append_left (by simpa using h), Jb.queue_getElem? c j k h]
      have hne : j.head ≠ (j.tail + k) % c := by rw [w5]; exact (ring_ne h w4).symm
      simp [List.getD_eq_getElem?_getD, List.getElem?_set_ne hne]
    · have hkl : k = j.level := by omega
      subst hkl
      rw [List.getElem?_append_right (by simp), ← w5]
      simp [List.getD_eq_getElem?_getD, w1, w2]
  by_cases hfull : j.level + 1 = c
  · have hst : j.startup = false := by
      cases h : j.startup with
      | false => rfl
      | true => have := (w6 h).1; omega
    have he : j.pushOne c x = ({ j with
        buf := j.buf.set j.head x, head := (j.head + 1) % c, tail := (j.tail + c / 2) % c, level := c / 2
        overruns := j.overruns + 1 }, [.overrun]) := by
      simp [Jb.pushOne, hfull, startupEnds, hst, Jb.overrun]
    rw [he]
    refine ⟨⟨hset, Nat.mod_lt _ (by omega), Nat.mod_lt _ (by omega), by show c / 2 < c; omega, ?_, ?_, w7⟩, ?_, rfl, rfl, rfl,
      rfl, rfl⟩
    · show (j.head + 1) % c = ((j.tail + c / 2) % c + c / 2) % c
      rw [w5, Nat.mod_add_mod, Nat.mod_add_mod]
      congr 1
      omega
    · intro h
      rw [show j.startup = true from h] at hst
      cases hst
    · apply List.ext_getElem?
      intro k
      rw [queuePush, if_pos (by simp [hfull]), List.getElem?_drop]
      by_cases hk : k < c / 2
      · rw [happ _ (by omega), Jb.queue_getElem? _ _ _ hk]
        simp only [Nat.mod_add_mod, Nat.add_assoc]
      · rw [List.getElem?_eq_none (by simpa using hk), List.getElem?_eq_none (by simp; omega)]
  · by_cases hs : startupEnds c j.startup (j.level + 1) = true
    · have he : j.pushOne c x = ({ j with
          buf := j.buf.set j.head x, head := (j.head + 1) % c, level := j.level + 1, startup := false
          avg := ((c / 2 : Nat) : Rat), consumed := 0 }, []) := by
        simp [Jb.pushOne, hfull, hs, Jb.arm]
      rw [he]
      refine ⟨⟨hset, Nat.mod_lt _ (by omega), w3, by show j.level + 1 < c; omega, ?_, fun h => by simp at h,
        by show 0 < driftPeriod; decide⟩, ?_, rfl, rfl, rfl, rfl, rfl⟩
      · show (j.head + 1) % c = (j.tail + (j.level + 1)) % c
        rw [w5, Nat.mod_add_mod]
        congr 1
      · apply List.ext_getElem?
        intro k
        rw [queuePush, if_neg (by simp [hfull])]
        by_cases hk : k < j.level + 1
        · rw [happ _ hk, Jb.queue_getElem? _ _ _ hk]
        · rw [List.getElem?_eq_none (by simpa using hk), List.getElem?_eq_none (by simp; omega)]
    · have he : j.pushOne c x = ({ j with
          buf := j.buf.set j.head x, head := (j.head + 1) % c, level := j.level + 1 }, []) := by
        simp [Jb.pushOne, hfull, hs]
      rw [he]
      refine ⟨⟨hset, Nat.mod_lt _ (by omega), w3, by show j.level + 1 < c; omega, ?_, ?_, w7⟩, ?_, rfl, rfl, rfl, rfl, rfl⟩
      · show (j.head + 1) % c = (j.tail + (j.level + 1)) % c
        rw [w5, Nat.mod_add_mod]
        congr 1
      · intro h
        have h' : j.startup = true := h
        refine ⟨?_, (w6 h').2⟩
        simp only [startupEnds, h', Bool.true_and, decide_eq_true_eq, not_lt] at hs
        exact hs
      · apply List.ext_getElem?
        intro k
        rw [queuePush, if_neg (by simp [hfull])]
        by_cases hk : k < j.level + 1
        · rw [happ _ hk, Jb.queue_getElem? _ _ _ hk]
        · rw [List.getElem?_eq_none (by simpa using hk), List.getElem?_eq_none (by simp; omega)]

/-- The samples of a block pushed one after another. -/
theorem Jb.pushAll_spec (c : Nat) (x : List Sample) (hc : capacityOk c) : ∀ j : Jb, j.Wf c →
    (j.pushAll c x).1.Wf c ∧
    (j.pushAll c x).1.queue c = x.foldl (queuePush c) (j.queue c) ∧
    (j.pushAll c x).1.head = (j.head + x.length) % c ∧
    (∀ a < c, (∀ k < x.length, (j.head + k) % c ≠ a) → (j.pushAll c x).1.buf[a]? = j.buf[a]?) ∧
    (j.pushAll c x).1.underruns = j.underruns ∧
    (j.pushAll c x).1.overruns = j.overruns + (j.pushAll c x).2.length ∧
    (j.pushAll c x).2 = List.replicate (j.pushAll c x).2.length .overrun := by
  induction x with
  | nil =>
    intro j hj
    exact ⟨hj, rfl, by show j.head = _; rw [List.length_nil, Nat.add_zero, Nat.mod_eq_of_lt hj.2.1], fun _ _ _ => rfl, rfl, rfl, rfl⟩
  | cons v x ih =>
    intro j hj
    obtain ⟨a1, a2, a3, a4, a5, a6, a7⟩ := j.pushOne_spec c v hc hj
    obtain ⟨b1, b2, b3, b4, b5, b6, b7⟩ := ih _ a1
    refine ⟨b1, ?_, ?_, ?_, b5.trans a5, ?_, ?_⟩
    · show ((j.pushOne c v).1.pushAll c x).1.queue c = _
      rw [b2, a2]
      rfl
    · show ((j.pushOne c v).1.pushAll c x).1.head = _
      rw [b3, a3, Nat.mod_add_mod, List.length_cons]
      congr 1
      omega
    · intro a ha h
      show ((j.pushOne c v).1.pushAll c x).1.buf[a]? = _
      rw [b4 a ha, a4]
      · have h0 := h 0 (by simp)
        rw [Nat.add_zero, Nat.mod_eq_of_lt hj.2.1] at h0
        exact List.getElem?_set_ne h0
      · intro k hk
        have := h (k + 1) (by simpa using hk)
        rw [a3, Nat.mod_add_mod]
        rwa [show j.head + 1 + k = j.head + (k + 1) by omega]
    · show ((j.pushOne c v).1.pushAll c x).1.overruns = _ + ((j.pushOne c v).2 ++ ((j.pushOne c v).1.pushAll c x).2).length
      rw [b6, a6, List.length_append]
      omega
    · show (j.pushOne c v).2 ++ ((j.pushOne c v).1.pushAll c x).2 = _
      rw [a7, b7]
      simp [Jb.pushAll]

/-- Smoothing writes AVG only. -/
theorem Jb.smooth_eq (j : Jb) : ∃ v : Rat, j.smooth = { j with avg := v } := by
  unfold Jb.smooth
  split
  · exact ⟨j.avg, rfl⟩
  · exact ⟨_, rfl⟩

/-- Everything `JB_PUSH` does to a ring in its form (R222). -/
theorem Jb.push_spec (c : Nat) (j : Jb) (x : List Sample) (hc : capacityOk c) (hj : j.Wf c) :
    (j.push c x).1.Wf c ∧
    (j.push c x).1.queue c = x.foldl (queuePush c) (j.queue c) ∧
    (j.push c x).1.head = (j.head + x.length) % c ∧
    (∀ a < c, (∀ k < x.length, (j.head + k) % c ≠ a) → (j.push c x).1.buf[a]? = j.buf[a]?) ∧
    (j.push c x).1.underruns = j.underruns ∧
    (j.push c x).1.overruns = j.overruns + (j.push c x).2.length ∧
    (j.push c x).2 = List.replicate (j.push c x).2.length .overrun := by
  have h := Jb.pushAll_spec c x hc j hj
  obtain ⟨v, hv⟩ := (j.pushAll c x).1.smooth_eq
  unfold Jb.push
  simp only [hv]
  exact h

/-- Everything one pushed sample does to the level, start-up and the statistics of a ring in its form (R222 to R224). -/
theorem Jb.pushOne_startup (c : Nat) (j : Jb) (x : Sample) (hc : capacityOk c) (hj : j.Wf c) :
    j.level + 1 = (j.pushOne c x).1.level + c / 2 * (j.pushOne c x).2.length ∧ (j.pushOne c x).1.drift = j.drift ∧
    (j.startup = false → (j.pushOne c x).1.startup = false ∧ (j.pushOne c x).1.consumed = j.consumed ∧
      (j.pushOne c x).1.avg = j.avg) ∧
    (j.startup = true → j.level + 1 ≤ c / 2 → (j.pushOne c x).1.startup = true ∧
      (j.pushOne c x).1.consumed = j.consumed ∧ (j.pushOne c x).1.avg = j.avg) ∧
    (j.startup = true → c / 2 < j.level + 1 → (j.pushOne c x).1.startup = false ∧ (j.pushOne c x).1.consumed = 0 ∧
      (j.pushOne c x).1.avg = ((c / 2 : Nat) : Rat)) := by
  obtain ⟨hc1, hc2⟩ := hc
  obtain ⟨_, _, _, w4, _, w6, _⟩ := hj
  by_cases hfull : j.level + 1 = c
  · have hst : j.startup = false := by
      cases h : j.startup with
      | false => rfl
      | true => have := (w6 h).1; omega
    simp [Jb.pushOne, hfull, startupEnds, hst, Jb.overrun]
    omega
  · cases hst : j.startup with
    | false => simp [Jb.pushOne, hfull, startupEnds, hst]
    | true =>
      by_cases hl : c / 2 < j.level + 1
      · simp [Jb.pushOne, hfull, startupEnds, hst, hl, Jb.arm]
        omega
      · simp [Jb.pushOne, hfull, startupEnds, hst, hl]

/-- A block pushed sample by sample leaves start-up exactly where its level passes half the capacity (R222 to R224). -/
theorem Jb.pushAll_startup (c : Nat) (x : List Sample) (hc : capacityOk c) : ∀ j : Jb, j.Wf c →
    j.level + x.length = (j.pushAll c x).1.level + c / 2 * (j.pushAll c x).2.length ∧ (j.pushAll c x).1.drift = j.drift ∧
    (j.startup = false → (j.pushAll c x).1.startup = false ∧ (j.pushAll c x).1.consumed = j.consumed ∧
      (j.pushAll c x).1.avg = j.avg) ∧
    (j.startup = true → j.level + x.length ≤ c / 2 → (j.pushAll c x).1.startup = true ∧
      (j.pushAll c x).1.consumed = j.consumed ∧ (j.pushAll c x).1.avg = j.avg) ∧
    (j.startup = true → c / 2 < j.level + x.length → (j.pushAll c x).1.startup = false ∧
      (j.pushAll c x).1.consumed = 0 ∧ (j.pushAll c x).1.avg = ((c / 2 : Nat) : Rat)) := by
  induction x with
  | nil =>
    intro j hj
    refine ⟨rfl, rfl, fun h => ⟨h, rfl, rfl⟩, fun h _ => ⟨h, rfl, rfl⟩, fun h hl => ?_⟩
    have := (hj.2.2.2.2.2.1 h).1
    simp only [List.length_nil] at hl
    omega
  | cons v x ih =>
    intro j hj
    obtain ⟨a1, a2, a3, a4, a5⟩ := j.pushOne_startup c v hc hj
    obtain ⟨b1, b2, b3, b4, b5⟩ := ih _ (j.pushOne_spec c v hc hj).1
    have hlen : (Jb.pushAll c j (v :: x)).2.length = (j.pushOne c v).2.length + ((j.pushOne c v).1.pushAll c x).2.length :=
      List.length_append
    rw [hlen, Nat.mul_add, List.length_cons]
    show _ = ((j.pushOne c v).1.pushAll c x).1.level + _ ∧ ((j.pushOne c v).1.pushAll c x).1.drift = _ ∧
      (_ → ((j.pushOne c v).1.pushAll c x).1.startup = _ ∧ ((j.pushOne c v).1.pushAll c x).1.consumed = _ ∧
        ((j.pushOne c v).1.pushAll c x).1.avg = _) ∧
      (_ → _ → ((j.pushOne c v).1.pushAll c x).1.startup = _ ∧ ((j.pushOne c v).1.pushAll c x).1.consumed = _ ∧
        ((j.pushOne c v).1.pushAll c x).1.avg = _) ∧
      (_ → _ → ((j.pushOne c v).1.pushAll c x).1.startup = _ ∧ ((j.pushOne c v).1.pushAll c x).1.consumed = _ ∧
        ((j.pushOne c v).1.pushAll c x).1.avg = _)
    refine ⟨by omega, b2.trans a2, fun h => ?_, fun h hl => ?_, fun h hl => ?_⟩
    · obtain ⟨p1, p2, p3⟩ := a3 h
      obtain ⟨q1, q2, q3⟩ := b3 p1
      exact ⟨q1, q2.trans p2, q3.trans p3⟩
    · obtain ⟨p1, p2, p3⟩ := a4 h (by omega)
      have hlev : (j.pushOne c v).1.level ≤ j.level + 1 := by omega
      obtain ⟨q1, q2, q3⟩ := b4 p1 (by omega)
      exact ⟨q1, q2.trans p2, q3.trans p3⟩
    · by_cases h1 : c / 2 < j.level + 1
      · obtain ⟨p1, p2, p3⟩ := a5 h h1
        obtain ⟨q1, q2, q3⟩ := b3 p1
        exact ⟨q1, q2.trans p2, q3.trans p3⟩
      · have hev : (j.pushOne c v).2.length = 0 := by
          rcases Nat.eq_zero_or_pos (j.pushOne c v).2.length with h0 | h0
          · exact h0
          · have : c / 2 * 1 ≤ c / 2 * (j.pushOne c v).2.length := Nat.mul_le_mul_left _ h0
            have hlv := ((j.pushOne_spec c v hc hj).1.2.2.2.2.2.1)
            have hc4 := hc.2
            have := (a4 h (by omega)).1
            have hst : (j.pushOne c v).1.level = 0 := by omega
            exact absurd (show (j.pushOne c v).1.level ≠ 0 from by
              have hn : ¬ j.level + 1 = c := by have := hc.1; omega
              have hs : startupEnds c j.startup (j.level + 1) = false := by simp [startupEnds, h, h1]
              simp [Jb.pushOne, hn, hs]) (by simp [hst])
        rw [hev, Nat.mul_zero, Nat.add_zero] at a1
        obtain ⟨q1, q2, q3⟩ := b5 (a4 h (by omega)).1 (by omega)
        exact ⟨q1, q2, q3⟩

/-- AVG after a block that leaves start-up, or came without it, moves once to the level; else it stays (R222, R224). -/
theorem Jb.smooth_avg (j : Jb) :
    j.smooth.avg = if j.startup then j.avg else j.avg + 1 / 50 * ((j.level : Rat) - j.avg) := by
  unfold Jb.smooth alpha
  split <;> rfl

/-- Everything `JB_PUSH` does to the level, start-up and the statistics of a ring in its form: AVG moves once, after the
block, and not in start-up (R222 to R224). -/
theorem Jb.push_startup (c : Nat) (j : Jb) (x : List Sample) (hc : capacityOk c) (hj : j.Wf c) :
    j.level + x.length = (j.push c x).1.level + c / 2 * (j.push c x).2.length ∧ (j.push c x).1.drift = j.drift ∧
    (j.startup = false → (j.push c x).1.startup = false ∧ (j.push c x).1.consumed = j.consumed ∧
      (j.push c x).1.avg = j.avg + 1 / 50 * (((j.push c x).1.level : Rat) - j.avg)) ∧
    (j.startup = true → j.level + x.length ≤ c / 2 → (j.push c x).1.startup = true ∧
      (j.push c x).1.consumed = j.consumed ∧ (j.push c x).1.avg = j.avg) ∧
    (j.startup = true → c / 2 < j.level + x.length → (j.push c x).1.startup = false ∧ (j.push c x).1.consumed = 0 ∧
      (j.push c x).1.avg = ((c / 2 : Nat) : Rat) + 1 / 50 * (((j.push c x).1.level : Rat) - ((c / 2 : Nat) : Rat))) := by
  obtain ⟨b1, b2, b3, b4, b5⟩ := Jb.pushAll_startup c x hc j hj
  have hav := (j.pushAll c x).1.smooth_avg
  obtain ⟨v, hv⟩ := (j.pushAll c x).1.smooth_eq
  have hj' : (j.push c x).1 = { (j.pushAll c x).1 with avg := v } := hv
  rw [hv] at hav
  simp only [hj', show (j.push c x).2 = (j.pushAll c x).2 from rfl]
  refine ⟨b1, b2, fun h => ?_, fun h hl => ?_, fun h hl => ?_⟩
  · obtain ⟨c1, c2, c3⟩ := b3 h
    exact ⟨c1, c2, by simpa [c1, c3] using hav⟩
  · obtain ⟨c1, c2, c3⟩ := b4 h hl
    exact ⟨c1, c2, by simpa [c1, c3] using hav⟩
  · obtain ⟨c1, c2, c3⟩ := b5 h hl
    exact ⟨c1, c2, by simpa [c1, c3] using hav⟩

/-- The events of `JB_PUSH` in any register contents: only `Overrun`, one for each count. -/
theorem Jb.push_events (c : Nat) (j : Jb) (x : List Sample) :
    (∀ e ∈ (j.push c x).2, e = .overrun) ∧ (j.push c x).1.overruns = j.overruns + (j.push c x).2.length ∧
      (j.push c x).1.underruns = j.underruns := by
  have one : ∀ (j : Jb) (v : Sample), (∀ e ∈ (j.pushOne c v).2, e = .overrun) ∧
      (j.pushOne c v).1.overruns = j.overruns + (j.pushOne c v).2.length ∧ (j.pushOne c v).1.underruns = j.underruns := by
    intro j v
    unfold Jb.pushOne
    extract_lets j1 full j2 j3
    have h2 : j2.overruns = j.overruns + (if full = true then 1 else 0) ∧ j2.underruns = j.underruns := by
      simp only [j2]
      split <;> simp_all [Jb.overrun, j1]
    have h3 : j3.overruns = j2.overruns ∧ j3.underruns = j2.underruns := by
      simp only [j3]
      split <;> simp [Jb.arm]
    refine ⟨?_, ?_, by rw [h3.2, h2.2]⟩
    · intro e he
      simp only at he
      split at he <;> simp_all
    · simp only [h3.1, h2.1]
      split <;> simp
  have all : ∀ (x : List Sample) (j : Jb), (∀ e ∈ (j.pushAll c x).2, e = .overrun) ∧
      (j.pushAll c x).1.overruns = j.overruns + (j.pushAll c x).2.length ∧
      (j.pushAll c x).1.underruns = j.underruns := by
    intro x
    induction x with
    | nil => intro j; exact ⟨fun e he => by simp [Jb.pushAll] at he, rfl, rfl⟩
    | cons v x ih =>
      intro j
      obtain ⟨a1, a2, a3⟩ := one j v
      obtain ⟨b1, b2, b3⟩ := ih (j.pushOne c v).1
      refine ⟨?_, ?_, b3.trans a3⟩
      · intro e he
        rcases List.mem_append.1 (show e ∈ (j.pushOne c v).2 ++ _ from he) with h | h
        · exact a1 e h
        · exact b1 e h
      · show ((j.pushOne c v).1.pushAll c x).1.overruns =
          _ + ((j.pushOne c v).2 ++ ((j.pushOne c v).1.pushAll c x).2).length
        rw [b2, a2, List.length_append]
        omega
  obtain ⟨v, hv⟩ := (j.pushAll c x).1.smooth_eq
  unfold Jb.push
  simp only [hv]
  exact all x j

/-! ### Pull -/

/-- Counting writes DRIFT and CONSUMED only, and keeps CONSUMED below the period (R226). -/
theorem Jb.countConsumed_eq (c : Nat) (gain : Rat) (j : Jb) :
    ∃ (n : Nat) (d : Rat), j.countConsumed c gain = { j with consumed := n, drift := d } ∧
      (j.consumed < driftPeriod → n = (j.consumed + 1) % driftPeriod) := by
  unfold Jb.countConsumed
  simp only
  split
  · rename_i h
    exact ⟨0, _, rfl, fun _ => by rw [h, Nat.mod_self]⟩
  · rename_i h
    exact ⟨j.consumed + 1, j.drift, rfl, fun hl => by rw [Nat.mod_eq_of_lt (by omega)]⟩

/-- What one pulled sample never changes, and the events it raises (R225). -/
theorem Jb.pullOne_frame (c : Nat) (gain : Rat) (j : Jb) :
    (j.pullOne c gain).2.1.buf = j.buf ∧ (j.pullOne c gain).2.1.head = j.head ∧
      (j.pullOne c gain).2.1.startup = j.startup ∧ (j.pullOne c gain).2.1.overruns = j.overruns ∧
      (j.pullOne c gain).2.1.underruns = j.underruns + (j.pullOne c gain).2.2.length ∧
      (∀ e ∈ (j.pullOne c gain).2.2, e = .underrun) := by
  unfold Jb.pullOne
  split
  · simp
  · split
    · obtain ⟨n, d, h, _⟩ := (j.underrun c).countConsumed_eq c gain
      rw [h]
      simp [Jb.underrun]
    · obtain ⟨n, d, h, _⟩ := ({ j with tail := (j.tail + 1) % c, level := j.level - 1 } : Jb).countConsumed_eq c gain
      simp [h]

/-- One pulled sample keeps the ring's form. -/
theorem Jb.pullOne_wf (c : Nat) (gain : Rat) (j : Jb) (hc : capacityOk c) (hj : j.Wf c) :
    (j.pullOne c gain).2.1.Wf c := by
  obtain ⟨hc1, hc2⟩ := hc
  obtain ⟨w1, w2, w3, w4, w5, w6, w7⟩ := hj
  have hd : ∀ n, n % driftPeriod < driftPeriod := fun n => Nat.mod_lt _ (by decide)
  unfold Jb.pullOne
  split
  · exact ⟨w1, w2, w3, w4, w5, w6, w7⟩
  · rename_i hs
    split
    · rename_i hl
      obtain ⟨n, d, h, hn⟩ := (j.underrun c).countConsumed_eq c gain
      simp only [h]
      refine ⟨w1, w2, Nat.mod_lt _ (by omega), by show c / 2 < c; omega, ?_, fun h' => absurd h' hs, by rw [hn w7]; exact hd _⟩
      show j.head = ((j.tail + (c - c / 2)) % c + c / 2) % c
      rw [w5, hl, Nat.mod_add_mod, show j.tail + (c - c / 2) + c / 2 = j.tail + 0 + c by omega, Nat.add_mod_right]
    · rename_i hl
      obtain ⟨n, d, h, hn⟩ := ({ j with tail := (j.tail + 1) % c, level := j.level - 1 } : Jb).countConsumed_eq c gain
      simp only [h]
      refine ⟨w1, w2, Nat.mod_lt _ (by omega), by show j.level - 1 < c; omega, ?_, fun h' => absurd h' hs,
        by rw [hn w7]; exact hd _⟩
      show j.head = ((j.tail + 1) % c + (j.level - 1)) % c
      rw [w5, Nat.mod_add_mod]
      congr 1
      omega

/-- What `JB_PULL` never changes, the samples it gives and the events it raises (R225). -/
theorem Jb.pull_frame (c : Nat) (gain : Rat) (n : Nat) : ∀ j : Jb,
    (j.pull c gain n).1.length = n ∧
    (j.pull c gain n).2.1.buf = j.buf ∧ (j.pull c gain n).2.1.head = j.head ∧
      (j.pull c gain n).2.1.startup = j.startup ∧ (j.pull c gain n).2.1.overruns = j.overruns ∧
      (j.pull c gain n).2.1.underruns = j.underruns + (j.pull c gain n).2.2.length ∧
      (∀ e ∈ (j.pull c gain n).2.2, e = .underrun) := by
  induction n with
  | zero => intro j; simp [Jb.pull]
  | succ n ih =>
    intro j
    obtain ⟨a1, a2, a3, a4, a5, a6⟩ := j.pullOne_frame c gain
    obtain ⟨b0, b1, b2, b3, b4, b5, b6⟩ := ih (j.pullOne c gain).2.1
    refine ⟨by simp [Jb.pull, b0], b1.trans a1, b2.trans a2, b3.trans a3, b4.trans a4, ?_, ?_⟩
    · show ((j.pullOne c gain).2.1.pull c gain n).2.1.underruns = _ + ((j.pullOne c gain).2.2 ++ _).length
      rw [b5, a5, List.length_append]
      omega
    · intro e he
      rcases List.mem_append.1 (show e ∈ (j.pullOne c gain).2.2 ++ _ from he) with h | h
      · exact a6 e h
      · exact b6 e h

theorem Jb.pull_wf (c : Nat) (gain : Rat) (n : Nat) (hc : capacityOk c) : ∀ j : Jb, j.Wf c →
    (j.pull c gain n).2.1.Wf c := by
  induction n with
  | zero => intro j hj; exact hj
  | succ n ih => intro j hj; exact ih _ (j.pullOne_wf c gain hc hj)

/-- Out of start-up, up to the level, the oldest queued samples come in order and no event is raised. -/
theorem Jb.pull_queue (c : Nat) (gain : Rat) (n : Nat) : ∀ j : Jb, j.tail < c → j.startup = false → n ≤ j.level →
    (j.pull c gain n).1 = (j.queue c).take n ∧ (j.pull c gain n).2.1.queue c = (j.queue c).drop n ∧
      (j.pull c gain n).2.2 = [] := by
  induction n with
  | zero => intro j _ _ _; simp [Jb.pull]
  | succ n ih =>
    intro j ht hs hl
    obtain ⟨m, d, h, _⟩ := ({ j with tail := (j.tail + 1) % c, level := j.level - 1 } : Jb).countConsumed_eq c gain
    have h1 : j.pullOne c gain =
        (j.buf.getD j.tail 0, { j with tail := (j.tail + 1) % c, level := j.level - 1, consumed := m, drift := d }, []) := by
      have : ¬j.level = 0 := by omega
      unfold Jb.pullOne
      rw [if_neg (by simp [hs]), if_neg this, h]
    have hq : j.queue c = j.buf.getD j.tail 0 ::
        Jb.queue c { j with tail := (j.tail + 1) % c, level := j.level - 1, consumed := m, drift := d } := by
      apply List.ext_getElem?
      intro k
      cases k with
      | zero => rw [Jb.queue_getElem? c j 0 (by omega)]; simp [Nat.mod_eq_of_lt ht]
      | succ k =>
        by_cases hk : k + 1 < j.level
        · rw [Jb.queue_getElem? c j _ hk, List.getElem?_cons_succ, Jb.queue_getElem? _ _ _ (by show k < j.level - 1; omega)]
          simp only [Nat.mod_add_mod]
          congr 3
          omega
        · rw [List.getElem?_eq_none (by simpa using hk), List.getElem?_eq_none (by simp; omega)]
    obtain ⟨r1, r2, r3⟩ := ih { j with tail := (j.tail + 1) % c, level := j.level - 1, consumed := m, drift := d }
      (Nat.mod_lt _ (by omega)) hs (by show n ≤ j.level - 1; omega)
    simp only [Jb.pull, h1]
    rw [hq]
    exact ⟨by rw [r1]; rfl, by rw [r2]; rfl, by rw [r3]; rfl⟩

/-- A longer pull does what its parts do one after another (R225). -/
theorem Jb.pull_add (c : Nat) (gain : Rat) (m n : Nat) (j : Jb) :
    j.pull c gain (m + n) =
      ((j.pull c gain m).1 ++ ((j.pull c gain m).2.1.pull c gain n).1, ((j.pull c gain m).2.1.pull c gain n).2.1,
        (j.pull c gain m).2.2 ++ ((j.pull c gain m).2.1.pull c gain n).2.2) := by
  induction m generalizing j with
  | zero => rw [Nat.zero_add]; rfl
  | succ m ih =>
    rw [Nat.succ_add]
    simp only [Jb.pull, ih, List.cons_append, List.append_assoc]

theorem Jb.pull_startup (c : Nat) (gain : Rat) (n : Nat) (j : Jb) (h : j.startup = true) :
    j.pull c gain n = (List.replicate n 0, j, []) := by
  induction n with
  | zero => rfl
  | succ n ih =>
    have h1 : j.pullOne c gain = (0, j, []) := by simp [Jb.pullOne, h]
    simp only [Jb.pull, h1, ih]
    rfl

/-- The reset ring has the form. -/
theorem Jb.idle_wf (c u o : Nat) (hc : capacityOk c) : (Jb.idle c u o).Wf c := by
  obtain ⟨_, h⟩ := hc
  refine ⟨by simp [Jb.idle], by show 0 < c; omega, by show 0 < c; omega, by show 0 < c; omega, by simp [Jb.idle], ?_,
    by show 0 < driftPeriod; decide⟩
  intro _
  exact ⟨by simp [Jb.idle], rfl⟩

end Sys2Proof.Machine
end

