-- ==== Sys2Proof/Laws/MessageFramer.lean ====
section
/-! SUPPORT. What the framer and the message encoder give: the header fields, the framer's form, and the body of a message
byte by byte (spec/44_message_framer.md). -/

namespace Sys2Proof.Machine

/-! ### The header word (R94, R97) -/

theorem or_shiftLeft (a b n : Nat) (h : a < 2 ^ n) : a ||| (b <<< n) = a + 2 ^ n * b := by
  rw [Nat.or_comm, Nat.shiftLeft_eq, Nat.mul_comm b, ← Nat.two_pow_add_eq_or_of_lt h, Nat.add_comm]

theorem headerWord_eq (lo hi : Byte) : headerWord lo hi = lo.toNat + 256 * hi.toNat := or_shiftLeft _ _ 8 lo.isLt

theorem headerOf_eq (kind : Kind) (len : Nat) (h : lengthField len < 8192) :
    headerOf kind len = kind.toNat * 8192 + lengthField len := by
  rw [headerOf, Nat.or_comm, or_shiftLeft _ _ 13 h]
  omega

/-- The length field of an encodable length declares it. -/
theorem declaredLength_lengthField (len : Nat) (h0 : len ≠ 0) : declaredLength (lengthField len) = len := by
  unfold declaredLength lengthField
  split_ifs <;> omega

/-! ### Feeding (R240 to R245) -/

/-- `MF_FEED` on a framer without fault. -/
theorem exec_mfFeed {s : State} (b : Byte) (h : s.poweredOn = true) (hf : s.mf.fault = false) :
    exec (.mfFeed b) s = .next { s with
      mf := (s.mf.feed s.cfg.maxMsgLen b).1
      log := s.log ++ (s.mf.feed s.cfg.maxMsgLen b).2.2
      results := s.results ++ [.message (s.mf.feed s.cfg.maxMsgLen b).2.1] } := by
  refine (State.whenOn_on h _).trans ((if_neg ?_).trans rfl)
  simp [hf]

theorem exec_mfFeed_of {s : State} {b : Byte} {m : Mf} {out : Option FramedMessage} (h : s.poweredOn = true)
    (hf : s.mf.fault = false) (he : s.mf.feed s.cfg.maxMsgLen b = (m, out, [])) :
    exec (.mfFeed b) s = .next { s with mf := m, results := s.results ++ [.message out] } := by
  rw [exec_mfFeed b h hf, he]
  simp

/-- The framer keeps its form, and raises at most one event. -/
theorem Mf.feed_wf (maxLen : Nat) (m : Mf) (b : Byte) (hm : m.Wf maxLen) (hf : m.fault = false) :
    (m.feed maxLen b).1.Wf maxLen := by
  obtain ⟨w1, w2, w3, w4, w5, w6⟩ := hm
  unfold Mf.feed
  split
  · refine ⟨by simp [Mf.feedHeader1], w2, w3, ?_, ?_, ?_⟩ <;> simp [Mf.feedHeader1, hf]
  · rename_i hs
    have hb := (w5 hs).1 hf
    unfold Mf.feedHeader2
    extract_lets hdr len m1
    have hlf : lenField hdr < 8192 := Nat.mod_lt _ (by decide)
    have hlen : len = if lenField hdr = 0 then 8194 else lenField hdr := rfl
    split
    · exact ⟨by simp [m1, hb], w2, w3, by simp [m1, hs], fun _ => ⟨fun h => by simp at h, fun _ => rfl⟩,
        by simp [m1, hs]⟩
    · split
      · exact ⟨by simp, by simp, by simp, by simp [m1, hf], by simp, by simp⟩
      · rename_i hv h2
        simp only [framingViolates, Bool.or_eq_true, decide_eq_true_eq, not_or] at hv
        have h1 : 2 ≤ len := by
          rw [hlen] at hv ⊢
          split_ifs at hv ⊢ <;> omega
        have h8 : len ≤ 8194 := by rw [hlen]; split <;> omega
        refine ⟨by simp [m1, hb], h1, h8, by simp, by simp, ?_⟩
        intro _
        exact ⟨hf, by simp [m1], by show 2 < len; omega, by show 4 ≤ len; omega, by show len ≤ maxLen; omega⟩
  · rename_i hs
    obtain ⟨_, h2, h3, h4, h5⟩ := w6 hs
    unfold Mf.feedBody
    extract_lets m1
    split
    · exact ⟨by simp, w2, w3, by simp [m1, hf], by simp, by simp⟩
    · rename_i hne
      refine ⟨by simp [m1, w1], w2, w3, by simp [m1, hs], by simp [m1, hs], ?_⟩
      intro _
      have : m1.idx = m.idx + 1 := rfl
      have : m1.len = m.len := rfl
      exact ⟨hf, by show 2 ≤ m1.idx; omega, by show m1.idx < m1.len; omega, h4, h5⟩

theorem Mf.feed_events (maxLen : Nat) (m : Mf) (b : Byte) :
    (m.feed maxLen b).2.2 = [] ∨ ∃ n, (m.feed maxLen b).2.2 = [.framingViolation n] := by
  unfold Mf.feed
  split
  · exact .inl rfl
  · unfold Mf.feedHeader2
    extract_lets
    split
    · exact .inr ⟨_, rfl⟩
    · split <;> exact .inl rfl
  · unfold Mf.feedBody
    extract_lets
    split <;> exact .inl rfl

/-- The reset framer has the form. -/
theorem Mf.idle_wf (maxLen : Nat) : Mf.idle.Wf maxLen := by
  refine ⟨rfl, ?_, ?_, ?_, ?_, ?_⟩ <;> simp [Mf.idle]

/-! ### Operations one after another -/

theorem runOps_cons {i : Instr} {is : List Instr} {s t : State} (h : exec i s = .next t) :
    runOps (i :: is) s = runOps is t := by
  simp [runOps, h]

theorem runOps_append {is js : List Instr} {s t : State} (h : runOps is s = .next t) :
    runOps (is ++ js) s = runOps js t := by
  induction is generalizing s with
  | nil => cases h; rfl
  | cons i is ih =>
    simp only [runOps, List.cons_append] at h ⊢
    split at h
    · exact ih h
    · cases h
    · cases h

/-- Bytes fed one after another while no event is raised: the framer after them and what each gave; none where an event is
raised. -/
def Mf.feedAll (maxLen : Nat) : Mf → List Byte → Option (Mf × List (Option FramedMessage))
  | m, [] => some (m, [])
  | m, b :: bs =>
    if (m.feed maxLen b).2.2 = [] then
      (Mf.feedAll maxLen (m.feed maxLen b).1 bs).map fun t => (t.1, (m.feed maxLen b).2.1 :: t.2)
    else none

theorem Mf.feed_fault (maxLen : Nat) (m : Mf) (b : Byte) (hf : m.fault = false) (he : (m.feed maxLen b).2.2 = []) :
    (m.feed maxLen b).1.fault = false := by
  unfold Mf.feed at he ⊢
  split at he
  · exact hf
  · unfold Mf.feedHeader2 at he ⊢
    extract_lets at he ⊢
    split at he
    · cases he
    · rename_i h1
      rw [if_neg h1]
      split <;> exact hf
  · unfold Mf.feedBody at he ⊢
    extract_lets at he ⊢
    split <;> exact hf

theorem Mf.feedAll_cons {maxLen : Nat} {m m' : Mf} {b : Byte} {bs : List Byte} {out : Option FramedMessage}
    (h : m.feed maxLen b = (m', out, [])) :
    m.feedAll maxLen (b :: bs) = (m'.feedAll maxLen bs).map fun t => (t.1, out :: t.2) := by
  simp [Mf.feedAll, h]

theorem Mf.feedAll_append {maxLen : Nat} {m m' : Mf} {x y : List Byte} {outs : List (Option FramedMessage)}
    (h : m.feedAll maxLen x = some (m', outs)) :
    m.feedAll maxLen (x ++ y) = (m'.feedAll maxLen y).map fun t => (t.1, outs ++ t.2) := by
  induction x generalizing m outs with
  | nil => cases h; simp
  | cons b x ih =>
    rw [List.cons_append]
    simp only [Mf.feedAll] at h ⊢
    split at h
    · rename_i hb
      rw [if_pos hb]
      obtain ⟨r, hr, he⟩ := Option.map_eq_some_iff.1 h
      cases he
      rw [ih hr, Option.map_map]
      rfl
    · cases h

theorem Mf.feedAll_fault (maxLen : Nat) (bs : List Byte) : ∀ (m m' : Mf) (outs : List (Option FramedMessage)),
    m.fault = false → m.feedAll maxLen bs = some (m', outs) → m'.fault = false := by
  induction bs with
  | nil => intro m m' outs hf h; cases h; exact hf
  | cons b bs ih =>
    intro m m' outs hf h
    simp only [Mf.feedAll] at h
    split at h
    · rename_i he
      obtain ⟨t, ht, heq⟩ := Option.map_eq_some_iff.1 h
      cases heq
      exact ih _ _ _ (Mf.feed_fault _ _ _ hf he) ht
    · cases h

/-- The run of `MF_FEED` operations that `Mf.feedAll` describes. -/
theorem runOps_feedAll (bs : List Byte) : ∀ (s : State) (m : Mf) (outs : List (Option FramedMessage)),
    s.poweredOn = true → s.mf.fault = false → s.mf.feedAll s.cfg.maxMsgLen bs = some (m, outs) →
    runOps (bs.map .mfFeed) s = .next { s with mf := m, results := s.results ++ outs.map .message } := by
  induction bs with
  | nil => intro s m outs _ _ h; cases h; simp [runOps]
  | cons b bs ih =>
    intro s m outs h hf hx
    simp only [Mf.feedAll] at hx
    split at hx
    · rename_i he
      obtain ⟨t, ht, heq⟩ := Option.map_eq_some_iff.1 hx
      cases heq
      have hfeed : s.mf.feed s.cfg.maxMsgLen b =
          ((s.mf.feed s.cfg.maxMsgLen b).1, (s.mf.feed s.cfg.maxMsgLen b).2.1, []) := by rw [← he]
      refine (runOps_cons (exec_mfFeed_of h hf hfeed)).trans ?_
      refine (ih { s with
        mf := (s.mf.feed s.cfg.maxMsgLen b).1
        results := s.results ++ [.message (s.mf.feed s.cfg.maxMsgLen b).2.1] } t.1 t.2 h
          (Mf.feed_fault _ _ _ hf he) ht).trans ?_
      simp
    · cases hx

/-- Bytes inside a body only collect. -/
theorem Mf.feedAll_body (maxLen : Nat) (r : List Byte) : ∀ m : Mf, m.state = .awaitBody → m.idx + r.length < m.len →
    m.feedAll maxLen r =
      some ({ m with buf := m.buf ++ r, idx := m.idx + r.length }, List.replicate r.length none) := by
  induction r with
  | nil => intro m _ _; simp [Mf.feedAll]
  | cons b r ih =>
    intro m hs hl
    simp only [List.length_cons] at hl
    have hne : ¬m.idx + 1 = m.len := by omega
    have he : m.feed maxLen b = ({ m with buf := m.buf ++ [b], idx := m.idx + 1 }, none, []) := by
      simp [Mf.feed, hs, Mf.feedBody, hne]
    rw [Mf.feedAll_cons he, ih { m with buf := m.buf ++ [b], idx := m.idx + 1 } hs
      (by show m.idx + 1 + r.length < m.len; omega)]
    simp [List.replicate_succ]
    omega

/-! ### The encoder (R247) -/

theorem encodeMessage_ok {maxLen : Nat} {kind : Kind} {item : Option U16} {params : List Param}
    (h : encodable maxLen item params = true) :
    encodeMessage maxLen kind item params = .ok (messageBytes kind item params) := by
  simp [encodeMessage, h]

theorem encodeMessage_inv {maxLen : Nat} {kind : Kind} {item : Option U16} {params : List Param} {y : List Byte}
    (h : encodeMessage maxLen kind item params = .ok y) :
    encodable maxLen item params = true ∧ y = messageBytes kind item params := by
  unfold encodeMessage at h
  split at h
  · exact ⟨by assumption, (Except.ok.inj h).symm⟩
  · cases h

/-- What `encodable` says (R247). -/
theorem encodable_iff (maxLen : Nat) (item : Option U16) (params : List Param) :
    encodable maxLen item params = true ↔
      (item = none → params = []) ∧ (∀ p ∈ params, p.width = 8 ∨ p.width = 16 ∨ p.width = 32) ∧
      2 + (messageBody item params).length ≠ 8192 ∧ 2 + (messageBody item params).length ≠ 8193 ∧
      2 + (messageBody item params).length ≤ 8194 ∧ 2 + (messageBody item params).length ≤ maxLen := by
  unfold encodable
  cases item <;> cases params <;> simp [or_assoc, and_assoc]

/-- A framer that awaits a header takes the bytes of a message and gives that message with the last one (R248 (b)). -/
theorem Mf.feedAll_messageBytes (maxLen : Nat) (m : Mf) (kind : Kind) (item : Option U16) (params : List Param)
    (hs : m.state = .awaitHeader1) (he : encodable maxLen item params = true) :
    ∃ m' : Mf, m.feedAll maxLen (messageBytes kind item params) = some (m',
        List.replicate ((messageBytes kind item params).length - 1) none ++
          [some ⟨kind, item, params.flatMap paramBytes⟩]) ∧
      m'.state = .awaitHeader1 := by
  obtain ⟨e1, e2, e3, e4, e5, e6⟩ := (encodable_iff _ _ _).1 he
  generalize hbody : messageBody item params = body at *
  have hlf : lengthField (2 + body.length) < 8192 := by unfold lengthField; split <;> omega
  have hk : kind.toNat < 8 := kind.isLt
  have hho := headerOf_eq kind _ hlf
  generalize hhdr : headerOf kind (2 + body.length) = hdr at *
  have hmb : messageBytes kind item params = BitVec.ofNat 8 hdr :: BitVec.ofNat 8 (hdr / 256) :: body := by
    simp [messageBytes, hbody, hhdr, leBytes]
  have hw : headerWord (BitVec.ofNat 8 hdr) (BitVec.ofNat 8 (hdr / 256)) = hdr := by
    rw [headerWord_eq]
    simp
    omega
  have hfld : lenField hdr = lengthField (2 + body.length) := by unfold lenField; omega
  have hkf : kindField hdr = kind := by
    apply BitVec.eq_of_toNat_eq
    simp [kindField, Nat.shiftRight_eq_div_pow]
    omega
  have hdl : declaredLength (lenField hdr) = 2 + body.length := by
    rw [hfld, declaredLength_lengthField _ (by omega)]
  have hb2 : body.length ≠ 1 := by
    rw [← hbody]
    unfold messageBody
    split <;> simp
    omega
  have hfv : framingViolates maxLen (2 + body.length) = false := by
    simp [framingViolates]
    omega
  rw [hmb]
  have f1 : m.feed maxLen (BitVec.ofNat 8 hdr) = ({ m with
      hdrLo := BitVec.ofNat 8 hdr, buf := [BitVec.ofNat 8 hdr], idx := 1, state := .awaitHeader2 }, none, []) := by
    simp [Mf.feed, hs, Mf.feedHeader1]
  rw [Mf.feedAll_cons f1]
  by_cases hb0 : body = []
  · subst hb0
    have f2 : Mf.feed maxLen { m with
        hdrLo := BitVec.ofNat 8 hdr, buf := [BitVec.ofNat 8 hdr], idx := 1, state := .awaitHeader2 }
        (BitVec.ofNat 8 (hdr / 256)) =
      ({ m with hdrLo := BitVec.ofNat 8 hdr, buf := [], idx := 0, len := 2, kind := kind, state := .awaitHeader1 },
        some ⟨kind, none, []⟩, []) := by
      simp at hfv hdl
      simp [Mf.feed, Mf.feedHeader2, hw, hdl, hfv, hkf]
    have hi : item = none := by
      cases item with
      | none => rfl
      | some i => simp [messageBody, leBytes] at hbody
    have hp := e1 hi
    rw [Mf.feedAll_cons f2]
    exact ⟨_, by simp [Mf.feedAll, hi, hp]; rfl, rfl⟩
  · have f2 : Mf.feed maxLen { m with
        hdrLo := BitVec.ofNat 8 hdr, buf := [BitVec.ofNat 8 hdr], idx := 1, state := .awaitHeader2 }
        (BitVec.ofNat 8 (hdr / 256)) =
      ({ m with
          hdrLo := BitVec.ofNat 8 hdr, buf := [BitVec.ofNat 8 hdr, BitVec.ofNat 8 (hdr / 256)], idx := 2
          len := 2 + body.length, kind := kind, state := .awaitBody }, none, []) := by
      simp [Mf.feed, Mf.feedHeader2, hw, hdl, hfv, hkf, hb0]
    rw [Mf.feedAll_cons f2]
    obtain ⟨r, b, hrb⟩ : ∃ r b, body = r ++ [b] :=
      ⟨body.dropLast, body.getLast hb0, (List.dropLast_append_getLast hb0).symm⟩
    have hrl : body.length = r.length + 1 := by rw [hrb]; simp
    obtain ⟨i, hi⟩ : ∃ i, item = some i := by
      cases item with
      | none => exact absurd hbody.symm hb0
      | some i => exact ⟨i, rfl⟩
    have hbd := Mf.feedAll_body maxLen r { m with
      hdrLo := BitVec.ofNat 8 hdr, buf := [BitVec.ofNat 8 hdr, BitVec.ofNat 8 (hdr / 256)], idx := 2
      len := 2 + body.length, kind := kind, state := .awaitBody } rfl (by show 2 + r.length < 2 + body.length; omega)
    have hbs : r ++ [b] = leBytes 2 i.toNat ++ params.flatMap paramBytes := by rw [← hrb, ← hbody, hi]; rfl
    have hit : itemOf (BitVec.ofNat 8 hdr :: BitVec.ofNat 8 (hdr / 256) :: (r ++ [b])) = i := by
      rw [hbs]
      apply BitVec.eq_of_toNat_eq
      have := i.isLt
      simp [itemOf, memRead, leBytes]
      omega
    have hpl : payloadOf (BitVec.ofNat 8 hdr :: BitVec.ofNat 8 (hdr / 256) :: (r ++ [b])) (2 + body.length) =
        params.flatMap paramBytes := by
      rw [payloadOf, List.take_of_length_le (by simp; omega), hbs]
      simp [leBytes]
    have f3 : Mf.feed maxLen { m with
        hdrLo := BitVec.ofNat 8 hdr, buf := [BitVec.ofNat 8 hdr, BitVec.ofNat 8 (hdr / 256)] ++ r, idx := 2 + r.length
        len := 2 + body.length, kind := kind, state := .awaitBody } b =
      ({ m with
          hdrLo := BitVec.ofNat 8 hdr, buf := [], idx := 0, len := 2 + body.length, kind := kind
          state := .awaitHeader1 }, some ⟨kind, some i, params.flatMap paramBytes⟩, []) := by
      have : 2 + r.length + 1 = 2 + body.length := by omega
      simp only [Mf.feed, Mf.feedBody, this, if_true, List.cons_append, List.nil_append, hit, hpl]
    have hall : Mf.feedAll maxLen { m with
        hdrLo := BitVec.ofNat 8 hdr, buf := [BitVec.ofNat 8 hdr, BitVec.ofNat 8 (hdr / 256)], idx := 2
        len := 2 + body.length, kind := kind, state := .awaitBody } body =
      some ({ m with
          hdrLo := BitVec.ofNat 8 hdr, buf := [], idx := 0, len := 2 + body.length, kind := kind
          state := .awaitHeader1 },
        List.replicate r.length none ++ [some ⟨kind, some i, params.flatMap paramBytes⟩]) := by
      conv_lhs => arg 3; rw [hrb]
      rw [Mf.feedAll_append hbd, Mf.feedAll_cons f3]
      simp [Mf.feedAll]
    refine ⟨{ m with
      hdrLo := BitVec.ofNat 8 hdr, buf := [], idx := 0, len := 2 + body.length, kind := kind
      state := .awaitHeader1 }, ?_, rfl⟩
    rw [hall]
    simp [hi, hrl, List.replicate_succ]

end Sys2Proof.Machine
end

