-- ==== Sys2Proof/Laws/RateConverter.lean ====
section
/-! SUPPORT. What the rate converter's stages and cascades give: lengths, phases and cuts of a block
(spec/42_rate_converter.md). -/

namespace Sys2Proof.Machine

theorem istage_length (l : Nat) (h : List Int) (n : Int) (q : List Sample) (x : Sample) :
    (istage l h n q x).1.length = l := by simp [istage]

/-- The queue of a stage keeps its length (R204). -/
theorem istage_queue (l : Nat) (h : List Int) (n : Int) (q : List Sample) (x : Sample)
    (hk : 0 < (h.length + l - 1) / l) (hq : q.length = (h.length + l - 1) / l) :
    (istage l h n q x).2.length = (h.length + l - 1) / l := by
  simp [istage, hq]; omega

theorem istageAll_length (l : Nat) (h : List Int) (n : Int) (q x : List Sample) :
    (istageAll l h n q x).1.length = l * x.length := by
  induction x generalizing q with
  | nil => rfl
  | cons v x ih => simp [istageAll, istage_length, ih, Nat.mul_succ]; omega

theorem istageAll_queue (l : Nat) (h : List Int) (n : Int) (q x : List Sample) (hk : 0 < (h.length + l - 1) / l)
    (hq : q.length = (h.length + l - 1) / l) : (istageAll l h n q x).2.length = (h.length + l - 1) / l := by
  induction x generalizing q with
  | nil => exact hq
  | cons v x ih => exact ih _ (istage_queue l h n q v hk hq)

/-- Six outputs for one input (R205). -/
theorem interpOne_length (c : Config) (u : RcUp) (x : Sample) : (interpOne c u x).1.length = 6 := by
  simp [interpOne, istageAll_length, istage_length]

theorem interpAll_length (c : Config) (u : RcUp) (x : List Sample) : (interpAll c u x).1.length = 6 * x.length := by
  induction x generalizing u with
  | nil => rfl
  | cons v x ih => simp [interpAll, interpOne_length, ih, Nat.mul_succ]; omega

theorem interpAll_append (c : Config) (u : RcUp) (x y : List Sample) :
    interpAll c u (x ++ y) =
      ((interpAll c u x).1 ++ (interpAll c (interpAll c u x).2 y).1, (interpAll c (interpAll c u x).2 y).2) := by
  induction x generalizing u with
  | nil => rfl
  | cons v x ih => simp [interpAll, ih]

/-- The queues of the playback path keep their lengths (R30), where there are taps. -/
theorem interpAll_sized (c : Config) (u : RcUp) (x : List Sample) (h2 : 0 < c.h2.length) (h3 : 0 < c.h3.length)
    (hu : u.Sized c) : (interpAll c u x).2.Sized c := by
  induction x generalizing u with
  | nil => exact hu
  | cons v x ih =>
    apply ih
    have e2 : (c.h2.length + 2 - 1) / 2 = c.k2 := by unfold Config.k2; omega
    have e3 : (c.h3.length + 3 - 1) / 3 = c.k3 := by unfold Config.k3; omega
    constructor
    · exact (istage_queue 2 c.h2 c.n2i u.d2 v (by omega) (hu.1.trans e2.symm)).trans e2
    · exact (istageAll_queue 3 c.h3 c.n3i u.d3 _ (by omega) (hu.2.trans e3.symm)).trans e3

/-! ### Decimation -/

theorem dstage_queue (m : Nat) (h : List Int) (n : Int) (q : List Sample) (ph : Nat) (x : Sample)
    (hq : q.length = h.length) (hh : 0 < h.length) : (dstage m h n q ph x).2.1.length = h.length := by
  unfold dstage
  simp only
  split <;> simp [hq] <;> omega

/-- The phase counts the inputs modulo `m`, and an output comes each time it returns to 0 (R206). -/
theorem dstage_phase (m : Nat) (h : List Int) (n : Int) (q : List Sample) (ph : Nat) (x : Sample) (hp : ph < m) :
    (dstage m h n q ph x).2.2 = (ph + 1) % m ∧
      ((dstage m h n q ph x).1.isSome = true ↔ ph + 1 = m) := by
  unfold dstage
  simp only
  split
  · rename_i h; simp [h]
  · rename_i h; rw [Nat.mod_eq_of_lt (by omega)]; simp [h]

/-- What one input does to the phases of the cascade, and how many outputs it gives (R207). -/
theorem decimOne_phase (c : Config) (d : RcDn) (x : Sample) (h2 : d.ph2 < 2) (h3 : d.ph3 < 3) :
    (decimOne c d x).2.ph2 = (d.ph2 + 1) % 2 ∧
      (decimOne c d x).2.ph3 = (if d.ph2 = 1 then (d.ph3 + 1) % 3 else d.ph3) ∧
      (decimOne c d x).1.length = (if d.ph2 = 1 ∧ d.ph3 = 2 then 1 else 0) := by
  obtain ⟨p2, o2⟩ := dstage_phase 2 c.h2 c.n2d d.d2 d.ph2 x h2
  unfold decimOne
  simp only
  generalize dstage 2 c.h2 c.n2d d.d2 d.ph2 x = r at *
  obtain ⟨o, q, p⟩ := r
  cases o with
  | none =>
    have : ¬d.ph2 + 1 = 2 := fun h => by simpa using o2.2 h
    have : d.ph2 = 0 := by omega
    simp_all
  | some u =>
    have : d.ph2 = 1 := by have := o2.1 rfl; omega
    obtain ⟨p3, o3⟩ := dstage_phase 3 c.h3 c.n3d d.d3 d.ph3 u h3
    dsimp only
    generalize dstage 3 c.h3 c.n3d d.d3 d.ph3 u = t at *
    obtain ⟨o', q', p'⟩ := t
    refine ⟨p2, by simpa [this] using p3, ?_⟩
    cases o' with
    | none =>
      have : ¬d.ph3 + 1 = 3 := fun h => by simpa using o3.2 h
      rw [if_neg (by omega)]; rfl
    | some v =>
      have := o3.1 rfl
      rw [if_pos (by omega)]; rfl

/-- The phases of the cascade as one count of inputs modulo 6. -/
def RcDn.phase (d : RcDn) : Nat := 2 * d.ph3 + d.ph2

theorem decimAll_phase (c : Config) (d : RcDn) (x : List Sample) (h2 : d.ph2 < 2) (h3 : d.ph3 < 3) :
    (decimAll c d x).2.ph2 < 2 ∧ (decimAll c d x).2.ph3 < 3 ∧
      6 * (decimAll c d x).1.length + (decimAll c d x).2.phase = d.phase + x.length := by
  induction x generalizing d with
  | nil => exact ⟨h2, h3, by simp [decimAll]⟩
  | cons v x ih =>
    obtain ⟨p2, p3, hl⟩ := decimOne_phase c d v h2 h3
    have h2' : (decimOne c d v).2.ph2 < 2 := by omega
    have h3' : (decimOne c d v).2.ph3 < 3 := by rw [p3]; split <;> omega
    obtain ⟨q2, q3, q⟩ := ih _ h2' h3'
    refine ⟨q2, q3, ?_⟩
    simp only [decimAll, List.length_append, List.length_cons]
    have hph : (decimOne c d v).2.phase + 6 * (decimOne c d v).1.length = d.phase + 1 := by
      unfold RcDn.phase
      rw [p2, p3, hl]
      rcases (show d.ph2 = 0 ∨ d.ph2 = 1 by omega) with h | h
      · simp [h]
      · rcases (show d.ph3 = 0 ∨ d.ph3 = 1 ∨ d.ph3 = 2 by omega) with h' | h' | h' <;> simp [h, h']
    omega

/-- A block of a multiple of six: one output for six inputs, and the phases as they were (R207, R208). -/
theorem decimAll_length (c : Config) (d : RcDn) (x : List Sample) (h2 : d.ph2 < 2) (h3 : d.ph3 < 3)
    (hx : x.length % 6 = 0) :
    (decimAll c d x).1.length = x.length / 6 ∧ (decimAll c d x).2.ph2 = d.ph2 ∧ (decimAll c d x).2.ph3 = d.ph3 := by
  obtain ⟨q2, q3, q⟩ := decimAll_phase c d x h2 h3
  unfold RcDn.phase at q
  omega

theorem decimAll_append (c : Config) (d : RcDn) (x y : List Sample) :
    decimAll c d (x ++ y) =
      ((decimAll c d x).1 ++ (decimAll c (decimAll c d x).2 y).1, (decimAll c (decimAll c d x).2 y).2) := by
  induction x generalizing d with
  | nil => rfl
  | cons v x ih => simp [decimAll, ih]

theorem decimOne_queues (c : Config) (d : RcDn) (x : Sample) (h2 : 0 < c.h2.length) (h3 : 0 < c.h3.length)
    (e2 : d.d2.length = c.h2.length) (e3 : d.d3.length = c.h3.length) :
    (decimOne c d x).2.d2.length = c.h2.length ∧ (decimOne c d x).2.d3.length = c.h3.length := by
  have k2 := dstage_queue 2 c.h2 c.n2d d.d2 d.ph2 x e2 h2
  unfold decimOne
  simp only
  split
  · exact ⟨k2, e3⟩
  · exact ⟨k2, dstage_queue 3 c.h3 c.n3d d.d3 d.ph3 _ e3 h3⟩

/-- The queues of the capture path keep their lengths and the phases return to 0 (R30, R207), where there are taps. -/
theorem decimAll_sized (c : Config) (d : RcDn) (x : List Sample) (h2 : 0 < c.h2.length) (h3 : 0 < c.h3.length)
    (hx : x.length % 6 = 0) (hd : d.Sized c) : (decimAll c d x).2.Sized c := by
  have hq : ∀ (x : List Sample) (d : RcDn), d.d2.length = c.h2.length → d.d3.length = c.h3.length →
      (decimAll c d x).2.d2.length = c.h2.length ∧ (decimAll c d x).2.d3.length = c.h3.length := by
    intro x
    induction x with
    | nil => intro d e2 e3; exact ⟨e2, e3⟩
    | cons v x ih =>
      intro d e2 e3
      have := decimOne_queues c d v h2 h3 e2 e3
      exact ih _ this.1 this.2
  obtain ⟨e2, e3, p2, p3⟩ := hd
  have hl := decimAll_length c d x (by omega) (by omega) hx
  have := hq x d e2 e3
  exact ⟨this.1, this.2, hl.2.1.trans p2, hl.2.2.trans p3⟩

/-- The reset queues have their lengths (R209). -/
theorem RcUp.idle_sized (c : Config) : (RcUp.idle c).Sized c := by
  constructor <;> simp [RcUp.idle]

theorem RcDn.idle_sized (c : Config) : (RcDn.idle c).Sized c := by
  refine ⟨?_, ?_, rfl, rfl⟩ <;> simp [RcDn.idle]

/-! ### Constant input (R210 (a)) -/

/-- Rounded division of a multiple is exact. -/
theorem rdiv_mul (v n : Int) (hn : 0 < n) : rdiv (v * n) n = v := by
  unfold rdiv
  rw [show 2 * (v * n) + n = n + v * (2 * n) by ring, Int.add_mul_ediv_right _ _ (by omega),
    Int.ediv_eq_zero_of_lt (by omega) (by omega)]
  omega

theorem sat16_toInt (v : Sample) : sat16 v.toInt = v := by
  have h1 := v.toInt_lt
  have h2 := v.le_toInt
  unfold sat16
  rw [min_eq_right (by simpa using Int.le_sub_one_of_lt h1), max_eq_right (by simpa using h2)]
  exact BitVec.ofInt_toInt

/-- An output over a constant queue whose taps sum to the normaliser is that constant. -/
theorem firOut_const (taps : List Int) (n : Int) (v : Sample) (k : Nat) (hk : taps.length ≤ k) (hn : 0 < n)
    (hs : taps.sum = n) : firOut taps (List.replicate k v) n = v := by
  have key : ∀ (taps : List Int) (k : Nat), taps.length ≤ k →
      (List.zipWith (fun (h : Int) (v : Sample) => h * v.toInt) taps (List.replicate k v)).sum = v.toInt * taps.sum := by
    intro taps
    induction taps with
    | nil => intro k _; simp
    | cons t ts ih =>
      intro k hk
      obtain ⟨m, rfl⟩ : ∃ m, k = m + 1 := ⟨k - 1, by simp at hk; omega⟩
      simp only [List.replicate_succ, List.zipWith_cons_cons, List.sum_cons]
      rw [ih m (by simpa using hk)]
      ring
  rw [firOut, key taps k hk, hs, rdiv_mul _ _ hn, sat16_toInt]

theorem list_sum_getD (h : List Int) : ∀ n, h.length ≤ n → h.sum = ∑ i ∈ Finset.range n, h.getD i 0 := by
  induction h with
  | nil => intro n _; simp
  | cons a h ih =>
    intro n hn
    obtain ⟨m, rfl⟩ : ∃ m, n = m + 1 := ⟨n - 1, by simp at hn; omega⟩
    rw [Finset.sum_range_succ', List.sum_cons, ih m (by simpa using hn)]
    simp [add_comm]

theorem branch_length (h : List Int) (l p : Nat) : (branch h l p).length = (h.length + l - 1) / l := by simp [branch]

theorem branch_sum (h : List Int) (l p : Nat) :
    (branch h l p).sum = ∑ k ∈ Finset.range ((h.length + l - 1) / l), h.getD (p + k * l) 0 := by
  unfold branch
  induction (h.length + l - 1) / l with
  | zero => simp
  | succ n ih => rw [List.range_succ, List.map_append, List.sum_append, ih, Finset.sum_range_succ]; simp

/-- The branches of a tap list share out its taps. -/
theorem taps_sum (h : List Int) (l : Nat) (hl : 0 < l) : h.sum = ∑ p ∈ Finset.range l, (branch h l p).sum := by
  have hn : h.length ≤ (h.length + l - 1) / l * l := by
    have := Nat.div_add_mod (h.length + l - 1) l
    have := Nat.mod_lt (h.length + l - 1) hl
    rw [Nat.mul_comm]
    omega
  rw [list_sum_getD h _ hn]
  simp only [branch_sum]
  generalize (h.length + l - 1) / l = k
  rw [Finset.sum_comm]
  induction k with
  | zero => simp
  | succ k ih =>
    rw [Nat.succ_mul, Finset.sum_range_add, ih, Finset.sum_range_succ]
    congr 1
    exact Finset.sum_congr rfl fun _ _ => by rw [add_comm]

/-- Admissible taps sum to the decimation normaliser (R203). -/
theorem tapsOk_sum {h : List Int} {l : Nat} {ni nd : Int} (hl : 0 < l) (hk : tapsOk h l ni nd) : h.sum = nd := by
  rw [taps_sum h l hl, hk.2.2.2.1, Finset.sum_congr rfl (fun p hp => hk.2.2.2.2 p (Finset.mem_range.1 hp))]
  simp

theorem cons_take_replicate (v : Sample) (k : Nat) (hk : 0 < k) :
    v :: (List.replicate k v).take (k - 1) = List.replicate k v := by
  obtain ⟨m, rfl⟩ : ∃ m, k = m + 1 := ⟨k - 1, by omega⟩
  rw [List.take_replicate, Nat.min_eq_left (by omega)]
  rfl

theorem istage_const {h : List Int} {l : Nat} {ni nd : Int} (v : Sample) (hl : 0 < l) (hk : tapsOk h l ni nd) :
    istage l h ni (List.replicate ((h.length + l - 1) / l) v) v =
      (List.replicate l v, List.replicate ((h.length + l - 1) / l) v) := by
  have hpos : 0 < (h.length + l - 1) / l := by
    have := hk.1
    apply Nat.div_pos <;> omega
  unfold istage
  simp only [cons_take_replicate v _ hpos]
  congr 1
  apply List.ext_getElem (by simp)
  intro i h1 h2
  simp at h1 ⊢
  exact firOut_const _ _ _ _ (by rw [branch_length]) hk.2.2.1 (hk.2.2.2.2 i h1)

theorem istageAll_const {h : List Int} {l : Nat} {ni nd : Int} (v : Sample) (hl : 0 < l) (hk : tapsOk h l ni nd)
    (n : Nat) : istageAll l h ni (List.replicate ((h.length + l - 1) / l) v) (List.replicate n v) =
      (List.replicate (l * n) v, List.replicate ((h.length + l - 1) / l) v) := by
  induction n with
  | zero => rfl
  | succ n ih =>
    simp only [List.replicate_succ, istageAll, istage_const v hl hk, ih]
    simp [List.replicate_append_replicate, Nat.mul_succ, Nat.add_comm]

theorem dstage_const {h : List Int} {m : Nat} {ni nd : Int} (v : Sample) (hm : 0 < m) (hk : tapsOk h m ni nd) (ph : Nat) :
    dstage m h nd (List.replicate h.length v) ph v =
      (if ph + 1 = m then some v else none, List.replicate h.length v, if ph + 1 = m then 0 else ph + 1) := by
  have hpos : 0 < h.length := by have := hk.1; omega
  have hnd : 0 < nd := by rw [hk.2.2.2.1]; have := hk.2.2.1; positivity
  unfold dstage
  simp only [cons_take_replicate v _ hpos]
  rw [firOut_const h nd v _ le_rfl hnd (tapsOk_sum hm hk)]
  split <;> rfl

theorem decimOne_const {c : Config} (v : Sample) (h2 : tapsOk c.h2 2 c.n2i c.n2d) (h3 : tapsOk c.h3 3 c.n3i c.n3d)
    (a b : Nat) : decimOne c ⟨List.replicate c.h2.length v, List.replicate c.h3.length v, a, b⟩ v =
      (if a + 1 = 2 ∧ b + 1 = 3 then [v] else [],
        ⟨List.replicate c.h2.length v, List.replicate c.h3.length v, if a + 1 = 2 then 0 else a + 1,
          if a + 1 = 2 then (if b + 1 = 3 then 0 else b + 1) else b⟩) := by
  simp only [decimOne, dstage_const v (by decide : 0 < 2) h2]
  by_cases ha : a + 1 = 2
  · simp only [ha, if_true, true_and, dstage_const v (by decide : 0 < 3) h3]
    by_cases hb : b + 1 = 3 <;> simp [hb]
  · simp [ha]

/-! ### The filter sums (R204, R206) -/

theorem zipWith_sum (taps : List Int) : ∀ (q : List Sample) (n : Nat), taps.length ≤ n →
    (List.zipWith (fun (h : Int) (v : Sample) => h * v.toInt) taps q).sum =
      ∑ k ∈ Finset.range n, taps.getD k 0 * (q.getD k 0).toInt := by
  induction taps with
  | nil => intro q n _; simp
  | cons t ts ih =>
    intro q n hn
    obtain ⟨m, rfl⟩ : ∃ m, n = m + 1 := ⟨n - 1, by simp at hn; omega⟩
    rw [Finset.sum_range_succ']
    cases q with
    | nil => simp
    | cons v q => rw [List.zipWith_cons_cons, List.sum_cons, ih q m (by simpa using hn)]; simp [add_comm]

/-- An output as a sum over the taps (R202). -/
theorem firOut_eq_sum (taps : List Int) (q : List Sample) (n : Int) :
    firOut taps q n =
      sat16 (rdiv (∑ k ∈ Finset.range taps.length, taps.getD k 0 * (q.getD k 0).toInt) n) := by
  rw [firOut, zipWith_sum taps q _ le_rfl]

/-- Entries of a queue beyond the taps do not matter. -/
theorem firOut_take (taps : List Int) (q : List Sample) (n : Int) (k : Nat) (h : taps.length ≤ k) :
    firOut taps (q.take k) n = firOut taps q n := by
  rw [firOut_eq_sum, firOut_eq_sum]
  congr 2
  apply Finset.sum_congr rfl
  intro i hi
  have : i < k := by simp at hi; omega
  simp [List.getD_eq_getElem?_getD, List.getElem?_take_of_lt this]

/-- The output of a polyphase branch as a sum over every `l`-th tap (R204). -/
theorem firOut_branch (h : List Int) (l p : Nat) (hl : 0 < l) (n : Int) (q : List Sample) :
    firOut (branch h l p) q n =
      sat16 (rdiv (∑ k ∈ Finset.range h.length, h.getD (p + k * l) 0 * (q.getD k 0).toInt) n) := by
  have hle : (h.length + l - 1) / l ≤ h.length := by
    rw [Nat.div_le_iff_le_mul_add_pred hl]
    have : h.length ≤ l * h.length := Nat.le_mul_of_pos_left _ hl
    omega
  rw [firOut, zipWith_sum (branch h l p) q h.length (by rw [branch_length]; exact hle)]
  congr 2
  apply Finset.sum_congr rfl
  intro k _
  congr 1
  unfold branch
  by_cases hh : k < (h.length + l - 1) / l
  · simp [List.getD_eq_getElem?_getD, hh]
  · rw [List.getD_eq_default _ _ (by simpa using hh), List.getD_eq_default]
    have := Nat.div_add_mod (h.length + l - 1) l
    have := Nat.mod_lt (h.length + l - 1) hl
    have : l * ((h.length + l - 1) / l) ≤ l * k := Nat.mul_le_mul_left _ (by omega)
    rw [Nat.mul_comm k l]
    omega

end Sys2Proof.Machine
end

