-- ==== Sys2Proof/Laws/StreamControl.lean ====
section
/-! SUPPORT. What the orchestrator's shared operations give: mode changes, the receive path and the transmit path
(spec/45_stream_control.md). -/

namespace Sys2Proof.Machine

theorem payloadBits_of_modeWidth {m : Mode} {w : CodeWidth} (h : modeWidth m = some w) : payloadBits m = w.bits := by
  cases m <;> simp [modeWidth] at h <;> subst h <;> rfl

theorem CodeWidth.bits_pos (w : CodeWidth) : 0 < w.bits := by cases w <;> decide

/-! ### Mode changes (R267, R271) -/

/-- A change of mode leaves the reset registers with the width of the mode, or the width there was. -/
theorem State.changeCodec_rx (s : State) (m : Mode) :
    s.changeCodec .rx m = { s with adpRx := Adp.idle ((modeWidth m).getD s.adpRx.w) } := by
  cases m <;> rfl

theorem State.changeCodec_tx (s : State) (m : Mode) :
    s.changeCodec .tx m = { s with adpTx := Adp.idle ((modeWidth m).getD s.adpTx.w) } := by
  cases m <;> rfl

/-- Everything a receive-side switch does. -/
theorem State.switchRx_eq (s : State) (m : Mode) :
    s.switchRx m = { s with
      adpRx := if m = s.so.rxMode then s.adpRx else Adp.idle ((modeWidth m).getD s.adpRx.w)
      so := { s.so with rxMode := m } } := by
  unfold State.switchRx
  split
  · rename_i h; subst h; rfl
  · rw [State.changeCodec_rx]; rfl

/-- Everything `SO_SET_TX_MODE` does. -/
theorem State.setTxMode_eq (s : State) (m : Mode) (h : m ≠ s.so.txMode) :
    s.setTxMode m = { s with
      adpTx := Adp.idle ((modeWidth m).getD s.adpTx.w)
      so := { s.so with stage := Stage.empty, txMode := m } } := by
  unfold State.setTxMode
  rw [if_neg h, State.changeCodec_tx]
  rfl

theorem State.setTxMode_same (s : State) (m : Mode) (h : m = s.so.txMode) : s.setTxMode m = s := if_pos h

/-- With an injective `MODE_CODE` a mode's byte names that mode (R103, R266). -/
theorem Config.modeOf_get (c : Config) (h : modeCodeOk c.modeCode) (m : Mode) : c.modeOf (c.modeCode.get m) = some m := by
  have hf : ∀ b, c.modeOf b = Mode.all.find? fun m => c.modeCode.get m == b := fun _ => rfl
  rw [hf, List.find?_eq_some_iff_getElem]
  refine ⟨by simp, ?_⟩
  simp only [modeCodeOk, List.nodup_iff_injective_getElem] at h
  have hm : ∃ k : Fin 7, Mode.all[k.val]? = some m := by
    cases m
    · exact ⟨0, rfl⟩
    · exact ⟨1, rfl⟩
    · exact ⟨2, rfl⟩
    · exact ⟨3, rfl⟩
    · exact ⟨4, rfl⟩
    · exact ⟨5, rfl⟩
    · exact ⟨6, rfl⟩
  obtain ⟨k, hk⟩ := hm
  have hkl : k.val < Mode.all.length := k.isLt
  have hkm : Mode.all[k.val] = m := by
    rw [List.getElem?_eq_getElem hkl] at hk
    exact Option.some.inj hk
  refine ⟨k.val, hkl, hkm, ?_⟩
  intro j hj
  simp only [Bool.not_eq_eq_eq_not, Bool.not_true, beq_eq_false_iff_ne]
  intro he
  have hjl : j < Mode.all.length := by omega
  have := @h ⟨j, by simpa using hjl⟩ ⟨k.val, by simpa using hkl⟩ (by simp [hkm, he])
  simp at this
  omega

theorem Config.modeOf_none (c : Config) (b : Byte) (h : ∀ m, c.modeCode.get m ≠ b) : c.modeOf b = none := by
  unfold Config.modeOf
  rw [List.find?_eq_none]
  intro m _
  simpa using h m

/-! ### The receive path (R266 to R269) -/

/-- `W` is kept and the ranges too, whatever the payload (R268). -/
theorem audioSamples_inv {m : Mode} {a : Adp} {data : List Byte} {r : Adp × List Sample}
    (h : audioSamples m a data = .ok r) : r.1.w = a.w ∧ (a.InRange → r.1.InRange) := by
  unfold audioSamples at h
  split at h
  · cases h; exact ⟨rfl, id⟩
  · unfold decodePayload at h
    split at h
    · obtain ⟨_, rfl⟩ := Adp.decodeBuf_inv h
      exact ⟨Adp.decodeAll_w _ _, Adp.decodeAll_inRange _ _⟩
    · split at h <;> cases h <;> exact ⟨rfl, id⟩

/-- The payload of a mode decodes where the instance has the width of the mode. -/
theorem audioSamples_ok (m : Mode) (a : Adp) (data : List Byte) (h : ∀ w, modeWidth m = some w → a.w = w) :
    ∃ r, audioSamples m a data = .ok r := by
  unfold audioSamples
  split
  · exact ⟨_, rfl⟩
  · unfold decodePayload
    split
    · rename_i w hw
      rw [Adp.decodeBuf_ok]
      · exact ⟨_, rfl⟩
      · rw [h w hw, Nat.zero_add]
        exact Nat.mul_div_le _ _
    · split <;> exact ⟨_, rfl⟩

/-- Everything `SO_RX_AUDIO` can do (R266). -/
theorem State.rxAudio_cases {s t : State} {p : List Byte} (h : s.rxAudio p = .ok t) :
    (s.so.running = false ∧ t = s) ∨
    (s.so.running = true ∧ p.length < 3 ∧ t = s.raise (.badPacket p.length)) ∨
    (s.so.running = true ∧ 3 ≤ p.length ∧ s.cfg.modeOf (audMode p) = none ∧ t = s.raise (.badMode (audMode p))) ∨
    (∃ m, s.so.running = true ∧ 3 ≤ p.length ∧ s.cfg.modeOf (audMode p) = some m ∧
      ∃ a : Adp, (a = if m = s.so.rxMode then s.adpRx else Adp.idle ((modeWidth m).getD s.adpRx.w)) ∧
        ((m = .noAudio ∧ t = { s with adpRx := a, so := { s.so with meter := audMeter p, rxMode := m } }) ∨
          (m ≠ .noAudio ∧ ∃ r, audioSamples m a (audData p) = .ok r ∧ t = { s with
            adpRx := r.1
            so := { s.so with meter := audMeter p, rxMode := m }
            rcUp := (interpAll s.cfg s.rcUp r.2).2
            jb := (s.jb.push s.cfg.capacity (interpAll s.cfg s.rcUp r.2).1).1
            log := s.log ++ (s.jb.push s.cfg.capacity (interpAll s.cfg s.rcUp r.2).1).2 }))) := by
  unfold State.rxAudio at h
  split at h
  · rename_i hr
    cases h
    exact .inl ⟨by simpa using hr, rfl⟩
  · rename_i hr
    have hr : s.so.running = true := by simpa using hr
    split at h
    · rename_i hl
      cases h
      exact .inr (.inl ⟨hr, hl, rfl⟩)
    · rename_i hl
      have hl : 3 ≤ p.length := by omega
      split at h
      · rename_i hm
        cases h
        exact .inr (.inr (.inl ⟨hr, hl, hm, rfl⟩))
      · rename_i m hm
        refine .inr (.inr (.inr ⟨m, hr, hl, hm, _, rfl, ?_⟩))
        simp only [State.switchRx_eq] at h
        split at h
        · rename_i hn
          cases h
          exact .inl ⟨hn, rfl⟩
        · rename_i hn
          split at h
          · cases h
          · rename_i r hx
            cases h
            exact .inr ⟨hn, r, hx, rfl⟩

/-- `SO_RX_AUDIO` completes where the widths agree with the modes. -/
theorem State.rxAudio_ok (s : State) (p : List Byte) (h : s.ModesAgree) : ∃ t, s.rxAudio p = .ok t := by
  unfold State.rxAudio
  split
  · exact ⟨_, rfl⟩
  · split
    · exact ⟨_, rfl⟩
    · split
      · exact ⟨_, rfl⟩
      · rename_i m hm
        simp only [State.switchRx_eq]
        split
        · exact ⟨_, rfl⟩
        · obtain ⟨r, hr⟩ := audioSamples_ok m (if m = s.so.rxMode then s.adpRx else Adp.idle ((modeWidth m).getD s.adpRx.w))
            (audData p) (by
              intro w hw
              split
              · rename_i he; exact h.1 w (he ▸ hw)
              · simp [hw])
          exact ⟨_, by
            show (match audioSamples m (if m = s.so.rxMode then s.adpRx else Adp.idle ((modeWidth m).getD s.adpRx.w))
              (audData p) with | .error e => _ | .ok r => _) = _
            rw [hr]⟩

/-! ### The transmit path (R272 to R274, R277) -/

/-- What one captured sample does to the transmit path: one more staged sample, and nothing else but the codec. -/
theorem TxPath.encodeSample_inv {m : Mode} {t u : TxPath} {x : Sample} (h : t.encodeSample m x = .ok u) :
    u.txq = t.txq ∧ u.stage.count = t.stage.count + 1 ∧ u.adp.w = t.adp.w ∧ (t.adp.InRange → u.adp.InRange) ∧
      (t.stage.bytes.length = (t.stage.bits + 7) / 8 → u.stage.bytes.length = (u.stage.bits + 7) / 8) ∧
      ((∀ w, modeWidth m = some w → t.adp.w = w) → u.stage.bits = t.stage.bits + payloadBits m) := by
  unfold TxPath.encodeSample at h
  split at h
  · rename_i w hw
    split at h
    · cases h
    · rename_i r hr
      obtain ⟨ho, rfl⟩ := Adp.encodeBuf_inv hr
      cases h
      refine ⟨rfl, rfl, Adp.encodeAll_w _ _, Adp.encodeAll_inRange _ _, ?_, ?_⟩
      · intro _
        show (packCodes _ _ _ _).length = _
        rw [packCodes_length _ _ _ _ ho, Adp.encodeAll_length]
      · intro hagree
        show t.stage.bits + t.adp.w.bits * 1 = _
        rw [hagree w hw, payloadBits_of_modeWidth hw, Nat.mul_one]
  · rename_i hw
    split at h <;> cases h
    · exact ⟨rfl, rfl, rfl, id, fun hb => by simp [hb, sampleBytes]; omega, fun _ => rfl⟩
    · exact ⟨rfl, rfl, rfl, id, fun hb => by simp [hb]; omega, fun _ => rfl⟩
    · rename_i h1 h2
      refine ⟨rfl, rfl, rfl, id, id, fun _ => ?_⟩
      cases m <;> first | rfl | exact absurd rfl h1 | exact absurd rfl h2 | simp [modeWidth] at hw

theorem TxPath.encodeSample_ok (m : Mode) (t : TxPath) (x : Sample)
    (hb : t.stage.bytes.length = (t.stage.bits + 7) / 8) : ∃ u, t.encodeSample m x = .ok u := by
  unfold TxPath.encodeSample
  split
  · rw [Adp.encodeBuf_ok (by omega)]
    exact ⟨_, rfl⟩
  · split <;> exact ⟨_, rfl⟩

/-- What building a packet does: nothing before `TX_MAX`, else one more packet and an empty stage (R274). -/
theorem TxPath.build_inv {c : Config} {m : Mode} {meter : Sample} {t u : TxPath} (h : t.build c m meter = .ok u) :
    (t.stage.count ≠ c.txMax.get m ∧ u = t) ∨
    (t.stage.count = c.txMax.get m ∧ ∃ p, audioPacket c m meter t.stage.bytes = .ok p ∧
      u = { t with stage := Stage.empty, txq := t.txq ++ [p] }) := by
  unfold TxPath.build at h
  split at h
  · rename_i hc
    split at h
    · cases h
    · rename_i p hp
      cases h
      exact .inr ⟨hc, p, hp, rfl⟩
  · rename_i hc
    cases h
    exact .inl ⟨hc, rfl⟩

/-- The bytes given to `MF_ENCODE` one parameter each come out as they are. -/
theorem flatMap_paramBytes (l : List Byte) : (l.map fun b => (⟨8, b.toNat⟩ : Param)).flatMap paramBytes = l := by
  induction l with
  | nil => rfl
  | cons b l ih =>
    simp only [List.map_cons, List.flatMap_cons, ih]
    have : paramBytes ⟨8, b.toNat⟩ = [b] := by
      have hb := b.isLt
      simp only [paramBytes, truncN, leBytes]
      congr 1
      apply BitVec.eq_of_toNat_eq
      simp
      omega
    rw [this]
    rfl

/-- The packet of `TX_MAX` samples can be encoded, and its length (R273, R274). -/
theorem audioPacket_ok (c : Config) (m : Mode) (meter : Sample) (data : List Byte) (h8 : 7 + data.length ≤ 8191)
    (hm : 7 + data.length ≤ c.maxMsgLen) :
    ∃ p, audioPacket c m meter data = .ok p ∧ p.length = 7 + data.length := by
  have hl : (messageBody (some c.audioTxItem) ((audPayload meter (c.modeCode.get m) data).map fun b => ⟨8, b.toNat⟩)).length =
      5 + data.length := by
    simp only [messageBody, flatMap_paramBytes, List.length_append, leBytes_length, audPayload, sampleBytes,
      List.length_cons]
    omega
  refine ⟨_, encodeMessage_ok ?_, ?_⟩
  · rw [encodable_iff, hl]
    refine ⟨by simp, ?_, by omega, by omega, by omega, by omega⟩
    intro p hp
    obtain ⟨b, _, rfl⟩ := List.mem_map.1 hp
    exact .inl rfl
  · simp only [messageBytes, List.length_append, leBytes_length, hl]
    omega

/-- The captured samples of a block complete where the widths and the staged bits agree with the mode: how many packets come
out, and how long they are (R273, R274, R277). -/
theorem TxPath.encodeAll_ok (c : Config) (m : Mode) (meter : Sample) (hm : m ≠ .noAudio)
    (hcfg : txMaxOk c.txMax c.maxMsgLen) : ∀ (x : List Sample) (t : TxPath),
    t.stage.bytes.length = (t.stage.bits + 7) / 8 → t.stage.bits = t.stage.count * payloadBits m →
    t.stage.count < c.txMax.get m → (∀ w, modeWidth m = some w → t.adp.w = w) →
    ∃ u new, TxPath.encodeAll c m meter t x = .ok u ∧ u.txq = t.txq ++ new ∧
      t.stage.count + x.length = u.stage.count + c.txMax.get m * new.length ∧ u.stage.count < c.txMax.get m ∧
      u.stage.bits = u.stage.count * payloadBits m ∧ u.adp.w = t.adp.w ∧
      ∀ p ∈ new, p.length = 7 + (c.txMax.get m * payloadBits m + 7) / 8 := by
  intro x
  obtain ⟨c1, c2, _⟩ := hcfg m (by cases m <;> decide) hm
  induction x with
  | nil => intro t _ h2 h3 _; exact ⟨t, [], rfl, by simp, by simp, h3, h2, rfl, by simp⟩
  | cons v x ih =>
    intro t h1 h2 h3 h4
    obtain ⟨u, hu⟩ := TxPath.encodeSample_ok m t v h1
    obtain ⟨a1, a2, a3, _, a5, a6⟩ := TxPath.encodeSample_inv hu
    have a5 := a5 h1
    have hb : u.stage.bits = u.stage.count * payloadBits m := by rw [a6 h4, a2, h2, Nat.succ_mul]
    have hw : ∀ w, modeWidth m = some w → u.adp.w = w := fun w hw => a3.trans (h4 w hw)
    simp only [TxPath.encodeAll, hu]
    by_cases hc : u.stage.count = c.txMax.get m
    · have hl : 7 + u.stage.bytes.length = 7 + (c.txMax.get m * payloadBits m + 7) / 8 := by rw [a5, hb, hc]
      obtain ⟨p, hp, hpl⟩ := audioPacket_ok c m meter u.stage.bytes (by omega) (by omega)
      simp only [TxPath.build, hc, if_true, hp]
      obtain ⟨u', new, b1, b2, b3, b4, b5, b6, b7⟩ := ih { u with stage := Stage.empty, txq := u.txq ++ [p] }
        (by simp [Stage.empty]) (by simp [Stage.empty]) (by show 0 < _; omega) hw
      refine ⟨u', p :: new, b1, ?_, ?_, b4, b5, b6.trans a3, ?_⟩
      · rw [b2]; simp [a1]
      · simp only [Stage.empty] at b3
        simp only [List.length_cons, Nat.mul_succ]
        omega
      · intro q hq
        rcases List.mem_cons.1 hq with rfl | hq
        · omega
        · exact b7 q hq
    · simp only [TxPath.build, hc, if_false]
      obtain ⟨u', new, b1, b2, b3, b4, b5, b6, b7⟩ := ih u a5 hb (by omega) hw
      exact ⟨u', new, b1, by rw [b2, a1], by simp only [List.length_cons]; omega, b4, b5, b6.trans a3, b7⟩

/-- Captured samples one block after another (R277). -/
theorem TxPath.encodeAll_append {c : Config} {m : Mode} {meter : Sample} {x y : List Sample} {t u : TxPath}
    (h : TxPath.encodeAll c m meter t x = .ok u) :
    TxPath.encodeAll c m meter t (x ++ y) = TxPath.encodeAll c m meter u y := by
  induction x generalizing t with
  | nil => cases h; rfl
  | cons v x ih =>
    simp only [TxPath.encodeAll, List.cons_append] at h ⊢
    cases h1 : t.encodeSample m v with
    | error e => simp [h1] at h
    | ok t1 =>
      simp only [h1] at h ⊢
      cases h2 : t1.build c m meter with
      | error e => simp [h2] at h
      | ok t2 =>
        simp only [h2] at h ⊢
        exact ih h

/-- The bytes of a sample, the low one first (R60). -/
theorem sampleBytes_eq (v : Sample) : sampleBytes v = [v.setWidth 8, (v >>> 8).setWidth 8] := by
  have := v.isLt
  simp only [sampleBytes, leBytes, List.cons.injEq, and_true]
  constructor <;> apply BitVec.eq_of_toNat_eq <;> simp [Nat.shiftRight_eq_div_pow]

/-- What the captured samples of a block keep in any state of the transmit path (R36, R281 (c)). -/
theorem TxPath.encodeAll_keeps (c : Config) (m : Mode) (hm : m ≠ .noAudio) (hcfg : txMaxOk c.txMax c.maxMsgLen) :
    ∀ (x : List Sample) (t u : TxPath), TxPath.encodeAll c m 0 t x = .ok u →
    t.stage.bytes.length = (t.stage.bits + 7) / 8 → t.stage.count < c.txMax.get m → t.adp.InRange →
    (∀ p ∈ t.txq, OutboundPacket c p) →
    u.stage.bytes.length = (u.stage.bits + 7) / 8 ∧ u.stage.count < c.txMax.get m ∧ u.adp.InRange ∧
      (∀ p ∈ u.txq, OutboundPacket c p) := by
  intro x
  obtain ⟨c1, _, _⟩ := hcfg m (by cases m <;> decide) hm
  induction x with
  | nil => intro t u h; cases h; intro h1 h2 h3 h4; exact ⟨h1, h2, h3, h4⟩
  | cons v x ih =>
    intro t u h h1 h2 h3 h4
    simp only [TxPath.encodeAll] at h
    split at h
    · cases h
    · rename_i t1 ht1
      split at h
      · cases h
      · rename_i t2 ht2
        obtain ⟨a1, a2, _, a4, a5, _⟩ := TxPath.encodeSample_inv ht1
        rcases TxPath.build_inv ht2 with ⟨hc, rfl⟩ | ⟨hc, p, hp, rfl⟩
        · exact ih _ _ h (a5 h1) (by omega) (a4 h3) (by rwa [a1])
        · refine ih _ _ h (by simp [Stage.empty]) (by show 0 < _; omega) (a4 h3) ?_
          intro q hq
          rcases List.mem_append.1 hq with hq | hq
          · rw [a1] at hq
            exact h4 q hq
          · rw [List.mem_singleton] at hq
            subst hq
            exact ⟨m, _, hm, hp⟩

/-- `W` of the transmit instance is kept (R305). -/
theorem TxPath.encodeAll_w (c : Config) (m : Mode) (meter : Sample) : ∀ (x : List Sample) (t u : TxPath),
    TxPath.encodeAll c m meter t x = .ok u → u.adp.w = t.adp.w := by
  intro x
  induction x with
  | nil => intro t u h; cases h; rfl
  | cons v x ih =>
    intro t u h
    simp only [TxPath.encodeAll] at h
    split at h
    · cases h
    · rename_i t1 ht1
      split at h
      · cases h
      · rename_i t2 ht2
        have a3 := (TxPath.encodeSample_inv ht1).2.2.1
        have b3 : t2.adp.w = t1.adp.w := by
          rcases TxPath.build_inv ht2 with ⟨_, rfl⟩ | ⟨_, p, _, rfl⟩ <;> rfl
        exact (ih _ _ h).trans (b3.trans a3)

/-- Staged bits follow the staged count where the widths agree (R272). -/
theorem TxPath.encodeAll_bits (c : Config) (m : Mode) (meter : Sample) : ∀ (x : List Sample) (t u : TxPath),
    TxPath.encodeAll c m meter t x = .ok u → (∀ w, modeWidth m = some w → t.adp.w = w) →
    t.stage.bits = t.stage.count * payloadBits m → u.stage.bits = u.stage.count * payloadBits m := by
  intro x
  induction x with
  | nil => intro t u h; cases h; exact fun _ h2 => h2
  | cons v x ih =>
    intro t u h hw hb
    simp only [TxPath.encodeAll] at h
    split at h
    · cases h
    · rename_i t1 ht1
      split at h
      · cases h
      · rename_i t2 ht2
        obtain ⟨_, a2, a3, _, _, a6⟩ := TxPath.encodeSample_inv ht1
        rcases TxPath.build_inv ht2 with ⟨_, rfl⟩ | ⟨_, p, _, rfl⟩
        · exact ih _ _ h (fun w h => a3.trans (hw w h)) (by rw [a6 hw, a2, hb, Nat.succ_mul])
        · exact ih _ _ h (fun w h => a3.trans (hw w h)) (by simp [Stage.empty])

/-- Everything `SO_TX_BLOCK` can do to a block of a multiple of six samples (R277). -/
theorem State.txBlock_cases {s t : State} {x : List Sample} (h : s.txBlock x = .ok t) :
    ((s.so.running = false ∨ s.so.txMode = .noAudio) ∧ t = s) ∨
    (s.so.running = true ∧ s.so.txMode ≠ .noAudio ∧ ∃ u,
      TxPath.encodeAll s.cfg s.so.txMode s.so.txMeter ⟨s.adpTx, s.so.stage, s.so.txq⟩ (decimAll s.cfg s.rcDn x).1 = .ok u ∧
      t = { s with
        rcDn := (decimAll s.cfg s.rcDn x).2, adpTx := u.adp, so := { s.so with stage := u.stage, txq := u.txq } }) := by
  unfold State.txBlock at h
  split at h
  · rename_i hc
    cases h
    exact .inl ⟨by simpa using hc, rfl⟩
  · rename_i hc
    simp only [Bool.or_eq_true, Bool.not_eq_eq_eq_not, Bool.not_true, decide_eq_true_eq, not_or, Bool.not_eq_false] at hc
    simp only at h
    split at h
    · cases h
    · rename_i u hu
      cases h
      exact .inr ⟨hc.1, hc.2, u, hu, rfl⟩

end Sys2Proof.Machine
end

