-- ==== Sys2Proof/Laws/Exec.lean ====
section
/-! SUPPORT. For each operation, the next state it answers, if it answers one. -/

namespace Sys2Proof.Machine

variable {s t : State}

theorem exec_powerOn_next (h : exec .powerOn s = .next t) : t = s.powerOn.give .unit := State.done_next h

theorem exec_alawEnc_next {v : Sample} (h : exec (.alawEnc v) s = .next t) :
    s.poweredOn = true ∧ t = s.give (.byte (alawEncode v)) :=
  (State.whenOn_next h).imp id State.done_next

theorem exec_alawDec_next {c : Byte} (h : exec (.alawDec c) s = .next t) :
    s.poweredOn = true ∧ t = s.give (.sample (alawDecode c)) :=
  (State.whenOn_next h).imp id State.done_next

theorem exec_ulawEnc_next {v : Sample} (h : exec (.ulawEnc v) s = .next t) :
    s.poweredOn = true ∧ t = s.give (.byte (ulawEncode v)) :=
  (State.whenOn_next h).imp id State.done_next

theorem exec_ulawDec_next {c : Byte} (h : exec (.ulawDec c) s = .next t) :
    s.poweredOn = true ∧ t = s.give (.sample (ulawDecode c)) :=
  (State.whenOn_next h).imp id State.done_next

theorem exec_alawEncBuf_next {x : List Sample} (h : exec (.alawEncBuf x) s = .next t) :
    s.poweredOn = true ∧ t = s.give (.bytes (x.map alawEncode)) :=
  (State.whenOn_next h).imp id State.done_next

theorem exec_alawDecBuf_next {y : List Byte} (h : exec (.alawDecBuf y) s = .next t) :
    s.poweredOn = true ∧ t = s.give (.samples (y.map alawDecode)) :=
  (State.whenOn_next h).imp id State.done_next

theorem exec_ulawEncBuf_next {x : List Sample} (h : exec (.ulawEncBuf x) s = .next t) :
    s.poweredOn = true ∧ t = s.give (.bytes (x.map ulawEncode)) :=
  (State.whenOn_next h).imp id State.done_next

theorem exec_ulawDecBuf_next {y : List Byte} (h : exec (.ulawDecBuf y) s = .next t) :
    s.poweredOn = true ∧ t = s.give (.samples (y.map ulawDecode)) :=
  (State.whenOn_next h).imp id State.done_next

theorem exec_adpcmReset_next {i : Dir} (h : exec (.adpcmReset i) s = .next t) :
    s.poweredOn = true ∧ t = (s.adpcmReset i).give .unit :=
  (State.whenOn_next h).imp id State.done_next

theorem exec_adpcmSetw_next {i : Dir} {w : Int} (h : exec (.adpcmSetw i w) s = .next t) :
    s.poweredOn = true ∧ ∃ cw, codeWidth w = some cw ∧ t = (s.adpcmSetW i cw).give .unit := by
  obtain ⟨hp, h⟩ := State.whenOn_next h
  refine ⟨hp, ?_⟩
  split at h
  · exact ⟨_, by assumption, State.done_next h⟩
  · cases h

theorem exec_adpcmEnc_next {i : Dir} {v : Sample} (h : exec (.adpcmEnc i v) s = .next t) :
    s.poweredOn = true ∧ i = .tx ∧
      t = (s.setAdp .tx (s.adpTx.encodeSample v).1).give (.code (s.adpTx.encodeSample v).2) := by
  obtain ⟨hp, h⟩ := State.whenOn_next h
  cases i with
  | rx => cases h
  | tx => exact ⟨hp, rfl, State.done_next h⟩

theorem exec_adpcmDec_next {i : Dir} {code : Int} (h : exec (.adpcmDec i code) s = .next t) :
    s.poweredOn = true ∧ i = .rx ∧
      t = (s.setAdp .rx (s.adpRx.decodeSample (truncN s.adpRx.w.bits code)).1).give
        (.sample (s.adpRx.decodeSample (truncN s.adpRx.w.bits code)).2) := by
  obtain ⟨hp, h⟩ := State.whenOn_next h
  cases i with
  | tx => cases h
  | rx => exact ⟨hp, rfl, State.done_next h⟩

theorem exec_adpcmEncBuf_next {i : Dir} {x : List Sample} {b : List Byte} {off : Int}
    (h : exec (.adpcmEncBuf i x b off) s = .next t) :
    s.poweredOn = true ∧ i = .tx ∧ 0 ≤ off ∧ ∃ r, s.adpTx.encodeBuf x b off.toNat = .ok r ∧
      t = (s.setAdp .tx r.1).give (.packed r.2.1 r.2.2) := by
  obtain ⟨hp, h⟩ := State.whenOn_next h
  cases i with
  | rx => cases h
  | tx =>
    simp only at h
    split at h
    · cases h
    · rename_i ho
      split at h
      · cases h
      · exact ⟨hp, rfl, not_lt.1 ho, _, by assumption, State.done_next h⟩

theorem exec_adpcmDecBuf_next {i : Dir} {b : List Byte} {off n : Int} (h : exec (.adpcmDecBuf i b off n) s = .next t) :
    s.poweredOn = true ∧ i = .rx ∧ 0 ≤ off ∧ 0 ≤ n ∧ ∃ r, s.adpRx.decodeBuf b off.toNat n.toNat = .ok r ∧
      t = (s.setAdp .rx r.1).give (.samples r.2) := by
  obtain ⟨hp, h⟩ := State.whenOn_next h
  cases i with
  | tx => cases h
  | rx =>
    simp only at h
    split at h
    · cases h
    · rename_i ho
      simp only [not_or, not_lt] at ho
      split at h
      · cases h
      · exact ⟨hp, rfl, ho.1, ho.2, _, by assumption, State.done_next h⟩

theorem exec_rcReset_next {p : Path} (h : exec (.rcReset p) s = .next t) :
    s.poweredOn = true ∧ t = (s.rcReset p).give .unit :=
  (State.whenOn_next h).imp id State.done_next

theorem exec_interp6_next {x : List Sample} (h : exec (.interp6 x) s = .next t) :
    s.poweredOn = true ∧
      t = (s.setRcUp (interpAll s.cfg s.rcUp x).2).give (.samples (interpAll s.cfg s.rcUp x).1) :=
  (State.whenOn_next h).imp id State.done_next

theorem exec_decim6_next {x : List Sample} (h : exec (.decim6 x) s = .next t) :
    s.poweredOn = true ∧ x.length % 6 = 0 ∧
      t = (s.setRcDn (decimAll s.cfg s.rcDn x).2).give (.samples (decimAll s.cfg s.rcDn x).1) := by
  obtain ⟨hp, h⟩ := State.whenOn_next h
  split at h
  · exact ⟨hp, by assumption, State.done_next h⟩
  · cases h

theorem exec_jbReset_next (h : exec .jbReset s = .next t) : s.poweredOn = true ∧ t = s.jbReset.give .unit :=
  (State.whenOn_next h).imp id State.done_next

theorem exec_jbPush_next {x : List Sample} (h : exec (.jbPush x) s = .next t) :
    s.poweredOn = true ∧ t = (s.jbPush x).give .unit :=
  (State.whenOn_next h).imp id State.done_next

theorem exec_jbPull_next {n : Int} (h : exec (.jbPull n) s = .next t) :
    s.poweredOn = true ∧ 0 ≤ n ∧
      t = ((s.setJb (s.jb.pull s.cfg.capacity s.cfg.driftGain n.toNat).2.1).raiseAll
        (s.jb.pull s.cfg.capacity s.cfg.driftGain n.toNat).2.2).give
          (.samples (s.jb.pull s.cfg.capacity s.cfg.driftGain n.toNat).1) := by
  obtain ⟨hp, h⟩ := State.whenOn_next h
  split at h
  · cases h
  · rename_i hn
    exact ⟨hp, not_lt.1 hn, State.done_next h⟩

theorem exec_mfReset_next (h : exec .mfReset s = .next t) : s.poweredOn = true ∧ t = s.mfReset.give .unit :=
  (State.whenOn_next h).imp id State.done_next

theorem exec_mfFeed_next {b : Byte} (h : exec (.mfFeed b) s = .next t) :
    s.poweredOn = true ∧ s.mf.fault = false ∧
      t = ((s.setMf (s.mf.feed s.cfg.maxMsgLen b).1).raiseAll (s.mf.feed s.cfg.maxMsgLen b).2.2).give
        (.message (s.mf.feed s.cfg.maxMsgLen b).2.1) := by
  obtain ⟨hp, h⟩ := State.whenOn_next h
  split at h
  · cases h
  · rename_i hf
    exact ⟨hp, by simpa using hf, State.done_next h⟩

theorem exec_mfEncode_next {kind : Kind} {item : Option U16} {params : List Param}
    (h : exec (.mfEncode kind item params) s = .next t) :
    s.poweredOn = true ∧ ∃ y, encodeMessage s.cfg.maxMsgLen kind item params = .ok y ∧ t = s.give (.bytes y) := by
  obtain ⟨hp, h⟩ := State.whenOn_next h
  split at h
  · exact ⟨hp, _, by assumption, State.done_next h⟩
  · cases h

theorem exec_soStart_next (h : exec .soStart s = .next t) :
    s.poweredOn = true ∧ t = (s.resetStreams true).give .unit :=
  (State.whenOn_next h).imp id State.done_next

theorem exec_soStop_next (h : exec .soStop s = .next t) :
    s.poweredOn = true ∧ t = (s.resetStreams false).give .unit :=
  (State.whenOn_next h).imp id State.done_next

theorem exec_soDispatch_next {m : FramedMessage} (h : exec (.soDispatch m) s = .next t) :
    s.poweredOn = true ∧
      ((selects s.cfg.audioSel m.kind m.itemId = true ∧ ∃ u, s.rxAudio m.payload = .ok u ∧ t = u.give (.message none)) ∨
        (selects s.cfg.audioSel m.kind m.itemId = false ∧ t = s.give (.message (some m)))) := by
  obtain ⟨hp, h⟩ := State.whenOn_next h
  split at h
  · rename_i hs
    exact ⟨hp, .inl ⟨hs, State.doneOr_next h⟩⟩
  · rename_i hs
    exact ⟨hp, .inr ⟨by simpa using hs, State.done_next h⟩⟩

theorem exec_soRxAudio_next {p : List Byte} (h : exec (.soRxAudio p) s = .next t) :
    s.poweredOn = true ∧ ∃ u, s.rxAudio p = .ok u ∧ t = u.give .unit :=
  (State.whenOn_next h).imp id State.doneOr_next

theorem exec_soRxVideo_next {p : List Byte} (h : exec (.soRxVideo p) s = .next t) :
    s.poweredOn = true ∧ ∃ b d, p = b :: d ∧ t = s.give (.video b d) := by
  obtain ⟨hp, h⟩ := State.whenOn_next h
  cases p with
  | nil => cases h
  | cons b d => exact ⟨hp, b, d, rfl, State.done_next h⟩

theorem exec_soSetTxMode_next {m : Mode} (h : exec (.soSetTxMode m) s = .next t) :
    s.poweredOn = true ∧ t = (s.setTxMode m).give .unit :=
  (State.whenOn_next h).imp id State.done_next

theorem exec_soTxBlock_next {x : List Sample} (h : exec (.soTxBlock x) s = .next t) :
    s.poweredOn = true ∧ x.length % 6 = 0 ∧ ∃ u, s.txBlock x = .ok u ∧ t = u.give .unit := by
  obtain ⟨hp, h⟩ := State.whenOn_next h
  split at h
  · exact ⟨hp, by assumption, State.doneOr_next h⟩
  · cases h

theorem exec_soTxDrain_next (h : exec .soTxDrain s = .next t) :
    s.poweredOn = true ∧ t = (s.setSo { s.so with txq := [] }).give (.packets s.so.txq) :=
  (State.whenOn_next h).imp id State.done_next

theorem exec_soDeviceFail_next (h : exec .soDeviceFail s = .next t) :
    s.poweredOn = true ∧ t = ((s.raise .stopStreaming).resetStreams false).give .unit :=
  (State.whenOn_next h).imp id State.done_next

theorem exec_soTransportStop_next (h : exec .soTransportStop s = .next t) :
    s.poweredOn = true ∧ t = (s.mfReset.setSo { s.mfReset.so with txq := [] }).give .unit :=
  (State.whenOn_next h).imp id State.done_next

/-! ### The uses of the widths (R305) -/

/-- An audio packet notes no use of a width (R266). -/
theorem State.rxAudio_widthUse {p : List Byte} (h : s.rxAudio p = .ok t) : t.widthUse = s.widthUse := by
  rcases State.rxAudio_cases h with ⟨_, rfl⟩ | ⟨_, _, rfl⟩ | ⟨_, _, _, rfl⟩ | ⟨_, _, _, _, _, _, ⟨_, rfl⟩ | ⟨_, _, _, rfl⟩⟩ <;> rfl

/-- No operation changes the noted uses of the widths: the step notes them (R305). -/
theorem exec_widthUse (i : Instr) (h : exec i s = .next t) : t.widthUse = s.widthUse := by
  cases i
  case powerOn => rw [exec_powerOn_next h]; rfl
  case alawEnc => obtain ⟨_, rfl⟩ := exec_alawEnc_next h; rfl
  case alawDec => obtain ⟨_, rfl⟩ := exec_alawDec_next h; rfl
  case ulawEnc => obtain ⟨_, rfl⟩ := exec_ulawEnc_next h; rfl
  case ulawDec => obtain ⟨_, rfl⟩ := exec_ulawDec_next h; rfl
  case alawEncBuf => obtain ⟨_, rfl⟩ := exec_alawEncBuf_next h; rfl
  case alawDecBuf => obtain ⟨_, rfl⟩ := exec_alawDecBuf_next h; rfl
  case ulawEncBuf => obtain ⟨_, rfl⟩ := exec_ulawEncBuf_next h; rfl
  case ulawDecBuf => obtain ⟨_, rfl⟩ := exec_ulawDecBuf_next h; rfl
  case adpcmReset d => obtain ⟨_, rfl⟩ := exec_adpcmReset_next h; cases d <;> rfl
  case adpcmSetw d w => obtain ⟨_, _, _, rfl⟩ := exec_adpcmSetw_next h; cases d <;> rfl
  case adpcmEnc => obtain ⟨_, _, rfl⟩ := exec_adpcmEnc_next h; rfl
  case adpcmDec => obtain ⟨_, _, rfl⟩ := exec_adpcmDec_next h; rfl
  case adpcmEncBuf => obtain ⟨_, _, _, _, _, rfl⟩ := exec_adpcmEncBuf_next h; rfl
  case adpcmDecBuf => obtain ⟨_, _, _, _, _, _, rfl⟩ := exec_adpcmDecBuf_next h; rfl
  case rcReset d => obtain ⟨_, rfl⟩ := exec_rcReset_next h; cases d <;> rfl
  case interp6 => obtain ⟨_, rfl⟩ := exec_interp6_next h; rfl
  case decim6 => obtain ⟨_, _, rfl⟩ := exec_decim6_next h; rfl
  case jbReset => obtain ⟨_, rfl⟩ := exec_jbReset_next h; rfl
  case jbPush => obtain ⟨_, rfl⟩ := exec_jbPush_next h; rfl
  case jbPull => obtain ⟨_, _, rfl⟩ := exec_jbPull_next h; rfl
  case mfReset => obtain ⟨_, rfl⟩ := exec_mfReset_next h; rfl
  case mfFeed => obtain ⟨_, _, rfl⟩ := exec_mfFeed_next h; rfl
  case mfEncode => obtain ⟨_, _, _, rfl⟩ := exec_mfEncode_next h; rfl
  case soStart => obtain ⟨_, rfl⟩ := exec_soStart_next h; rfl
  case soStop => obtain ⟨_, rfl⟩ := exec_soStop_next h; rfl
  case soDispatch =>
    obtain ⟨_, ⟨_, u, hu, rfl⟩ | ⟨_, rfl⟩⟩ := exec_soDispatch_next h
    · exact (State.rxAudio_widthUse hu : u.widthUse = _)
    · rfl
  case soRxAudio => obtain ⟨_, u, hu, rfl⟩ := exec_soRxAudio_next h; exact (State.rxAudio_widthUse hu : u.widthUse = _)
  case soRxVideo => obtain ⟨_, _, _, _, rfl⟩ := exec_soRxVideo_next h; rfl
  case soSetTxMode m =>
    obtain ⟨_, rfl⟩ := exec_soSetTxMode_next h
    by_cases hm : m = s.so.txMode
    · rw [State.setTxMode_same _ _ hm]; rfl
    · rw [State.setTxMode_eq _ _ hm]; rfl
  case soTxBlock =>
    obtain ⟨_, _, u, hu, rfl⟩ := exec_soTxBlock_next h
    rcases State.txBlock_cases hu with ⟨_, rfl⟩ | ⟨_, _, v, _, rfl⟩ <;> rfl
  case soTxDrain => obtain ⟨_, rfl⟩ := exec_soTxDrain_next h; rfl
  case soDeviceFail => obtain ⟨_, rfl⟩ := exec_soDeviceFail_next h; rfl
  case soTransportStop => obtain ⟨_, rfl⟩ := exec_soTransportStop_next h; rfl

/-! ### Sample operations one after another (R175, R176) -/

theorem runOps_adpcmEnc (x : List Sample) (s : State) (h : s.poweredOn = true) :
    runOps (x.map (.adpcmEnc .tx)) s = .next { s with
      adpTx := (s.adpTx.encodeAll x).1, results := s.results ++ (s.adpTx.encodeAll x).2.map .code } := by
  induction x generalizing s with
  | nil => simp [runOps, Adp.encodeAll]
  | cons v x ih =>
    have he : exec (.adpcmEnc .tx v) s =
        .next ((s.setAdp .tx (s.adpTx.encodeSample v).1).give (.code (s.adpTx.encodeSample v).2)) :=
      (State.whenOn_on h _).trans rfl
    rw [List.map_cons, runOps_cons he, ih ((s.setAdp .tx (s.adpTx.encodeSample v).1).give _) h]
    simp [Adp.encodeAll, State.give, State.setAdp]

theorem runOps_adpcmDec (codes : List Nat) (s : State) (h : s.poweredOn = true)
    (hc : ∀ c ∈ codes, c < 2 ^ s.adpRx.w.bits) :
    runOps (codes.map fun c : Nat => .adpcmDec .rx c) s = .next { s with
      adpRx := (s.adpRx.decodeAll codes).1, results := s.results ++ (s.adpRx.decodeAll codes).2.map .sample } := by
  induction codes generalizing s with
  | nil => simp [runOps, Adp.decodeAll]
  | cons c codes ih =>
    have ht : truncN s.adpRx.w.bits (c : Int) = c := by
      unfold truncN
      norm_cast
      exact Nat.mod_eq_of_lt (hc c List.mem_cons_self)
    have he : exec (.adpcmDec .rx c) s =
        .next ((s.setAdp .rx (s.adpRx.decodeSample (truncN s.adpRx.w.bits c)).1).give
          (.sample (s.adpRx.decodeSample (truncN s.adpRx.w.bits c)).2)) := (State.whenOn_on h _).trans rfl
    rw [List.map_cons, runOps_cons he, ht,
      ih ((s.setAdp .rx (s.adpRx.decodeSample c).1).give _) h fun d hd => hc d (List.mem_cons_of_mem _ hd)]
    simp [Adp.decodeAll, State.give, State.setAdp]

end Sys2Proof.Machine
end

