-- ==== Sys2Proof/Laws/PerInstr.lean ====
section
/-! SUPPORT. Statements about every operation as syntax, one lemma per constructor. -/

namespace Sys2Proof.Laws

/-- The unit an operation belongs to (R92: 0 SYS, 1 CMP, 2 ADP, 3 RC, 4 JB, 5 MF, 6 SO). -/
def unitNumber : Instr → Nat
  | .powerOn => 0
  | .alawEnc _ => 1
  | .alawDec _ => 1
  | .ulawEnc _ => 1
  | .ulawDec _ => 1
  | .alawEncBuf _ => 1
  | .alawDecBuf _ => 1
  | .ulawEncBuf _ => 1
  | .ulawDecBuf _ => 1
  | .adpcmReset _ => 2
  | .adpcmSetw _ _ => 2
  | .adpcmEnc _ _ => 2
  | .adpcmDec _ _ => 2
  | .adpcmEncBuf _ _ _ _ => 2
  | .adpcmDecBuf _ _ _ _ => 2
  | .rcReset _ => 3
  | .interp6 _ => 3
  | .decim6 _ => 3
  | .jbReset => 4
  | .jbPush _ => 4
  | .jbPull _ => 4
  | .mfReset => 5
  | .mfFeed _ => 5
  | .mfEncode _ _ _ => 5
  | .soStart => 6
  | .soStop => 6
  | .soDispatch _ => 6
  | .soRxAudio _ => 6
  | .soRxVideo _ => 6
  | .soSetTxMode _ => 6
  | .soTxBlock _ => 6
  | .soTxDrain => 6
  | .soDeviceFail => 6
  | .soTransportStop => 6

/-- R92: `OP[7:4]` is the unit number. -/
def OpcodeUnit.Statement (i : Instr) : Prop := i.opcode.toNat / 16 = unitNumber i

/-- The operand bytes of an operation read back as its operands, and leave the bytes after them (log entry 2). -/
def OperandsReadBack.Statement (i : Instr) : Prop :=
  ∀ r : List Byte, getOperands i.opcode (putOperands i ++ r) = .ok (i, r)

theorem OpcodeUnit.powerOn : OpcodeUnit.Statement .powerOn := by simp [OpcodeUnit.Statement, Instr.opcode, unitNumber]
theorem OpcodeUnit.alawEnc (s : Sample) : OpcodeUnit.Statement (.alawEnc s) :=
  by simp [OpcodeUnit.Statement, Instr.opcode, unitNumber]
theorem OpcodeUnit.alawDec (c : Byte) : OpcodeUnit.Statement (.alawDec c) :=
  by simp [OpcodeUnit.Statement, Instr.opcode, unitNumber]
theorem OpcodeUnit.ulawEnc (s : Sample) : OpcodeUnit.Statement (.ulawEnc s) :=
  by simp [OpcodeUnit.Statement, Instr.opcode, unitNumber]
theorem OpcodeUnit.ulawDec (c : Byte) : OpcodeUnit.Statement (.ulawDec c) :=
  by simp [OpcodeUnit.Statement, Instr.opcode, unitNumber]
theorem OpcodeUnit.alawEncBuf (x : List Sample) : OpcodeUnit.Statement (.alawEncBuf x) :=
  by simp [OpcodeUnit.Statement, Instr.opcode, unitNumber]
theorem OpcodeUnit.alawDecBuf (y : List Byte) : OpcodeUnit.Statement (.alawDecBuf y) :=
  by simp [OpcodeUnit.Statement, Instr.opcode, unitNumber]
theorem OpcodeUnit.ulawEncBuf (x : List Sample) : OpcodeUnit.Statement (.ulawEncBuf x) :=
  by simp [OpcodeUnit.Statement, Instr.opcode, unitNumber]
theorem OpcodeUnit.ulawDecBuf (y : List Byte) : OpcodeUnit.Statement (.ulawDecBuf y) :=
  by simp [OpcodeUnit.Statement, Instr.opcode, unitNumber]
theorem OpcodeUnit.adpcmReset (i : Dir) : OpcodeUnit.Statement (.adpcmReset i) :=
  by simp [OpcodeUnit.Statement, Instr.opcode, unitNumber]
theorem OpcodeUnit.adpcmSetw (i : Dir) (w : Int) : OpcodeUnit.Statement (.adpcmSetw i w) :=
  by simp [OpcodeUnit.Statement, Instr.opcode, unitNumber]
theorem OpcodeUnit.adpcmEnc (i : Dir) (s : Sample) : OpcodeUnit.Statement (.adpcmEnc i s) :=
  by simp [OpcodeUnit.Statement, Instr.opcode, unitNumber]
theorem OpcodeUnit.adpcmDec (i : Dir) (code : Int) : OpcodeUnit.Statement (.adpcmDec i code) :=
  by simp [OpcodeUnit.Statement, Instr.opcode, unitNumber]
theorem OpcodeUnit.adpcmEncBuf (i : Dir) (x : List Sample) (b : List Byte) (off : Int) : OpcodeUnit.Statement (.adpcmEncBuf i x b off) :=
  by simp [OpcodeUnit.Statement, Instr.opcode, unitNumber]
theorem OpcodeUnit.adpcmDecBuf (i : Dir) (b : List Byte) (off n : Int) : OpcodeUnit.Statement (.adpcmDecBuf i b off n) :=
  by simp [OpcodeUnit.Statement, Instr.opcode, unitNumber]
theorem OpcodeUnit.rcReset (p : Path) : OpcodeUnit.Statement (.rcReset p) :=
  by simp [OpcodeUnit.Statement, Instr.opcode, unitNumber]
theorem OpcodeUnit.interp6 (x : List Sample) : OpcodeUnit.Statement (.interp6 x) :=
  by simp [OpcodeUnit.Statement, Instr.opcode, unitNumber]
theorem OpcodeUnit.decim6 (x : List Sample) : OpcodeUnit.Statement (.decim6 x) :=
  by simp [OpcodeUnit.Statement, Instr.opcode, unitNumber]
theorem OpcodeUnit.jbReset : OpcodeUnit.Statement .jbReset := by simp [OpcodeUnit.Statement, Instr.opcode, unitNumber]
theorem OpcodeUnit.jbPush (x : List Sample) : OpcodeUnit.Statement (.jbPush x) :=
  by simp [OpcodeUnit.Statement, Instr.opcode, unitNumber]
theorem OpcodeUnit.jbPull (n : Int) : OpcodeUnit.Statement (.jbPull n) :=
  by simp [OpcodeUnit.Statement, Instr.opcode, unitNumber]
theorem OpcodeUnit.mfReset : OpcodeUnit.Statement .mfReset := by simp [OpcodeUnit.Statement, Instr.opcode, unitNumber]
theorem OpcodeUnit.mfFeed (b : Byte) : OpcodeUnit.Statement (.mfFeed b) :=
  by simp [OpcodeUnit.Statement, Instr.opcode, unitNumber]
theorem OpcodeUnit.mfEncode (k : Kind) (i : Option U16) (ps : List Param) : OpcodeUnit.Statement (.mfEncode k i ps) :=
  by simp [OpcodeUnit.Statement, Instr.opcode, unitNumber]
theorem OpcodeUnit.soStart : OpcodeUnit.Statement .soStart := by simp [OpcodeUnit.Statement, Instr.opcode, unitNumber]
theorem OpcodeUnit.soStop : OpcodeUnit.Statement .soStop := by simp [OpcodeUnit.Statement, Instr.opcode, unitNumber]
theorem OpcodeUnit.soDispatch (m : FramedMessage) : OpcodeUnit.Statement (.soDispatch m) :=
  by simp [OpcodeUnit.Statement, Instr.opcode, unitNumber]
theorem OpcodeUnit.soRxAudio (p : List Byte) : OpcodeUnit.Statement (.soRxAudio p) :=
  by simp [OpcodeUnit.Statement, Instr.opcode, unitNumber]
theorem OpcodeUnit.soRxVideo (p : List Byte) : OpcodeUnit.Statement (.soRxVideo p) :=
  by simp [OpcodeUnit.Statement, Instr.opcode, unitNumber]
theorem OpcodeUnit.soSetTxMode (m : Mode) : OpcodeUnit.Statement (.soSetTxMode m) :=
  by simp [OpcodeUnit.Statement, Instr.opcode, unitNumber]
theorem OpcodeUnit.soTxBlock (x : List Sample) : OpcodeUnit.Statement (.soTxBlock x) :=
  by simp [OpcodeUnit.Statement, Instr.opcode, unitNumber]
theorem OpcodeUnit.soTxDrain : OpcodeUnit.Statement .soTxDrain :=
  by simp [OpcodeUnit.Statement, Instr.opcode, unitNumber]
theorem OpcodeUnit.soDeviceFail : OpcodeUnit.Statement .soDeviceFail :=
  by simp [OpcodeUnit.Statement, Instr.opcode, unitNumber]
theorem OpcodeUnit.soTransportStop : OpcodeUnit.Statement .soTransportStop :=
  by simp [OpcodeUnit.Statement, Instr.opcode, unitNumber]

theorem OperandsReadBack.powerOn : OperandsReadBack.Statement .powerOn :=
  fun r => by simp [Instr.opcode, putOperands, getOperands]
theorem OperandsReadBack.alawEnc (s : Sample) : OperandsReadBack.Statement (.alawEnc s) :=
  fun r => by simp [Instr.opcode, putOperands, getOperands]
theorem OperandsReadBack.alawDec (c : Byte) : OperandsReadBack.Statement (.alawDec c) :=
  fun r => by simp [Instr.opcode, putOperands, getOperands]
theorem OperandsReadBack.ulawEnc (s : Sample) : OperandsReadBack.Statement (.ulawEnc s) :=
  fun r => by simp [Instr.opcode, putOperands, getOperands]
theorem OperandsReadBack.ulawDec (c : Byte) : OperandsReadBack.Statement (.ulawDec c) :=
  fun r => by simp [Instr.opcode, putOperands, getOperands]
theorem OperandsReadBack.alawEncBuf (x : List Sample) : OperandsReadBack.Statement (.alawEncBuf x) :=
  fun r => by simp [Instr.opcode, putOperands, getOperands]
theorem OperandsReadBack.alawDecBuf (y : List Byte) : OperandsReadBack.Statement (.alawDecBuf y) :=
  fun r => by simp [Instr.opcode, putOperands, getOperands]
theorem OperandsReadBack.ulawEncBuf (x : List Sample) : OperandsReadBack.Statement (.ulawEncBuf x) :=
  fun r => by simp [Instr.opcode, putOperands, getOperands]
theorem OperandsReadBack.ulawDecBuf (y : List Byte) : OperandsReadBack.Statement (.ulawDecBuf y) :=
  fun r => by simp [Instr.opcode, putOperands, getOperands]
theorem OperandsReadBack.adpcmReset (i : Dir) : OperandsReadBack.Statement (.adpcmReset i) :=
  fun r => by simp [Instr.opcode, putOperands, getOperands]
theorem OperandsReadBack.adpcmSetw (i : Dir) (w : Int) : OperandsReadBack.Statement (.adpcmSetw i w) :=
  fun r => by simp [Instr.opcode, putOperands, getOperands]
theorem OperandsReadBack.adpcmEnc (i : Dir) (s : Sample) : OperandsReadBack.Statement (.adpcmEnc i s) :=
  fun r => by simp [Instr.opcode, putOperands, getOperands]
theorem OperandsReadBack.adpcmDec (i : Dir) (code : Int) : OperandsReadBack.Statement (.adpcmDec i code) :=
  fun r => by simp [Instr.opcode, putOperands, getOperands]
theorem OperandsReadBack.adpcmEncBuf (i : Dir) (x : List Sample) (b : List Byte) (off : Int) : OperandsReadBack.Statement (.adpcmEncBuf i x b off) :=
  fun r => by simp [Instr.opcode, putOperands, getOperands]
theorem OperandsReadBack.adpcmDecBuf (i : Dir) (b : List Byte) (off n : Int) : OperandsReadBack.Statement (.adpcmDecBuf i b off n) :=
  fun r => by simp [Instr.opcode, putOperands, getOperands]
theorem OperandsReadBack.rcReset (p : Path) : OperandsReadBack.Statement (.rcReset p) :=
  fun r => by simp [Instr.opcode, putOperands, getOperands]
theorem OperandsReadBack.interp6 (x : List Sample) : OperandsReadBack.Statement (.interp6 x) :=
  fun r => by simp [Instr.opcode, putOperands, getOperands]
theorem OperandsReadBack.decim6 (x : List Sample) : OperandsReadBack.Statement (.decim6 x) :=
  fun r => by simp [Instr.opcode, putOperands, getOperands]
theorem OperandsReadBack.jbReset : OperandsReadBack.Statement .jbReset :=
  fun r => by simp [Instr.opcode, putOperands, getOperands]
theorem OperandsReadBack.jbPush (x : List Sample) : OperandsReadBack.Statement (.jbPush x) :=
  fun r => by simp [Instr.opcode, putOperands, getOperands]
theorem OperandsReadBack.jbPull (n : Int) : OperandsReadBack.Statement (.jbPull n) :=
  fun r => by simp [Instr.opcode, putOperands, getOperands]
theorem OperandsReadBack.mfReset : OperandsReadBack.Statement .mfReset :=
  fun r => by simp [Instr.opcode, putOperands, getOperands]
theorem OperandsReadBack.mfFeed (b : Byte) : OperandsReadBack.Statement (.mfFeed b) :=
  fun r => by simp [Instr.opcode, putOperands, getOperands]
theorem OperandsReadBack.mfEncode (k : Kind) (i : Option U16) (ps : List Param) : OperandsReadBack.Statement (.mfEncode k i ps) :=
  fun r => by simp [Instr.opcode, putOperands, getOperands]
theorem OperandsReadBack.soStart : OperandsReadBack.Statement .soStart :=
  fun r => by simp [Instr.opcode, putOperands, getOperands]
theorem OperandsReadBack.soStop : OperandsReadBack.Statement .soStop :=
  fun r => by simp [Instr.opcode, putOperands, getOperands]
theorem OperandsReadBack.soDispatch (m : FramedMessage) : OperandsReadBack.Statement (.soDispatch m) :=
  fun r => by simp [Instr.opcode, putOperands, getOperands]
theorem OperandsReadBack.soRxAudio (p : List Byte) : OperandsReadBack.Statement (.soRxAudio p) :=
  fun r => by simp [Instr.opcode, putOperands, getOperands]
theorem OperandsReadBack.soRxVideo (p : List Byte) : OperandsReadBack.Statement (.soRxVideo p) :=
  fun r => by simp [Instr.opcode, putOperands, getOperands]
theorem OperandsReadBack.soSetTxMode (m : Mode) : OperandsReadBack.Statement (.soSetTxMode m) :=
  fun r => by simp [Instr.opcode, putOperands, getOperands]
theorem OperandsReadBack.soTxBlock (x : List Sample) : OperandsReadBack.Statement (.soTxBlock x) :=
  fun r => by simp [Instr.opcode, putOperands, getOperands]
theorem OperandsReadBack.soTxDrain : OperandsReadBack.Statement .soTxDrain :=
  fun r => by simp [Instr.opcode, putOperands, getOperands]
theorem OperandsReadBack.soDeviceFail : OperandsReadBack.Statement .soDeviceFail :=
  fun r => by simp [Instr.opcode, putOperands, getOperands]
theorem OperandsReadBack.soTransportStop : OperandsReadBack.Statement .soTransportStop :=
  fun r => by simp [Instr.opcode, putOperands, getOperands]

end Sys2Proof.Laws
end

