-- ==== Sys2Proof/Tests/Slice0.lean ====
section
/-! SUPPORT. The model's own tests: ill-formed operands, words written out from spec/30_encoding.md R92, one step at a time
against the vectors of spec/95_test_vectors.md (named in each group), and for every obligation with hypotheses a state
and operands that meet them. -/

namespace Sys2Proof.Tests

set_option Elab.async false

open Sys2Proof.Machine

/-- Samples, bytes. -/
def smp (l : List Int) : List Sample := l.map (BitVec.ofInt 16)
def bys (l : List Nat) : List Byte := l.map (BitVec.ofNat 8)

/-- The default parameters but a ring of 8 samples and short packets. -/
def smallConfig : Config := { defaultConfig with capacity := 8, txMax := ⟨8, 8, 8, 8, 8, 8, 12⟩ }

/-- A block after `POWER_ON` with those parameters. -/
def small : State := { State.reset with cfg := smallConfig, jb := Jb.idle 8 0 0 }

/-- The same, running. -/
def running : State := { small with so := { So.idle with running := true } }

/-- The next state has a property; the operation is refused so. -/
def after (o : Answer) (p : State → Bool) : Bool :=
  match o with
  | .next t => p t
  | .fault _ => false
  | .refused _ => false

def refusedWith (o : Answer) (r : Refusal) : Bool :=
  match o with
  | .next _ => false
  | .fault _ => false
  | .refused q => q == r

/-- The operation is carried out and its result is this. -/
def gives (i : Instr) (s : State) (r : Result) : Bool := after (exec i s) fun t => t.results == s.results ++ [r]

/-! ### Well-formedness (R45, R97) -/

theorem test_wf_payload_without_item : (Instr.soDispatch ⟨4, none, [1]⟩).wellFormed = false := by decide
theorem test_wf_length_8192 : (Instr.soDispatch ⟨4, some 1, List.replicate 8188 0⟩).wellFormed = false := by
  simp only [Instr.wellFormed, FramedMessage.wellFormed, List.length_replicate]; decide
theorem test_wf_length_8193 : (Instr.soDispatch ⟨4, some 1, List.replicate 8189 0⟩).wellFormed = false := by
  simp only [Instr.wellFormed, FramedMessage.wellFormed, List.length_replicate]; decide
theorem test_wf_length_8195 : (Instr.soDispatch ⟨4, some 1, List.replicate 8191 0⟩).wellFormed = false := by
  simp only [Instr.wellFormed, FramedMessage.wellFormed, List.length_replicate]; decide
theorem test_wf_length_8194 : (Instr.soDispatch ⟨4, some 1, List.replicate 8190 0⟩).wellFormed = true := by
  simp only [Instr.wellFormed, FramedMessage.wellFormed, List.length_replicate]; decide
theorem test_wf_header_only : (Instr.soDispatch ⟨4, none, []⟩).wellFormed = true := by decide

/-! ### Decoding: the codes of R92, the operand bytes of log entry 2 -/

theorem test_decode_sys : decode [0x00#8] = .ok .powerOn := rfl
theorem test_decode_cmp :
    decode [0x10#8, 0xE8#8, 0x03#8] = .ok (.alawEnc 1000#16) ∧ decode [0x11#8, 0xD5#8] = .ok (.alawDec 0xD5#8) ∧
    decode [0x12#8, 0xFF#8, 0xFF#8] = .ok (.ulawEnc 0xFFFF#16) ∧ decode [0x13#8, 0x7F#8] = .ok (.ulawDec 0x7F#8) :=
  ⟨rfl, rfl, rfl, rfl⟩
theorem test_decode_cmp_buffers :
    decode [0x14#8, 1, 0xE8#8, 0x03#8, 1, 0xFF#8, 0xFF#8, 0] = .ok (.alawEncBuf [1000#16, 0xFFFF#16]) ∧
    decode [0x15#8, 1, 0xD5#8, 0] = .ok (.alawDecBuf [0xD5#8]) ∧
    decode [0x16#8, 1, 0x00#8, 0x80#8, 0] = .ok (.ulawEncBuf [0x8000#16]) ∧
    decode [0x17#8, 1, 0xFE#8, 1, 0xCE#8, 0] = .ok (.ulawDecBuf [0xFE#8, 0xCE#8]) :=
  ⟨rfl, rfl, rfl, rfl⟩
theorem test_decode_adp :
    decode [0x20#8, 1] = .ok (.adpcmReset .tx) ∧
    decode [0x21#8, 0, 0, 1, 1, 0] = .ok (.adpcmSetw .rx 3) ∧
    decode [0x22#8, 0, 0xE8#8, 0x03#8] = .ok (.adpcmEnc .tx 1000#16) ∧
    decode [0x23#8, 0, 0, 1, 7, 0] = .ok (.adpcmDec .rx 7) ∧
    decode [0x24#8, 0, 1, 1, 0, 0, 1, 0xFF#8, 0, 0, 1, 2, 0] = .ok (.adpcmEncBuf .tx [1] [0xFF#8] 2) ∧
    decode [0x25#8, 0, 1, 0x77#8, 0, 0, 0, 0, 1, 2, 0] = .ok (.adpcmDecBuf .rx [0x77#8] 0 2) :=
  ⟨rfl, rfl, rfl, rfl, rfl, rfl⟩
theorem test_decode_rc :
    decode [0x30#8, 1] = .ok (.rcReset .dn) ∧ decode [0x31#8, 1, 0xE8#8, 0x03#8, 0] = .ok (.interp6 [1000#16]) ∧
    decode [0x32#8, 0] = .ok (.decim6 []) :=
  ⟨rfl, rfl, rfl⟩
theorem test_decode_jb :
    decode [0x40#8] = .ok .jbReset ∧ decode [0x41#8, 1, 5, 0, 0] = .ok (.jbPush [5]) ∧
    decode [0x42#8, 1, 0] = .ok (.jbPull (-1)) ∧ decode [0x42#8, 0, 1, 0x2C#8, 1, 1, 0] = .ok (.jbPull 300) :=
  ⟨rfl, rfl, rfl, rfl⟩
theorem test_decode_mf :
    decode [0x50#8] = .ok .mfReset ∧ decode [0x51#8, 0x0B#8] = .ok (.mfFeed 0x0B#8) ∧
    decode [0x52#8, 1, 1, 0x20#8, 0, 1, 1, 8, 0, 0, 1, 5, 0, 0] = .ok (.mfEncode 1 (some 0x20#16) [⟨8, 5⟩]) :=
  ⟨rfl, rfl, rfl⟩
theorem test_decode_so :
    decode [0x60#8] = .ok .soStart ∧ decode [0x61#8] = .ok .soStop ∧
    decode [0x62#8, 4, 1, 1, 0, 1, 7, 0] = .ok (.soDispatch ⟨4, some 1, [7]⟩) ∧
    decode [0x63#8, 1, 0, 1, 0, 1, 4, 0] = .ok (.soRxAudio [0, 0, 4]) ∧
    decode [0x64#8, 0, 7, 1, 1, 0] = .ok (.soRxVideo [7, 1]) ∧ decode [0x65#8, 4] = .ok (.soSetTxMode .adpcm4) ∧
    decode [0x66#8, 1, 9, 0, 0] = .ok (.soTxBlock [9]) ∧ decode [0x67#8] = .ok .soTxDrain ∧
    decode [0x68#8] = .ok .soDeviceFail ∧ decode [0x69#8] = .ok .soTransportStop :=
  ⟨rfl, rfl, rfl, rfl, rfl, rfl, rfl, rfl, rfl, rfl⟩
theorem test_decode_rejects :
    decode [] = .error .empty ∧ decode [0x18#8, 0] = .error (.reservedOp 0x18#8) ∧ decode [0x10#8, 1] = .error .truncated ∧
    decode [0x65#8, 7] = .error .badOperand ∧ decode [0x60#8, 0] = .error .trailing ∧
    decode [0x62#8, 4, 0, 1, 7, 0] = .error .illFormed :=
  ⟨rfl, rfl, rfl, rfl, rfl, rfl⟩

/-- R92: every row of the opcode table, and the operation read from it with zero operand bytes. -/
def tableRows : List (Nat × Instr) :=
  [(0x00, .powerOn), (0x10, .alawEnc 0), (0x11, .alawDec 0), (0x12, .ulawEnc 0), (0x13, .ulawDec 0),
   (0x14, .alawEncBuf []), (0x15, .alawDecBuf []), (0x16, .ulawEncBuf []), (0x17, .ulawDecBuf []),
   (0x20, .adpcmReset .rx), (0x21, .adpcmSetw .rx 2), (0x22, .adpcmEnc .tx 0), (0x23, .adpcmDec .rx 0),
   (0x24, .adpcmEncBuf .tx [] [] 0), (0x25, .adpcmDecBuf .rx [] 0 0), (0x30, .rcReset .up), (0x31, .interp6 []),
   (0x32, .decim6 []), (0x40, .jbReset), (0x41, .jbPush []), (0x42, .jbPull 0), (0x50, .mfReset), (0x51, .mfFeed 0),
   (0x52, .mfEncode 0 none []), (0x60, .soStart), (0x61, .soStop), (0x62, .soDispatch ⟨0, none, []⟩), (0x63, .soRxAudio []),
   (0x64, .soRxVideo [0]), (0x65, .soSetTxMode .noAudio), (0x66, .soTxBlock []), (0x67, .soTxDrain),
   (0x68, .soDeviceFail), (0x69, .soTransportStop)]

theorem test_table_words_decode : ∀ r ∈ tableRows, decodeTableWord 8 r.1 = some r.2 := by decide +kernel
theorem test_table_words_run :
    ∀ r ∈ tableRows, after (step (State.reset.withFetchWord 8 r.1)) (fun _ => true) = true := by decide +kernel
theorem test_reserved_word : decodeTableWord 8 0x6A = none := by decide +kernel

/-! ### Issue (R70, R75, R320) -/

theorem test_wrong_agent :
    refusedWith (step { small with pending := [⟨.cap, [0x42#8, 0, 0]⟩] }) .wrongAgent = true := by decide +kernel
theorem test_unit_reset_by_control :
    refusedWith (step { small with pending := [⟨.ctl, [0x20#8, 1]⟩] }) .wrongAgent = true := by decide +kernel

/-- R305: the bytes of a direct `ADPCM_SETW(tx, 2)`. -/
def setWidthTx : List Byte := encode (.adpcmSetw .tx 2)

theorem test_direct_width_after_start :
    after (step { small with pending := [⟨.ctl, [0x60#8]⟩, ⟨.test, setWidthTx⟩] })
      (fun t => t.widthUse == ⟨.orchestrated, .orchestrated⟩ && refusedWith (step t) .mixedWidthUse) = true := by decide +kernel
theorem test_start_after_direct_width :
    after (step { small with pending := [⟨.test, setWidthTx⟩, ⟨.ctl, [0x60#8]⟩] })
      (fun t => t.adpTx.w == .w2 && t.widthUse == ⟨.unused, .direct⟩ && refusedWith (step t) .mixedWidthUse) = true := by
  decide +kernel
theorem test_direct_width_after_power_on :
    after (step { small with widthUse := ⟨.orchestrated, .orchestrated⟩, pending := [⟨.ctl, [0x00#8]⟩, ⟨.test, setWidthTx⟩] })
      (fun t => t.widthUse == ⟨.unused, .unused⟩ && after (step t) fun u => u.adpTx.w == .w2) = true := by decide +kernel
theorem test_widths_of_two_instances :
    after (step { small with widthUse := ⟨.direct, .orchestrated⟩, pending := [⟨.ctl, [0x65#8, 4]⟩] })
      (fun t => t.so.txMode == .adpcm4 && t.widthUse == ⟨.direct, .orchestrated⟩) = true := by decide +kernel
theorem test_no_request : step small = .fault .endOfRun := rfl
theorem test_before_power_on : refusedWith (exec .soStart { small with poweredOn := false }) .beforePowerOn = true := by
  decide +kernel
theorem test_power_on :
    after (exec .powerOn { small with poweredOn := false, log := [.overrun], jb := Jb.idle 8 3 4, adpTx := Adp.idle .w2 })
      (fun t => t.poweredOn && t.log == [] && t.jb == Jb.idle 8 0 0 && t.adpTx == Adp.idle .w4) = true := by decide +kernel

/-! ### Compander (sections 2 and 3) -/

theorem test_alaw_enc :
    [0, -1, 15, 16, -17, 255, 256, 511, 512, 1023, 1024, 4095, 4096, 32767, -32768].map (fun v => alawEncode (BitVec.ofInt 16 v)) =
      bys [0xD5, 0x55, 0xD5, 0xD4, 0x54, 0xDA, 0xC5, 0xCA, 0xF5, 0xFA, 0xE5, 0x9A, 0x85, 0xAA, 0x2A] := by decide +kernel
theorem test_alaw_dec :
    ((bys [0x00, 0x80, 0xFF, 0x7F, 0x55, 0x2A, 0xAA, 0xD4]).map fun c => (alawDecode c).toInt) =
      [-5504, 5504, 848, -848, -8, -32256, 32256, 24] := by decide +kernel
theorem test_ulaw_enc :
    [0, -1, 3, 4, -4, 11, 12, 255, 1000, -1000, 32635, 32767, -32768].map (fun v => ulawEncode (BitVec.ofInt 16 v)) =
      bys [0xFF, 0x7F, 0xFF, 0xFE, 0x7E, 0xFE, 0xFD, 0xE7, 0xCE, 0x4E, 0x80, 0x80, 0x00] := by decide +kernel
theorem test_ulaw_dec :
    ((bys [0x7F, 0xFF, 0x00, 0x55, 0xD5, 0x2A, 0xAA, 0xD4]).map fun c => (ulawDecode c).toInt) =
      [0, 0, -32124, -716, 716, -5372, 5372, 748] := by decide +kernel
theorem test_alaw_enc_op : gives (.alawEnc 0) small (.byte 0xD5#8) = true := by decide +kernel
theorem test_alaw_dec_op : gives (.alawDec 0x7F#8) small (.sample (BitVec.ofInt 16 (-848))) = true := by decide +kernel
theorem test_ulaw_enc_op : gives (.ulawEnc 0) small (.byte 0xFF#8) = true := by decide +kernel
theorem test_ulaw_dec_op : gives (.ulawDec 0x55#8) small (.sample (BitVec.ofInt 16 (-716))) = true := by decide +kernel
theorem test_alaw_enc_buf :
    gives (.alawEncBuf (smp [0, 1000, -1000, 32767])) small (.bytes (bys [0xD5, 0xFA, 0x7A, 0xAA])) = true := by decide +kernel
theorem test_alaw_dec_buf :
    gives (.alawDecBuf (bys [0xD5, 0xFA, 0x7A, 0xAA])) small (.samples (smp [8, 1008, -1008, 32256])) = true := by
  decide +kernel
theorem test_ulaw_enc_buf :
    gives (.ulawEncBuf (smp [1000, -1000, 0])) small (.bytes (bys [0xCE, 0x4E, 0xFF])) = true := by decide +kernel
theorem test_ulaw_dec_buf :
    gives (.ulawDecBuf (bys [0xFE, 0xCE, 0x4E, 0x80])) small (.samples (smp [8, 988, -988, 32124])) = true := by decide +kernel

/-! ### ADPCM (section 4, R173) -/

/-- The registers after the first sample 1000 at W = 4 (R173, vector A15). -/
def adpA15 : Adp :=
  ⟨.w4, 192, 128, ⟨128, 128, 128, 128, 128, 128⟩, ⟨364, 32, 32, 32, 32, 32⟩, 364, 32, 35921, 1649, 112, 112, 32, 0, 0, 0⟩

/-- The end state of vector O1, six codes at W = 4. -/
def adpO1 : Adp :=
  ⟨.w4, 188, 386, ⟨126, 381, 381, 381, 381, 381⟩, ⟨1056, 444, 1453, 416, 372, 364⟩, 32, 443, 42749, 1545, 507, 545, 163, 0, 0, 0⟩

theorem test_adpcm_reset :
    after (exec (.adpcmReset .rx) { small with adpRx := { adpA15 with w := .w5 }, adpTx := adpA15 })
      (fun t => t.adpRx == Adp.idle .w5 && t.adpTx == adpA15) = true := by decide +kernel
theorem test_adpcm_setw :
    after (exec (.adpcmSetw .tx 2) { small with adpTx := adpA15 }) (fun t => t.adpTx == { adpA15 with w := .w2 }) = true := by
  decide +kernel
theorem test_adpcm_setw_refused : refusedWith (exec (.adpcmSetw .tx 6) small) .badWidth = true := by decide +kernel
theorem test_adpcm_enc :
    after (exec (.adpcmEnc .tx 1000) small) (fun t => t.adpTx == adpA15 && t.results == [.code 7]) = true := by decide +kernel
theorem test_adpcm_dec :
    after (exec (.adpcmDec .rx 23) small) (fun t => t.adpRx == adpA15 && t.results == [.sample 88]) = true := by decide +kernel
theorem test_adpcm_dec_next : gives (.adpcmDec .rx 7) { small with adpRx := adpA15 } (.sample 104) = true := by decide +kernel
theorem test_adpcm_enc_buf :
    gives (.adpcmEncBuf .tx (smp [1000, 1000, 1000, -2000]) [] 0) { small with adpTx := Adp.idle .w3 }
      (.packed (bys [0xDB, 0x08]) 12) = true := by decide +kernel
theorem test_adpcm_enc_buf_clears :
    gives (.adpcmEncBuf .tx [] [0xFF#8] 2) { small with adpTx := Adp.idle .w3 } (.packed [0x03#8] 2) = true := by decide +kernel
theorem test_adpcm_dec_buf :
    gives (.adpcmDecBuf .rx (bys [0xDB, 0x08]) 0 4) { small with adpRx := Adp.idle .w3 }
      (.samples (smp [60, 72, 80, -92])) = true := by decide +kernel
theorem test_adpcm_dec_buf_refused :
    refusedWith (exec (.adpcmDecBuf .rx (bys [0xFF, 0x01]) 0 6) { small with adpRx := Adp.idle .w3 }) .badRange = true := by
  decide +kernel
theorem test_pack_p2 : packCodes .w5 (bys [0x05]) 3 [0x15, 0x0A, 0x1F] = bys [0xAD, 0xEA, 0x03] := by decide +kernel

/-! ### Rate converter (section 5) -/

theorem test_rc_reset :
    after (exec (.rcReset .up) { small with rcUp := ⟨[1], [2]⟩, rcDn := ⟨[3], [4], 1, 2⟩ })
      (fun t => t.rcUp == ⟨smp [0, 0, 0, 0, 0, 0], smp [0, 0, 0, 0, 0, 0]⟩ && t.rcDn == ⟨[3], [4], 1, 2⟩) = true := by
  decide +kernel
theorem test_interp6 :
    after (exec (.interp6 (smp [1000, 0])) small)
      (fun t => t.rcUp == ⟨smp [0, 1000, 0, 0, 0, 0], smp [0, -98, 0, 12, 0, 0]⟩ &&
        t.results == [.samples (smp [0, 0, 0, -1, -2, 0, 3, 8, 12, 17, 17, 0])]) = true := by decide +kernel
theorem test_interp6_rounds_half_up :
    gives (.interp6 (smp [-32768])) small (.samples (smp [-4, -8, 0, 29, 50, 0])) = true := by decide +kernel
theorem test_decim6 :
    after (exec (.decim6 (smp [1, 2, 3, 4, 5, 6])) small)
      (fun t => t.rcDn == ⟨smp [6, 5, 4, 3, 2, 1, 0, 0, 0, 0, 0], smp (1 :: List.replicate 16 0), 0, 0⟩ &&
        t.results == [.samples [0]]) = true := by decide +kernel
theorem test_decim6_refused : refusedWith (exec (.decim6 (smp [1, 2, 3, 4])) small) .badLength = true := by decide +kernel

/-! ### Jitter buffer (section 6) -/

/-- The registers after rows J2, J3b and J6. -/
def jbJ2 : Jb := ⟨smp [1, 2, 3, 4, 0, 0, 0, 0], 4, 0, 4, true, 0, 0, 0, 0, 0⟩
def jbJ3b : Jb := ⟨smp [1, 2, 3, 4, 5, 0, 0, 0], 5, 3, 2, false, 201 / 50, 3, 0, 0, 0⟩
def jbJ6 : Jb := ⟨smp [9, 10, 11, 4, 5, 6, 7, 8], 3, 5, 6, false, 10149 / 2500, 11, 0, 2, 1⟩

theorem test_jb_reset :
    after (exec .jbReset { small with jb := jbJ6 }) (fun t => t.jb == Jb.idle 8 2 1) = true := by decide +kernel
theorem test_jb_push_arms :
    after (exec (.jbPush [5]) { small with jb := jbJ2 })
      (fun t => t.jb == ⟨smp [1, 2, 3, 4, 5, 0, 0, 0], 5, 0, 5, false, 201 / 50, 0, 0, 0, 0⟩) = true := by decide +kernel
theorem test_jb_push_overrun :
    after (exec (.jbPush (smp [12, 13, 14])) { small with jb := jbJ6 })
      (fun t => t.jb == ⟨smp [9, 10, 11, 12, 13, 14, 7, 8], 6, 1, 5, false, 509801 / 125000, 11, 0, 2, 2⟩ &&
        t.log == [.overrun]) = true := by decide +kernel
theorem test_jb_pull_underrun :
    after (exec (.jbPull 3) { small with jb := jbJ3b })
      (fun t => t.jb == ⟨smp [1, 2, 3, 4, 5, 0, 0, 0], 5, 1, 4, false, 201 / 50, 6, 0, 1, 0⟩ && t.log == [.underrun] &&
        t.results == [.samples (smp [4, 5, 0])]) = true := by decide +kernel
theorem test_jb_pull_refused : refusedWith (exec (.jbPull (-1)) small) .negativeCount = true := by decide +kernel

/-! ### Message framer (section 7) -/

/-- A framer in the middle of vector F1's message, one byte missing. -/
def mfF1 : Mf := ⟨.awaitBody, 0x0B#8, 11, 1, 10, bys [0x0B, 0x20, 0x20, 0x00, 0x01, 0x34, 0x12, 0xEF, 0xBE, 0xAD], false⟩

/-- A framer after one header byte, and one with the fault of vector F3. -/
def mfHeader (b : Byte) : Mf := ⟨.awaitHeader2, b, 2, 0, 1, [b], false⟩
def mfF3 : Mf := ⟨.awaitHeader2, 0x03#8, 2, 0, 2, bys [0x03, 0x00], true⟩

theorem test_mf_reset : after (exec .mfReset { small with mf := mfF3 }) (fun t => t.mf == Mf.idle) = true := by decide +kernel
theorem test_mf_feed_last_byte :
    after (exec (.mfFeed 0xDE#8) { small with mf := mfF1 })
      (fun t => t.mf.state == .awaitHeader1 &&
        t.results == [.message (some ⟨1, some 0x20#16, bys [0x01, 0x34, 0x12, 0xEF, 0xBE, 0xAD, 0xDE]⟩)]) = true := by
  decide +kernel
theorem test_mf_feed_violation :
    after (exec (.mfFeed 0x00#8) { small with mf := mfHeader 0x03#8 })
      (fun t => t.mf == mfF3 && t.log == [.framingViolation 3] && t.results == [.message none]) = true := by decide +kernel
theorem test_mf_encode :
    gives (.mfEncode 1 (some 0x20#16) [⟨8, 1⟩, ⟨16, 0x1234⟩, ⟨32, 0xDEADBEEF⟩]) small
      (.bytes (bys [0x0B, 0x20, 0x20, 0x00, 0x01, 0x34, 0x12, 0xEF, 0xBE, 0xAD, 0xDE])) = true := by decide +kernel
theorem test_mf_encode_negative :
    gives (.mfEncode 0 (some 0x118#16) [⟨32, -2⟩]) small (.bytes (bys [8, 0, 0x18, 1, 0xFE, 0xFF, 0xFF, 0xFF])) = true := by
  decide +kernel

/-! ### Stream orchestrator (section 8) -/

/-- Running, with every stream register disturbed. -/
def disturbed : State :=
  { running with
    adpRx := adpO1
    adpTx := adpA15
    jb := jbJ6
    so := ⟨true, .adpcm4, .adpcm4, 16, 0, ⟨bys [0x77], 8, 2⟩, [bys [1, 2]]⟩ }

theorem test_so_start :
    after (exec .soStart disturbed)
      (fun t => t.adpRx == Adp.idle .w4 && t.jb == Jb.idle 8 2 1 &&
        t.so == ⟨true, .noAudio, .adpcm4, 16, 0, ⟨[], 0, 0⟩, []⟩) = true := by decide +kernel
theorem test_so_stop :
    after (exec .soStop disturbed)
      (fun t => t.adpTx == Adp.idle .w4 && t.so == ⟨false, .noAudio, .adpcm4, 16, 0, ⟨[], 0, 0⟩, []⟩ && t.log == []) = true := by
  decide +kernel
theorem test_so_device_fail :
    after (exec .soDeviceFail disturbed) (fun t => t.log == [.stopStreaming] && !t.so.running && t.so.txq == []) = true := by
  decide +kernel
theorem test_so_dispatch_passes :
    gives (.soDispatch ⟨1, some 0x20#16, [1]⟩) running (.message (some ⟨1, some 0x20#16, [1]⟩)) = true := by decide +kernel
theorem test_so_dispatch_audio :
    after (exec (.soDispatch ⟨4, some 1, bys [5, 0, 0, 1, 2, 3]⟩) running)
      (fun t => t.results == [.message none] && t.so.meter == 5) = true := by decide +kernel
theorem test_so_rx_audio_o1 :
    after (exec (.soRxAudio (bys [0x10, 0x00, 4, 0x77, 0x87, 0xF7]))
        { running with cfg := { smallConfig with capacity := 64 }, jb := Jb.idle 64 0 0 })
      (fun t => t.adpRx == adpO1 && t.so.meter == 16 && t.so.rxMode == .adpcm4 && t.jb.level == 36) = true := by decide +kernel
theorem test_so_rx_audio_o6 :
    after (exec (.soRxAudio (bys [1, 2, 9, 5, 5, 5])) disturbed)
      (fun t => t.log == [.badMode 9] && t.so == disturbed.so && t.jb == disturbed.jb) = true := by decide +kernel
theorem test_so_rx_video : gives (.soRxVideo [7, 1, 2, 3]) small (.video 7 [1, 2, 3]) = true := by decide +kernel
theorem test_so_rx_video_refused : refusedWith (exec (.soRxVideo []) small) .emptyPayload = true := by decide +kernel
theorem test_so_set_tx_mode :
    after (exec (.soSetTxMode .adpcm3) disturbed)
      (fun t => t.adpTx == Adp.idle .w3 && t.so == ⟨true, .adpcm4, .adpcm3, 16, 0, ⟨[], 0, 0⟩, [bys [1, 2]]⟩) = true := by
  decide +kernel
theorem test_so_tx_block_o13 :
    after (exec (.soTxBlock (List.replicate 48 1000)) { running with so := { running.so with txMode := .uLaw } })
      (fun t => t.so.stage == ⟨[], 0, 0⟩ &&
        t.so.txq == [bys [0x0F, 0x80, 0, 0, 0, 0, 2, 0xFF, 0x7E, 0xFC, 0xD0, 0xCD, 0xCE, 0xCE, 0xCE]]) = true := by
  decide +kernel
theorem test_so_tx_block_o15 :
    after (exec (.soTxBlock (List.replicate 30 8000))
        { running with adpTx := Adp.idle .w3, so := { running.so with txMode := .adpcm3 } })
      (fun t => t.so.stage == ⟨bys [0xE9, 0x36], 15, 5⟩ && t.so.txq == []) = true := by decide +kernel
theorem test_so_tx_drain :
    after (exec .soTxDrain disturbed) (fun t => t.results == [.packets [bys [1, 2]]] && t.so.txq == []) = true := by
  decide +kernel
theorem test_so_transport_stop :
    after (exec .soTransportStop { disturbed with mf := mfF3 }) (fun t => t.mf == Mf.idle && t.so.txq == []) = true := by
  decide +kernel

/-! ### Witnesses: for each obligation a state and operands that meet its hypotheses, clause by clause -/

/-- Running in `ULaw` both ways, one sample short of a packet, one packet waiting. -/
def talking : State :=
  { running with
    so := ⟨true, .uLaw, .uLaw, 16, 0, ⟨bys [1, 2, 3, 4, 5, 6, 7], 56, 7⟩,
      [bys [0x0F, 0x80, 0, 0, 0, 0, 2, 0xFF, 0x7E, 0xFC, 0xD0, 0xCD, 0xCE, 0xCE, 0xCE]]⟩ }

/-- A waiting packet, as an orchestrator in mode `ULaw` builds it (vector O13). -/
def packetO13 : List Byte := bys [0x0F, 0x80, 0, 0, 0, 0, 2, 0xFF, 0x7E, 0xFC, 0xD0, 0xCD, 0xCE, 0xCE, 0xCE]

theorem small_inv : small.Inv where
  admissible := by decide +kernel
  adpRx := by decide +kernel
  adpTx := by decide +kernel
  rcUp := by decide +kernel
  rcDn := by decide +kernel
  jb := by decide +kernel
  mf := by decide +kernel
  so := by decide +kernel
  txq := fun _ hp => absurd hp List.not_mem_nil
  underruns := by decide +kernel
  overruns := by decide +kernel

theorem talking_inv : talking.Inv where
  admissible := by decide +kernel
  adpRx := by decide +kernel
  adpTx := by decide +kernel
  rcUp := by decide +kernel
  rcDn := by decide +kernel
  jb := by decide +kernel
  mf := by decide +kernel
  so := by decide +kernel
  txq := by
    intro p hp
    obtain rfl := List.mem_singleton.1 hp
    exact ⟨.uLaw, bys [0xFF, 0x7E, 0xFC, 0xD0, 0xCD, 0xCE, 0xCE, 0xCE], by decide, by rfl⟩
  underruns := by decide +kernel
  overruns := by decide +kernel

theorem witness_StepRunsDecodedOperation :
    decode [0x51#8, 0x02#8] = .ok (.mfFeed 0x02#8) ∧ permitted .net (.mfFeed 0x02#8) = true ∧
      (⟨.direct, .orchestrated⟩ : WidthUses).mixedBy small.cfg (.mfFeed 0x02#8) = false ∧
      decode setWidthTx = .ok (.adpcmSetw .tx 2) ∧ permitted .test (.adpcmSetw .tx 2) = true ∧
      (⟨.orchestrated, .direct⟩ : WidthUses).mixedBy small.cfg (.adpcmSetw .tx 2) = false := by decide +kernel
theorem witness_AgentsIssueOnlyTheirOperations :
    decode [0x42#8, 0, 0] = .ok (.jbPull 0) ∧ permitted .cap (.jbPull 0) = false ∧ permitted .net (.jbPull 0) = false ∧
      decode [0x20#8, 1] = .ok (.adpcmReset .tx) ∧ permitted .ctl (.adpcmReset .tx) = false ∧
      permitted .test (.adpcmReset .tx) = true := ⟨rfl, rfl, rfl, rfl, rfl, rfl⟩
theorem witness_ReservedOperationCodeRefused :
    ({ small with pending := [⟨.net, [0x18#8, 0]⟩] } : State).pending = ⟨.net, 0x18#8 :: [0]⟩ :: [] ∧
      (0x18#8).toNat ∉ [0x00, 0x10, 0x11, 0x12, 0x13, 0x14, 0x15, 0x16, 0x17, 0x20, 0x21, 0x22, 0x23, 0x24, 0x25, 0x30, 0x31,
        0x32, 0x40, 0x41, 0x42, 0x50, 0x51, 0x52, 0x60, 0x61, 0x62, 0x63, 0x64, 0x65, 0x66, 0x67, 0x68, 0x69] :=
  ⟨rfl, by decide⟩
theorem witness_DecodeEncodeAgree :
    (Instr.soDispatch ⟨4, some 1, [7]⟩).wellFormed = true ∧ (Instr.adpcmEncBuf .rx [1] [2] (-3)).wellFormed = true := by decide
theorem witness_EncodeDecodeAgree : decode [0x42#8, 1, 0] = .ok (.jbPull (-1)) := rfl
theorem witness_RefusedBeforePowerOn : ({ small with poweredOn := false } : State).poweredOn = false ∧ Instr.soStart ≠ .powerOn := by
  decide

/-- For every obligation that asks only for a block that is on (the unit resets, the closed forms of the compander, the
buffers, the width, the sample operations, the wrong instance, the conversion of a block, start and stop, video). -/
theorem witness_poweredOn : small.poweredOn = true ∧ disturbed.poweredOn = true := by decide +kernel

theorem witness_CompanderBuffersMapTheScalarForms :
    (smp [5, 1000])[1]? = some 1000#16 ∧ (bys [0xD5, 0xFA])[1]? = some 0xFA#8 := by decide
theorem witness_CompanderCodesRoundTrip : (0xFF#8 : Byte) ≠ 0x7F#8 := by decide
theorem witness_CompanderErrorWithinHalfInterval : (BitVec.ofInt 16 (-32635)).toInt.natAbs ≤ 32635 := by decide
theorem witness_CompandersMonotoneAndSymmetric :
    (BitVec.ofInt 16 (-32768)).toInt ≤ (32767#16).toInt ∧ (BitVec.ofInt 16 (-32767)).toInt = -(32767#16).toInt ∧
      (BitVec.ofInt 16 (-32768)).toInt = -(32767#16).toInt - 1 := by decide
theorem witness_SetWidthWritesOnlyW : (1 : Int) ∉ [(2 : Int), 3, 4, 5] ∧ (6 : Int) ∉ [(2 : Int), 3, 4, 5] := by decide
theorem witness_EncodeSampleCompletes : small.poweredOn = true ∧ small.adpTx.w ≠ .w2 := by decide +kernel
theorem witness_DecodeSampleCompletes :
    (23 : Int) % 2 ^ small.adpRx.w.bits = 7 % 2 ^ small.adpRx.w.bits ∧ small.adpRx.InRange ∧ adpO1.InRange := by decide +kernel
theorem witness_SampleLockStep : small.poweredOn = true ∧ small.adpRx = small.adpTx := by decide +kernel
theorem witness_BlockLockStep :
    small.poweredOn = true ∧ small.adpRx = small.adpTx ∧ 8 ≤ 8 * [0xFF#8].length ∧ 0 ≤ 8 * ([] : List Byte).length := by
  decide +kernel
theorem witness_EncodeBufferPacksCodes :
    ((0 : Int) ≤ 8 ∧ (8 : Int) ≤ 8 * ([0xFF#8].length : Int)) ∧ ((-1 : Int) < 0) ∧ (8 * ([0xFF#8].length : Int) < 9) := by decide
theorem witness_DecodeBufferUnpacksCodes :
    ((0 : Int) + small.adpRx.w.bits * 4 ≤ 8 * ((bys [0x77, 0x87]).length : Int)) ∧
      8 * ((bys [0x77, 0x87]).length : Int) < 0 + small.adpRx.w.bits * 5 ∧
      ((0 : Int) ≤ 12 ∧ (12 : Int) + small.adpRx.w.bits * 1 ≤ 8 * ((bys [0x77, 0x87]).length : Int)) := by decide +kernel
theorem witness_SampleStepClampsRegisters :
    ∃ t, exec (.adpcmEnc .tx 1000) small = .next t ∧ 34816 ≤ small.adpTx.yl.toNat ∧ small.adpTx.yl.toNat ≤ 327680 :=
  ⟨_, rfl, by decide +kernel, by decide +kernel⟩
theorem witness_ScaleFactorAndSpeedMoveByLeaks :
    small.adpTx.InRange ∧ ∃ t, exec (.adpcmEnc .tx 1000) small = .next t ∧ t.results = small.results ++ [.code 7] :=
  ⟨by decide +kernel, _, rfl, by decide +kernel⟩
theorem witness_DecimationGivesOneForSix :
    (smp [1, 2, 3, 4, 5, 6]).length % 6 = 0 ∧ small.rcDn.ph2 < 2 ∧ small.rcDn.ph3 < 3 ∧ (smp [1, 2, 3, 4, 5]).length % 6 ≠ 0 := by
  decide +kernel
theorem witness_InterpolationOfOneSample :
    small.poweredOn = true ∧ 0 < small.cfg.h2.length ∧ 0 < small.cfg.h3.length := by decide +kernel
theorem witness_DecimationOfSixSamples :
    small.poweredOn = true ∧ 0 < small.cfg.h2.length ∧ 0 < small.cfg.h3.length ∧ small.rcDn.ph2 = 0 ∧ small.rcDn.ph3 = 0 := by
  decide +kernel
theorem witness_BlockCutsDoNotMatter :
    (smp [1, 2, 3, 4, 5, 6]).length % 6 = 0 ∧ (List.replicate 12 (7 : Sample)).length % 6 = 0 := by decide +kernel

/-- Every queue full of 5. -/
def flat : State := { small with rcUp := ⟨List.replicate 6 5, List.replicate 6 5⟩, rcDn := ⟨List.replicate 11 5, List.replicate 17 5, 0, 0⟩ }

theorem witness_ConstantInputReproduced :
    flat.poweredOn = true ∧ flat.cfg.Admissible ∧ flat.rcUp = ⟨List.replicate flat.cfg.k2 5, List.replicate flat.cfg.k3 5⟩ ∧
      flat.rcDn = ⟨List.replicate flat.cfg.h2.length 5, List.replicate flat.cfg.h3.length 5, 0, 0⟩ := by decide +kernel

/-- A ring of 8 out of start-up with a given level and count, and one in start-up. -/
def level (l consumed : Nat) : Jb := ⟨smp [1, 2, 3, 4, 5, 6, 7, 8], l, 0, l, false, 4, consumed, 0, 0, 0⟩
def starting (l : Nat) : Jb := ⟨smp [1, 2, 3, 4, 5, 6, 7, 8], l, 0, l, true, 0, 0, 0, 0, 0⟩

theorem witness_PushOneSample :
    (level 7 0).level + 1 = 8 ∧ (level 6 0).level + 1 ≠ 8 ∧ (level 6 0).startup = false ∧
      ((starting 4).startup = true ∧ (starting 4).level + 1 ≠ 8 ∧ (starting 4).level + 1 > 8 / 2) ∧
      ((starting 3).startup = true ∧ (starting 3).level + 1 ≤ 8 / 2) := by decide
/-- Level 4 of 8 in start-up with no sample and with one, level 3 with one and with a block that overruns; out of start-up. -/
theorem witness_PushRefinesAQueue :
    small.poweredOn = true ∧ capacityOk small.cfg.capacity ∧ (level 7 0).Wf small.cfg.capacity ∧
      (level 7 0).startup = false ∧ (starting 4).Wf small.cfg.capacity ∧ (starting 4).startup = true ∧
      (starting 4).level + ([] : List Sample).length ≤ 8 / 2 ∧ 8 / 2 < (starting 4).level + [(9 : Sample)].length ∧
      (starting 3).Wf small.cfg.capacity ∧ (starting 3).level + [(9 : Sample)].length ≤ 8 / 2 ∧
      8 / 2 < (starting 3).level + (List.replicate 20 (9 : Sample)).length := by decide +kernel
theorem witness_PullDeliversTheOldestSamples :
    (level 3 0).startup = false ∧ (level 3 0).tail < small.cfg.capacity ∧ (0 : Int) ≤ 3 ∧ (3 : Int) ≤ (level 3 0).level ∧
      (-1 : Int) < 0 ∧ small.poweredOn = true := by decide +kernel
theorem witness_StartupGivesSilence : small.poweredOn = true ∧ small.jb.startup = true := by decide +kernel
theorem witness_UnderrunReplaysHalfABuffer :
    small.poweredOn = true ∧ capacityOk small.cfg.capacity ∧ (level 0 47999).Wf small.cfg.capacity ∧
      (level 0 47999).startup = false ∧ (level 0 47999).level = 0 ∧ (level 0 47998).Wf small.cfg.capacity ∧
      (level 0 47998).startup = false ∧ (level 0 47998).level = 0 := by decide +kernel
theorem witness_DriftEvery48000Samples :
    (level 1 47999).startup = false ∧ 0 < (level 1 47999).level ∧ (level 1 47999).consumed = 47999 ∧
      (level 1 47998).consumed < 47999 := by decide

/-- Lengths 1, 3, 8194 (declared by 0) with a smaller `MAX_MSG_LEN`; 2; and 4 and 8194 admitted. -/
theorem witness_FeedHeaderBytes :
    small.mf.state = .awaitHeader1 ∧ (mfHeader 0x01#8).state = .awaitHeader2 ∧ (mfHeader 0x01#8).fault = false ∧
      (0x01#8).toNat + 256 * (0x20#8).toNat = 1 * 8192 + 1 ∧ (0x03#8).toNat + 256 * (0xE0#8).toNat = 7 * 8192 + 3 ∧
      8194 > ({ smallConfig with maxMsgLen := 8193 } : Config).maxMsgLen ∧
      (0x02#8).toNat + 256 * (0x60#8).toNat = 3 * 8192 + 2 ∧ (0x04#8).toNat + 256 * (0x00#8).toNat = 4 ∧
      (0x00#8).toNat + 256 * (0xE0#8).toNat = 7 * 8192 ∧ 8194 ≤ smallConfig.maxMsgLen := by decide +kernel
theorem witness_FeedBodyBytes :
    mfF1.state = .awaitBody ∧ mfF1.fault = false ∧ mfF1.idx + 1 = mfF1.len ∧
      mfF1.buf ++ [0xDE#8] = 0x0B#8 :: 0x20#8 :: 0x20#8 :: 0x00#8 :: bys [0x01, 0x34, 0x12, 0xEF, 0xBE, 0xAD, 0xDE] ∧
      mfF1.len = 4 + (bys [0x01, 0x34, 0x12, 0xEF, 0xBE, 0xAD, 0xDE]).length ∧ ({ mfF1 with len := 12 } : Mf).idx + 1 ≠ 12 := by
  decide
theorem witness_FramingFaultLatches :
    mfF3.fault = true ∧ ∃ t, exec .jbReset { small with mf := mfF3 } = .next t := ⟨rfl, _, rfl⟩

/-- Widths, and the lengths 4, 8191 and 8194 admitted and 8192, 8193 and 8195 not. -/
theorem witness_EncodeMessageLayout :
    (∀ p ∈ [(⟨8, 1⟩ : Param), ⟨16, -1⟩, ⟨32, 7⟩], p.width = 8 ∨ p.width = 16 ∨ p.width = 32) ∧
      4 + ([] : List Byte).length ≤ smallConfig.maxMsgLen ∧
      4 + ((List.replicate 8187 (⟨8, 0⟩ : Param)).flatMap paramBytes).length = 8191 ∧
      4 + ((List.replicate 8190 (⟨8, 0⟩ : Param)).flatMap paramBytes).length = 8194 ∧ 8194 ≤ smallConfig.maxMsgLen ∧
      4 + ((List.replicate 8188 (⟨8, 0⟩ : Param)).flatMap paramBytes).length = 8192 ∧
      4 + ((List.replicate 8191 (⟨8, 0⟩ : Param)).flatMap paramBytes).length = 8195 ∧
      ¬ ∀ p ∈ [(⟨24, 1⟩ : Param)], p.width = 8 ∨ p.width = 16 ∨ p.width = 32 := by
  have h (n : Nat) : ((List.replicate n (⟨8, 0⟩ : Param)).flatMap paramBytes).length = n := by
    induction n with
    | zero => rfl
    | succ n ih => simp only [List.replicate_succ, List.flatMap_cons, List.length_append, ih]; exact Nat.add_comm 1 n
  simp only [h]
  exact ⟨by decide, by decide +kernel, by decide, by decide, by decide +kernel, by decide, by decide, by decide⟩
theorem witness_FramerInvertsEncoder :
    small.mf.state = .awaitHeader1 ∧ small.mf.fault = false ∧
      exec (.mfEncode 4 (some 1) [⟨8, 7⟩]) small = .next { small with
        results := small.results ++ [.bytes (bys [0x05, 0x80, 0x01, 0x00, 0x07])] } := ⟨rfl, rfl, rfl⟩
theorem witness_FramerDecodesAStreamInOrder :
    [((3 : Kind), (none : Option U16), ([] : List Param)), (4, some 1, [⟨8, 7⟩])].map
        (fun m => encodeMessage small.cfg.maxMsgLen m.1 m.2.1 m.2.2) =
      [bys [0x02, 0x60], bys [0x05, 0x80, 0x01, 0x00, 0x07]].map .ok := rfl
theorem witness_DispatchRoutesByKindAndItem :
    selects small.cfg.audioSel 5 (some 0xFFFF) = false ∧ selects small.cfg.audioSel 4 none = false ∧
      selects small.cfg.audioSel 4 (some 0xFFFF) = true ∧ selects small.cfg.audioSel 4 (some 0) = true ∧ talking.ModesAgree ∧
      small.ModesAgree := by decide +kernel
theorem witness_BadAudioPacketsAreDropped :
    small.so.running = false ∧ running.so.running = true ∧ ([0, 0] : List Byte).length < 3 ∧
      ∀ m ∈ Mode.all, running.cfg.modeCode.get m ≠ 7 := by decide +kernel
theorem witness_AudioPacketIsDecodedAndPlayed :
    running.poweredOn = true ∧ running.so.running = true ∧ running.ModesAgree ∧ modeCodeOk running.cfg.modeCode ∧
      Mode.raw16 ≠ .noAudio ∧ Mode.uLaw ≠ .noAudio ∧ modeWidth .adpcm5 = some .w5 ∧ (bys [3, 0]).length = 2 ∧
      (bys [3]).length ≠ 2 ∧ talking.so.running = true ∧ talking.ModesAgree := by decide +kernel
theorem witness_NoAudioPacketPushesNothing : talking.poweredOn = true ∧ talking.so.running = true := by decide +kernel
theorem witness_ModeSwitchForgetsThePredictor :
    running.so.running = true ∧ 3 ≤ (bys [0, 0, 6]).length ∧ running.cfg.modeOf (audMode (bys [0, 0, 6])) = some .adpcm2 ∧
      Mode.adpcm2 ≠ running.so.rxMode ∧ modeWidth .adpcm2 = some .w2 ∧
      running.cfg.modeOf (audMode (bys [0, 0, 1])) = some .raw16 ∧ modeWidth .raw16 = none ∧ adpA15.w = adpO1.w ∧
      adpA15 ≠ adpO1 := by decide +kernel
theorem witness_SetTxModeDiscardsThePartialPacket :
    Mode.uLaw = talking.so.txMode ∧ Mode.adpcm2 ≠ talking.so.txMode ∧ talking.so.stage ≠ ⟨[], 0, 0⟩ := by decide +kernel
/-- Running and capturing in a mode, nothing staged yet. -/
def capturing (m : Mode) : State :=
  { small with adpTx := Adp.idle ((modeWidth m).getD .w4), so := { So.idle with running := true, txMode := m } }

theorem capturing_inv (m : Mode) : (capturing m).Inv where
  admissible := small_inv.admissible
  adpRx := small_inv.adpRx
  adpTx := Adp.idle_inRange _
  rcUp := small_inv.rcUp
  rcDn := small_inv.rcDn
  jb := small_inv.jb
  mf := small_inv.mf
  so := by cases m <;> decide +kernel
  txq := fun _ hp => absurd hp List.not_mem_nil
  underruns := small_inv.underruns
  overruns := small_inv.overruns

/-- Refused, dropped, completed; six samples in each kind of mode, with a packet (the count 7 of `talking`, `TX_MAX` 8) and
without one; two blocks. -/
theorem witness_TransmitBlockStagesAndQueues :
    talking.poweredOn = true ∧ (smp [1, 2, 3, 4, 5]).length % 6 ≠ 0 ∧ (smp [1, 2, 3, 4, 5, 6]).length % 6 = 0 ∧
      small.so.running = false ∧ running.so.txMode = .noAudio ∧ talking.so.running = true ∧ talking.so.txMode ≠ .noAudio ∧
      talking.Inv ∧ talking.ModesAgree ∧ (smp [1, 2, 3, 4, 5, 6]).length = 6 ∧ talking.so.txMode = .uLaw ∧
      talking.so.stage.count + 1 = talking.cfg.txMax.get talking.so.txMode :=
  ⟨by decide +kernel, by decide, by decide, by decide +kernel, by decide +kernel, by decide +kernel, by decide +kernel, talking_inv,
    by decide +kernel, by decide, by decide +kernel, by decide +kernel⟩
theorem witness_TransmitBlockStagesAndQueues_modes :
    (capturing .raw16).Inv ∧ (capturing .raw16).ModesAgree ∧ (capturing .adpcm3).Inv ∧ (capturing .adpcm3).ModesAgree ∧
      modeWidth .adpcm3 = some .w3 ∧ (capturing .raw16).so.stage.count + 1 ≠ (capturing .raw16).cfg.txMax.get .raw16 ∧
      (smp [1, 2, 3, 4, 5, 6]).length % 6 = 0 ∧ (List.replicate 12 (7 : Sample)).length % 6 = 0 :=
  ⟨capturing_inv _, by decide +kernel, capturing_inv _, by decide +kernel, rfl, by decide +kernel, by decide, by decide⟩
theorem witness_QueuedPacketsAreAudioMessages :
    talking.Inv ∧ packetO13 ∈ talking.so.txq ∧ small.cfg = talking.cfg ∧ small.poweredOn = true ∧
      small.mf.state = .awaitHeader1 ∧ small.mf.fault = false :=
  ⟨talking_inv, by decide +kernel, by decide +kernel, by decide +kernel, by decide +kernel, by decide +kernel⟩

/-- `talking` with one operation issued: a captured block that completes a packet. -/
def talkingNext : State := { talking with pending := [⟨.cap, encode (.soTxBlock (smp [1, 2, 3, 4, 5, 6]))⟩] }

theorem witness_StepKeepsTheInvariant : talkingNext.Inv ∧ ∃ t, step talkingNext = .next t := by
  refine ⟨⟨talking_inv.1, talking_inv.2, talking_inv.3, talking_inv.4, talking_inv.5, talking_inv.6, talking_inv.7, talking_inv.8,
    talking_inv.9, talking_inv.10, talking_inv.11⟩, ?_⟩
  have h : after (step talkingNext) (fun _ => true) = true := by decide +kernel
  unfold after at h
  split at h
  · exact ⟨_, by assumption⟩
  · cases h
  · cases h
theorem witness_ResetHasTheInvariant : ({ disturbed with poweredOn := false } : State).cfg.Admissible := by decide +kernel
/-- An SO operation, and a direct `ADPCM_SETW` of an instance that the orchestrator has not used. -/
theorem witness_StepKeepsModesAgreeing :
    talkingNext.ModesAgree ∧ talkingNext.nextOp = some (.soTxBlock (smp [1, 2, 3, 4, 5, 6])) ∧
      ({ talkingNext with widthUse := ⟨.orchestrated, .orchestrated⟩ } : State).WidthsDisciplined ∧
      after (step { talkingNext with widthUse := ⟨.orchestrated, .orchestrated⟩ }) (fun _ => true) = true ∧
      small.ModesAgree ∧ small.WidthsDisciplined ∧
      after (step { small with pending := [⟨.test, setWidthTx⟩] }) (fun t => t.adpTx.w == .w2) = true := by decide +kernel

/-- An operation that writes none of them; a direct `ADPCM_SETW`, and `SO_SET_TX_MODE`, which is permitted. The steps themselves:
test_direct_width_after_start, test_start_after_direct_width, test_direct_width_after_power_on. -/
theorem witness_OnlyTheOrchestratorChangesModes :
    (∃ t, exec .jbReset disturbed = .next t) ∧ decode setWidthTx = .ok (.adpcmSetw .tx 2) ∧
      permitted .test (.adpcmSetw .tx 2) = true ∧ (⟨.unused, .orchestrated⟩ : WidthUses).of .tx = .orchestrated ∧
      decode [0x65#8, 4] = .ok (.soSetTxMode .adpcm4) ∧ permitted .ctl (.soSetTxMode .adpcm4) = true ∧
      (⟨.orchestrated, .direct⟩ : WidthUses).of .tx = .direct ∧ ∀ d, small.widthUse.of d = .unused :=
  ⟨⟨_, rfl⟩, rfl, rfl, rfl, rfl, rfl, rfl, fun d => by cases d <;> rfl⟩
theorem witness_LogAndCountersOnlyGrow : (∃ t, exec (.jbPull 1) disturbed = .next t) ∧ Instr.jbPull 1 ≠ .powerOn :=
  ⟨⟨_, rfl⟩, by decide⟩
theorem witness_EventsByOperation :
    (∃ t, exec .soDeviceFail disturbed = .next t) ∧ (∃ t, exec (.jbPush [1]) disturbed = .next t) ∧
      Instr.soDeviceFail ≠ .powerOn := ⟨⟨_, rfl⟩, ⟨_, rfl⟩, by decide⟩

end Sys2Proof.Tests
end

section
/-! The invariant of the whole state (`State.Inv`): one rule for each update of the state, one for each shared operation
composed of them, then `exec` by cases over the 34 operations, and the step. -/

namespace Sys2Proof.Machine

section Rules

variable {s t : State}

/-! ### What the requirements on the parameters give -/

/-- R203 (a): the number of taps is odd, so there are taps. -/
theorem tapsOk_length_pos {h : List Int} {l : Nat} {ni nd : Int} (hk : tapsOk h l ni nd) : 0 < h.length := by
  obtain ⟨hodd, _⟩ := hk
  omega

/-- R273: a packet holds at least one sample. -/
theorem txMaxOk_pos {tm : ModeTable Nat} {maxLen : Nat} (hk : txMaxOk tm maxLen) {m : Mode} (hm : m ≠ .noAudio) :
    0 < tm.get m := by
  obtain ⟨hpos, _⟩ := hk m (by cases m <;> decide) hm
  exact hpos

/-- With nothing staged, the staging registers have their form for every transmit mode (R36, R273). -/
theorem So.wf_of_stage_empty {c : Config} (hc : c.Admissible) {o : So} (hs : o.stage = Stage.empty)
    (hm : o.txMeter = 0) : o.Wf c := by
  obtain ⟨_, _, _, _, _, htx, _⟩ := hc
  rw [So.Wf, hs]
  exact ⟨rfl, txMaxOk_pos htx, hm⟩

/-! ### One rule for each update of the state -/

theorem State.Inv.give (h : s.Inv) (r : Result) : (s.give r).Inv := { h with }

theorem State.Inv.setPending (h : s.Inv) (p : List Request) : (s.setPending p).Inv := { h with }

theorem State.Inv.setWidthUse (h : s.Inv) (u : WidthUses) : (s.setWidthUse u).Inv := { h with }

theorem State.Inv.adp (h : s.Inv) (i : Dir) : (s.adp i).InRange := by
  cases i with
  | rx => exact h.adpRx
  | tx => exact h.adpTx

theorem State.Inv.setAdp (h : s.Inv) (i : Dir) {a : Adp} (ha : a.InRange) : (s.setAdp i a).Inv := by
  cases i with
  | rx => exact { h with adpRx := ha }
  | tx => exact { h with adpTx := ha }

theorem State.Inv.setRcUp (h : s.Inv) {u : RcUp} (hu : u.Sized s.cfg) : (s.setRcUp u).Inv := { h with rcUp := hu }

theorem State.Inv.setRcDn (h : s.Inv) {d : RcDn} (hd : d.Sized s.cfg) : (s.setRcDn d).Inv := { h with rcDn := hd }

theorem State.Inv.setMf (h : s.Inv) {m : Mf} (hm : m.Wf s.cfg.maxMsgLen) : (s.setMf m).Inv := { h with mf := hm }

theorem State.Inv.setSo (h : s.Inv) {o : So} (ho : o.Wf s.cfg) (hq : ∀ p ∈ o.txq, OutboundPacket s.cfg p) :
    (s.setSo o).Inv :=
  { h with so := ho, txq := hq }

/-- A ring whose statistics did not move (R227 (f)). -/
theorem State.Inv.setJb (h : s.Inv) {j : Jb} (hj : j.Wf s.cfg.capacity) (hu : j.underruns = s.jb.underruns)
    (ho : j.overruns = s.jb.overruns) : (s.setJb j).Inv :=
  { h with jb := hj, underruns := hu.trans h.underruns, overruns := ho.trans h.overruns }

/-- A ring whose statistics moved by the events that are raised with it (R227 (f)). -/
theorem State.Inv.setJb_raiseAll (h : s.Inv) {j : Jb} {es : List Event} (hj : j.Wf s.cfg.capacity)
    (hu : j.underruns = s.jb.underruns + es.count .underrun) (ho : j.overruns = s.jb.overruns + es.count .overrun) :
    ((s.setJb j).raiseAll es).Inv :=
  { h with
    jb := hj
    underruns := by simp [hu, h.underruns]
    overruns := by simp [ho, h.overruns] }

/-- Events that no statistics count (R227 (f), R291). -/
theorem State.Inv.raiseAll (h : s.Inv) {es : List Event} (hu : .underrun ∉ es) (ho : .overrun ∉ es) :
    (s.raiseAll es).Inv :=
  { h with
    underruns := by simp [h.underruns, List.count_eq_zero_of_not_mem hu]
    overruns := by simp [h.overruns, List.count_eq_zero_of_not_mem ho] }

theorem State.Inv.raise (h : s.Inv) {e : Event} (hu : .underrun ≠ e) (ho : .overrun ≠ e) : (s.raise e).Inv :=
  h.raiseAll (es := [e]) (by simpa using hu) (by simpa using ho)

/-! ### The ADP, RC, JB and MF units -/

theorem State.Inv.adpcmReset (h : s.Inv) (i : Dir) : (s.adpcmReset i).Inv := h.setAdp i (Adp.idle_inRange _)

/-- R152: the ranges do not speak of `W`. -/
theorem State.Inv.adpcmSetW (h : s.Inv) (i : Dir) (w : CodeWidth) : (s.adpcmSetW i w).Inv :=
  h.setAdp i (a := { s.adp i with w := w }) (h.adp i)

theorem State.Inv.rcReset (h : s.Inv) (p : Path) : (s.rcReset p).Inv := by
  cases p with
  | up => exact h.setRcUp (RcUp.idle_sized _)
  | dn => exact h.setRcDn (RcDn.idle_sized _)

/-- The playback queues after any block of input (R205). -/
theorem State.Inv.sized_interpAll (h : s.Inv) (x : List Sample) : (interpAll s.cfg s.rcUp x).2.Sized s.cfg := by
  obtain ⟨h2, h3, _⟩ := h.admissible
  exact interpAll_sized _ _ x (tapsOk_length_pos h2) (tapsOk_length_pos h3) h.rcUp

/-- The capture queues and phases after any block that `DECIM6` takes (R207, R208). -/
theorem State.Inv.sized_decimAll (h : s.Inv) {x : List Sample} (hx : x.length % 6 = 0) :
    (decimAll s.cfg s.rcDn x).2.Sized s.cfg := by
  obtain ⟨h2, h3, _⟩ := h.admissible
  exact decimAll_sized _ _ x (tapsOk_length_pos h2) (tapsOk_length_pos h3) hx h.rcDn

theorem State.Inv.capacityOk (h : s.Inv) : capacityOk s.cfg.capacity := by
  obtain ⟨_, _, hcap, _⟩ := h.admissible
  exact hcap

theorem State.Inv.jbReset (h : s.Inv) : s.jbReset.Inv := h.setJb (Jb.idle_wf _ _ _ h.capacityOk) rfl rfl

/-- A list of one event only counts that event once for each entry, and another event not at all. -/
theorem count_eq_length_of_forall {e : Event} {es : List Event} (h : ∀ a ∈ es, a = e) : es.count e = es.length :=
  List.count_eq_length.2 fun a ha => (h a ha).symm

theorem count_eq_zero_of_forall {e f : Event} {es : List Event} (h : ∀ a ∈ es, a = e) (hf : f ≠ e) : es.count f = 0 :=
  List.count_eq_zero_of_not_mem fun hm => hf (h f hm)

/-- R222, R223: every overrun is counted and raised. -/
theorem State.Inv.jbPush (h : s.Inv) (x : List Sample) : (s.jbPush x).Inv := by
  obtain ⟨hev, hover, hunder⟩ := Jb.push_events s.cfg.capacity s.jb x
  obtain ⟨hwf, _⟩ := Jb.push_spec s.cfg.capacity s.jb x h.capacityOk h.jb
  refine h.setJb_raiseAll hwf ?_ ?_
  · rw [hunder, count_eq_zero_of_forall hev (by decide), Nat.add_zero]
  · rw [hover, count_eq_length_of_forall hev]

/-- R225: every underrun is counted and raised. -/
theorem State.Inv.jbPull (h : s.Inv) (n : Nat) :
    ((s.setJb (s.jb.pull s.cfg.capacity s.cfg.driftGain n).2.1).raiseAll
      (s.jb.pull s.cfg.capacity s.cfg.driftGain n).2.2).Inv := by
  obtain ⟨_, _, _, _, hover, hunder, hev⟩ := Jb.pull_frame s.cfg.capacity s.cfg.driftGain n s.jb
  refine h.setJb_raiseAll (Jb.pull_wf _ _ n h.capacityOk _ h.jb) ?_ ?_
  · rw [hunder, count_eq_length_of_forall hev]
  · rw [hover, count_eq_zero_of_forall hev (by decide), Nat.add_zero]

theorem State.Inv.mfReset (h : s.Inv) : s.mfReset.Inv := h.setMf (Mf.idle_wf _)

/-- R242 to R245: the framer raises a framing violation or nothing. -/
theorem State.Inv.mfFeed (h : s.Inv) (b : Byte) (hf : s.mf.fault = false) :
    ((s.setMf (s.mf.feed s.cfg.maxMsgLen b).1).raiseAll (s.mf.feed s.cfg.maxMsgLen b).2.2).Inv := by
  have hset := h.setMf (Mf.feed_wf s.cfg.maxMsgLen s.mf b h.mf hf)
  rcases Mf.feed_events s.cfg.maxMsgLen s.mf b with he | ⟨n, he⟩ <;> rw [he]
  · exact hset.raiseAll (by simp) (by simp)
  · exact hset.raise (e := .framingViolation n) (by simp) (by simp)

/-! ### The orchestrator -/

/-- R274: the outbound meter is 0. -/
theorem State.Inv.txMeter (h : s.Inv) : s.so.txMeter = 0 := by
  obtain ⟨_, _, hmeter⟩ := h.so
  exact hmeter

/-- R261, R262: everything is reset to values in its form, and nothing is staged or queued. -/
theorem State.Inv.resetStreams (h : s.Inv) (running : Bool) : (s.resetStreams running).Inv := by
  have hunits := ((((h.adpcmReset .rx).adpcmReset .tx).rcReset .up).rcReset .dn).jbReset
  exact hunits.setSo (So.wf_of_stage_empty h.admissible rfl h.txMeter) fun _ hp => absurd hp List.not_mem_nil

/-- R278, R279: no packet is left waiting. -/
theorem State.Inv.dropQueue (h : s.Inv) : (s.setSo { s.so with txq := [] }).Inv :=
  h.setSo (o := { s.so with txq := [] }) h.so fun _ hp => absurd hp List.not_mem_nil

/-- R266 to R269: a drop raises an event that no statistics count; an accepted packet resets or runs the decoder and then
plays what it gives. -/
theorem State.Inv.rxAudio (h : s.Inv) {p : List Byte} (ht : s.rxAudio p = .ok t) : t.Inv := by
  rcases State.rxAudio_cases ht with ⟨_, rfl⟩ | ⟨_, _, rfl⟩ | ⟨_, _, _, rfl⟩ | ⟨m, _, _, _, a, ha, hm⟩
  · exact h
  · exact h.raise (by simp) (by simp)
  · exact h.raise (by simp) (by simp)
  · have hrange : a.InRange := by
      rw [ha]
      split
      · exact h.adpRx
      · exact Adp.idle_inRange _
    have hmode : (s.setSo { s.so with meter := audMeter p, rxMode := m }).Inv := h.setSo h.so h.txq
    rcases hm with ⟨_, rfl⟩ | ⟨_, r, hr, rfl⟩
    · exact hmode.setAdp .rx hrange
    · have hdecoded := hmode.setAdp .rx ((audioSamples_inv hr).2 hrange)
      exact (hdecoded.setRcUp (hdecoded.sized_interpAll r.2)).jbPush _

/-- R271. -/
theorem State.Inv.setTxMode (h : s.Inv) (m : Mode) : (s.setTxMode m).Inv := by
  by_cases hm : m = s.so.txMode
  · rwa [State.setTxMode_same s m hm]
  · rw [State.setTxMode_eq s m hm]
    exact (h.setAdp .tx (Adp.idle_inRange _)).setSo (So.wf_of_stage_empty h.admissible rfl h.txMeter) h.txq

/-- R272, R274, R277: the captured samples keep the codec's ranges, the stage's form and the queued packets'. -/
theorem State.Inv.txBlock (h : s.Inv) {x : List Sample} (hx : x.length % 6 = 0) (ht : s.txBlock x = .ok t) : t.Inv := by
  rcases State.txBlock_cases ht with ⟨_, rfl⟩ | ⟨_, hm, u, hu, rfl⟩
  · exact h
  · obtain ⟨_, _, _, _, _, htx, _⟩ := h.admissible
    obtain ⟨hbytes, hcount, hmeter⟩ := h.so
    rw [hmeter] at hu
    obtain ⟨hbytes', hcount', hrange, hq⟩ := TxPath.encodeAll_keeps _ _ hm htx _ _ u hu hbytes (hcount hm) h.adpTx h.txq
    exact ((h.setRcDn (h.sized_decimAll hx)).setAdp .tx hrange).setSo
      (o := { s.so with stage := u.stage, txq := u.txq }) ⟨hbytes', fun _ => hcount', hmeter⟩ hq

/-! ### `POWER_ON` -/

/-- R320: from any register contents `POWER_ON` establishes the invariant; it needs only admissible parameters. -/
theorem State.powerOn_inv (hc : s.cfg.Admissible) : s.powerOn.Inv where
  admissible := hc
  adpRx := Adp.idle_inRange .w4
  adpTx := Adp.idle_inRange .w4
  rcUp := RcUp.idle_sized _
  rcDn := RcDn.idle_sized _
  jb := by
    obtain ⟨_, _, hcap, _⟩ := hc
    exact Jb.idle_wf s.cfg.capacity 0 0 hcap
  mf := Mf.idle_wf _
  so := So.wf_of_stage_empty (o := So.idle) hc rfl rfl
  txq := fun _ hp => absurd hp List.not_mem_nil
  underruns := rfl
  overruns := rfl

/-- R320, R46: both modes are `NoAudio`, which names no width, and nothing is staged. -/
theorem State.powerOn_modesAgree (s : State) : s.powerOn.ModesAgree :=
  ⟨fun _ hw => (nomatch hw), fun _ hw => (nomatch hw), rfl⟩

/-- R46, R320: the state after reset is one that `POWER_ON` leaves as it is. -/
theorem State.powerOn_reset : State.reset.powerOn = State.reset := rfl

theorem defaultConfig_admissible : defaultConfig.Admissible := by decide

/-! ### Every operation and every step -/

/-- Every operation keeps the invariant. -/
theorem exec_inv (h : s.Inv) (i : Instr) (ht : exec i s = .next t) : t.Inv := by
  cases i
  case powerOn => rw [exec_powerOn_next ht]; exact (State.powerOn_inv h.admissible).give _
  case alawEnc => obtain ⟨_, rfl⟩ := exec_alawEnc_next ht; exact h.give _
  case alawDec => obtain ⟨_, rfl⟩ := exec_alawDec_next ht; exact h.give _
  case ulawEnc => obtain ⟨_, rfl⟩ := exec_ulawEnc_next ht; exact h.give _
  case ulawDec => obtain ⟨_, rfl⟩ := exec_ulawDec_next ht; exact h.give _
  case alawEncBuf => obtain ⟨_, rfl⟩ := exec_alawEncBuf_next ht; exact h.give _
  case alawDecBuf => obtain ⟨_, rfl⟩ := exec_alawDecBuf_next ht; exact h.give _
  case ulawEncBuf => obtain ⟨_, rfl⟩ := exec_ulawEncBuf_next ht; exact h.give _
  case ulawDecBuf => obtain ⟨_, rfl⟩ := exec_ulawDecBuf_next ht; exact h.give _
  case adpcmReset d => obtain ⟨_, rfl⟩ := exec_adpcmReset_next ht; exact (h.adpcmReset d).give _
  case adpcmSetw d w => obtain ⟨_, cw, _, rfl⟩ := exec_adpcmSetw_next ht; exact (h.adpcmSetW d cw).give _
  case adpcmEnc =>
    obtain ⟨_, _, rfl⟩ := exec_adpcmEnc_next ht
    exact (h.setAdp .tx (Adp.encodeSample_inRange _ _ h.adpTx)).give _
  case adpcmDec =>
    obtain ⟨_, _, rfl⟩ := exec_adpcmDec_next ht
    exact (h.setAdp .rx (Adp.decodeSample_inRange _ _ h.adpRx)).give _
  case adpcmEncBuf =>
    obtain ⟨_, _, _, r, hr, rfl⟩ := exec_adpcmEncBuf_next ht
    obtain ⟨_, rfl⟩ := Adp.encodeBuf_inv hr
    exact (h.setAdp .tx (Adp.encodeAll_inRange _ _ h.adpTx)).give _
  case adpcmDecBuf =>
    obtain ⟨_, _, _, _, r, hr, rfl⟩ := exec_adpcmDecBuf_next ht
    obtain ⟨_, rfl⟩ := Adp.decodeBuf_inv hr
    exact (h.setAdp .rx (Adp.decodeAll_inRange _ _ h.adpRx)).give _
  case rcReset p => obtain ⟨_, rfl⟩ := exec_rcReset_next ht; exact (h.rcReset p).give _
  case interp6 x => obtain ⟨_, rfl⟩ := exec_interp6_next ht; exact (h.setRcUp (h.sized_interpAll x)).give _
  case decim6 => obtain ⟨_, hx, rfl⟩ := exec_decim6_next ht; exact (h.setRcDn (h.sized_decimAll hx)).give _
  case jbReset => obtain ⟨_, rfl⟩ := exec_jbReset_next ht; exact h.jbReset.give _
  case jbPush x => obtain ⟨_, rfl⟩ := exec_jbPush_next ht; exact (h.jbPush x).give _
  case jbPull n => obtain ⟨_, _, rfl⟩ := exec_jbPull_next ht; exact (h.jbPull n.toNat).give _
  case mfReset => obtain ⟨_, rfl⟩ := exec_mfReset_next ht; exact h.mfReset.give _
  case mfFeed b => obtain ⟨_, hf, rfl⟩ := exec_mfFeed_next ht; exact (h.mfFeed b hf).give _
  case mfEncode => obtain ⟨_, _, _, rfl⟩ := exec_mfEncode_next ht; exact h.give _
  case soStart => obtain ⟨_, rfl⟩ := exec_soStart_next ht; exact (h.resetStreams true).give _
  case soStop => obtain ⟨_, rfl⟩ := exec_soStop_next ht; exact (h.resetStreams false).give _
  case soDispatch =>
    obtain ⟨_, ⟨_, u, hu, rfl⟩ | ⟨_, rfl⟩⟩ := exec_soDispatch_next ht
    · exact (h.rxAudio hu).give _
    · exact h.give _
  case soRxAudio => obtain ⟨_, u, hu, rfl⟩ := exec_soRxAudio_next ht; exact (h.rxAudio hu).give _
  case soRxVideo => obtain ⟨_, _, _, _, rfl⟩ := exec_soRxVideo_next ht; exact h.give _
  case soSetTxMode m => obtain ⟨_, rfl⟩ := exec_soSetTxMode_next ht; exact (h.setTxMode m).give _
  case soTxBlock => obtain ⟨_, hx, u, hu, rfl⟩ := exec_soTxBlock_next ht; exact (h.txBlock hx hu).give _
  case soTxDrain => obtain ⟨_, rfl⟩ := exec_soTxDrain_next ht; exact h.dropQueue.give _
  case soDeviceFail =>
    obtain ⟨_, rfl⟩ := exec_soDeviceFail_next ht
    exact ((h.raise (by simp) (by simp)).resetStreams false).give _
  case soTransportStop =>
    obtain ⟨_, rfl⟩ := exec_soTransportStop_next ht
    exact h.mfReset.dropQueue.give _

end Rules

/-! ### The obligations -/

/-- Settles O55: a step takes a request off, notes a use of a width, and executes one operation. -/
theorem stepKeepsTheInvariant : Obligations.StepKeepsTheInvariant := by
  intro s t h ht
  obtain ⟨_, rest, i, _, _, _, _, he⟩ := step_next ht
  exact exec_inv ((h.setPending rest).setWidthUse _) i he

/-- Settles O25: an encoded sample commits the registers of `ADP[tx]`, and `Adp.commit` limits them. -/
theorem sampleStepClampsRegisters : Obligations.SampleStepClampsRegisters := by
  intro s t v ht
  obtain ⟨_, _, rfl⟩ := exec_adpcmEnc_next ht
  exact s.adpTx.commit_inRange (s.adpTx.signals (s.adpTx.codeOf (.enc (pcm14 v))))

/-- Settles O56: the reset state is a state after `POWER_ON`, with the default parameters. -/
theorem resetHasTheInvariant : Obligations.ResetHasTheInvariant := by
  have hreset : State.reset.Inv := State.powerOn_reset ▸ State.powerOn_inv defaultConfig_admissible
  have hmodes : State.reset.ModesAgree := State.powerOn_reset ▸ State.powerOn_modesAgree State.reset
  refine ⟨hreset, hmodes, rfl, ⟨fun _ => rfl, fun _ => rfl⟩, fun s hc => ?_⟩
  exact ⟨s.powerOn.give .unit, rfl, (State.powerOn_inv hc).give _, s.powerOn_modesAgree⟩

end Sys2Proof.Machine
end

section
/-! The issue of an operation (R70, R71, R75, R305): what one step does with a first pending request that decodes, and
which agents may issue which operation. -/

namespace Sys2Proof.Machine

/-! ### One step on a first pending request that decodes -/

section Issue

variable {s : State} {q : Request} {rest : List Request} {i : Instr}

/-- The state an operation is executed on, field by field. -/
theorem State.setPending_setWidthUse (s : State) (p : List Request) (u : WidthUses) :
    (s.setPending p).setWidthUse u = { s with pending := p, widthUse := u } := rfl

/-- The two checks of a decoded request, in their order: the agent (R75), then the use of the code widths (R305). -/
theorem State.fetch_of_decode (hp : s.pending = q :: rest) (hd : decode q.bytes = .ok i) :
    s.fetch =
      if permitted q.agent i then
        if s.widthUse.mixedBy s.cfg i then .refuse .mixedWidthUse
        else .run i ((s.setPending rest).setWidthUse (s.widthUse.after s.cfg i))
      else .refuse .wrongAgent := by
  simp [State.fetch, hp, hd]

theorem step_of_fetch_run {s' : State} (hf : s.fetch = .run i s') : step s = exec i s' := by
  simp [step, hf]

theorem step_of_fetch_refuse {r : Refusal} (hf : s.fetch = .refuse r) : step s = .refused r := by
  simp [step, hf]

/-- A request that passes both checks is executed with itself taken off and its use of the widths noted (R71). -/
theorem step_of_permitted (hp : s.pending = q :: rest) (hd : decode q.bytes = .ok i) (ha : permitted q.agent i = true)
    (hm : s.widthUse.mixedBy s.cfg i = false) :
    step s = exec i ((s.setPending rest).setWidthUse (s.widthUse.after s.cfg i)) :=
  step_of_fetch_run (by simp [State.fetch_of_decode hp hd, ha, hm])

/-- The agent is checked first, so nothing is asked of the widths (R75). -/
theorem step_of_not_permitted (hp : s.pending = q :: rest) (hd : decode q.bytes = .ok i)
    (ha : permitted q.agent i = false) : step s = .refused .wrongAgent :=
  step_of_fetch_refuse (by simp [State.fetch_of_decode hp hd, ha])

end Issue

/-! ### The agents of a group of operations -/

/-- A group of operations that one context owns (R70): it and the test agent issue them. -/
theorem permitted_iff_owner {l : List Instr} {a owner : Agent}
    (hl : ∀ i ∈ l, permitted a i = (a == owner || a == .test)) :
    ∀ i ∈ l, (permitted a i = true ↔ a = owner ∨ a = .test) :=
  fun i hi => by rw [hl i hi, Bool.or_eq_true, beq_iff_eq, beq_iff_eq]

/-- An operation of the network context that control may issue too (R265, R279). -/
theorem permitted_iff_net_or_ctl {l : List Instr} {a : Agent}
    (hl : ∀ i ∈ l, permitted a i = (a == .net || a == .ctl || a == .test)) :
    ∀ i ∈ l, (permitted a i = true ↔ a = .net ∨ a = .ctl ∨ a = .test) :=
  fun i hi => by rw [hl i hi, Bool.or_eq_true, Bool.or_eq_true, beq_iff_eq, beq_iff_eq, beq_iff_eq, or_assoc]

/-- A group of operations that no rule gives to an agent (R75, R152). -/
theorem permitted_iff_test {l : List Instr} {a : Agent} (hl : ∀ i ∈ l, permitted a i = (a == .test)) :
    ∀ i ∈ l, (permitted a i = true ↔ a = .test) :=
  fun i hi => by rw [hl i hi, beq_iff_eq]

/-! ### The obligations -/

/-- Settles O1: the request passes the agent's check and the check of the widths. -/
theorem stepRunsDecodedOperation : Obligations.StepRunsDecodedOperation := by
  intro s q rest i hp hd ha hm
  rw [step_of_permitted hp hd ha hm, State.setPending_setWidthUse]

/-- Settles O2: the refusal is the step's first check, and each group is read off its rows of `permitted`. -/
theorem agentsIssueOnlyTheirOperations : Obligations.AgentsIssueOnlyTheirOperations := by
  refine ⟨fun s q rest i hp hd ha => step_of_not_permitted hp hd ha, ?_⟩
  intro a v c x y n off d p k item ps f m
  refine ⟨?anyAgent, permitted_iff_owner ?net, permitted_iff_owner ?cap, ?play, permitted_iff_owner ?ctl,
    permitted_iff_net_or_ctl ?netOrCtl, permitted_iff_test ?testOnly⟩
  case play => exact permitted_iff_owner (l := [.jbPull n]) (by simp [permitted]) _ List.mem_cons_self
  all_goals simp [permitted]

end Sys2Proof.Machine
end

section
/-! The encoding of an operation (R92, R106, log entry 2): the two directions of the round trip, and what the step does
with a first byte that is no code of the table. -/

namespace Sys2Proof.Machine

open Laws

/-! ### What decodes -/

/-- Bytes decode to an operation when they are all read for it and it is well formed. -/
theorem decode_eq_ok_iff {bs : List Byte} {i : Instr} :
    decode bs = .ok i ↔ decodeFront bs = .ok (i, []) ∧ i.wellFormed = true := by
  unfold decode
  split
  case h_1 e he => simp [he]
  case h_2 j hj =>
    rw [hj]
    split
    case isTrue hw => exact ⟨by rintro ⟨⟩; exact ⟨rfl, hw⟩, by rintro ⟨⟨⟩, _⟩; rfl⟩
    case isFalse hw => exact ⟨by rintro ⟨⟩, by rintro ⟨⟨⟩, hi⟩; exact absurd hi hw⟩
  case h_3 j b r hj => simp [hj]

/-! ### Decode of encode -/

/-- The law of each operation, for all of them. -/
theorem getOperands_putOperands : ∀ i : Instr, OperandsReadBack.Statement i
  | .powerOn => OperandsReadBack.powerOn
  | .alawEnc s => OperandsReadBack.alawEnc s
  | .alawDec c => OperandsReadBack.alawDec c
  | .ulawEnc s => OperandsReadBack.ulawEnc s
  | .ulawDec c => OperandsReadBack.ulawDec c
  | .alawEncBuf x => OperandsReadBack.alawEncBuf x
  | .alawDecBuf y => OperandsReadBack.alawDecBuf y
  | .ulawEncBuf x => OperandsReadBack.ulawEncBuf x
  | .ulawDecBuf y => OperandsReadBack.ulawDecBuf y
  | .adpcmReset d => OperandsReadBack.adpcmReset d
  | .adpcmSetw d w => OperandsReadBack.adpcmSetw d w
  | .adpcmEnc d s => OperandsReadBack.adpcmEnc d s
  | .adpcmDec d c => OperandsReadBack.adpcmDec d c
  | .adpcmEncBuf d x b off => OperandsReadBack.adpcmEncBuf d x b off
  | .adpcmDecBuf d b off n => OperandsReadBack.adpcmDecBuf d b off n
  | .rcReset p => OperandsReadBack.rcReset p
  | .interp6 x => OperandsReadBack.interp6 x
  | .decim6 x => OperandsReadBack.decim6 x
  | .jbReset => OperandsReadBack.jbReset
  | .jbPush x => OperandsReadBack.jbPush x
  | .jbPull n => OperandsReadBack.jbPull n
  | .mfReset => OperandsReadBack.mfReset
  | .mfFeed b => OperandsReadBack.mfFeed b
  | .mfEncode k i ps => OperandsReadBack.mfEncode k i ps
  | .soStart => OperandsReadBack.soStart
  | .soStop => OperandsReadBack.soStop
  | .soDispatch m => OperandsReadBack.soDispatch m
  | .soRxAudio p => OperandsReadBack.soRxAudio p
  | .soRxVideo p => OperandsReadBack.soRxVideo p
  | .soSetTxMode m => OperandsReadBack.soSetTxMode m
  | .soTxBlock x => OperandsReadBack.soTxBlock x
  | .soTxDrain => OperandsReadBack.soTxDrain
  | .soDeviceFail => OperandsReadBack.soDeviceFail
  | .soTransportStop => OperandsReadBack.soTransportStop

/-- The bytes of an operation are read to their end. -/
theorem decodeFront_encode (i : Instr) : decodeFront (encode i) = .ok (i, []) := by
  have hread := getOperands_putOperands i []
  rwa [List.append_nil] at hread

/-! ### Encode of decode -/

/-- What `x` reads from `bs`, with the operand bytes `pre` already read, is an operation whose code is `code` and whose
operand bytes are `pre` and what was taken from `bs`. -/
def ReadsOperands (code : Nat) (pre bs : List Byte) (x : Parsed Instr) : Prop :=
  ∀ {i : Instr} {r : List Byte}, x = .ok (i, r) → i.opcode.toNat = code ∧ pre ++ bs = putOperands i ++ r

namespace ReadsOperands

variable {α : Type} {code : Nat} {pre bs : List Byte} {get : List Byte → Parsed α} {put : α → List Byte}

/-- Nothing is left to read. -/
theorem complete (i : Instr) (hc : i.opcode.toNat = code) (hp : putOperands i = pre) :
    ReadsOperands code pre bs (.ok (i, bs)) := by
  rintro _ _ ⟨⟩
  exact ⟨hc, by rw [hp]⟩

/-- The last operand, of a field that reads only what it writes. -/
theorem lastOperand (f : α → Instr) (hget : ∀ {bs r a}, get bs = .ok (a, r) → bs = put a ++ r)
    (hf : ∀ a, (f a).opcode.toNat = code ∧ putOperands (f a) = pre ++ put a) :
    ReadsOperands code pre bs ((get bs).as f) := by
  intro i r h
  obtain ⟨a, ha, rfl⟩ := Parsed.as_ok_inv h
  obtain ⟨hcode, hput⟩ := hf a
  exact ⟨hcode, by rw [hget ha, hput, List.append_assoc]⟩

/-- An operand that others follow. -/
theorem operand {f : α → List Byte → Parsed Instr} (hget : ∀ {bs r a}, get bs = .ok (a, r) → bs = put a ++ r)
    (hf : ∀ a r, ReadsOperands code (pre ++ put a) r (f a r)) :
    ReadsOperands code pre bs ((get bs).andThen f) := by
  intro i r h
  obtain ⟨a, r', ha, hr⟩ := Parsed.andThen_ok_inv h
  rw [hget ha, ← List.append_assoc]
  exact hf a r' hr

end ReadsOperands

open ReadsOperands in
/-- Every row of the table (R92) reads the operand bytes of the operation that its code selects. -/
theorem getOperands_reads (op : Byte) (r : List Byte) : ReadsOperands op.toNat [] r (getOperands op r) := by
  unfold getOperands
  generalize op.toNat = code
  split
  · exact complete .powerOn rfl rfl
  · exact lastOperand .alawEnc getU16_inv fun _ => ⟨rfl, rfl⟩
  · exact lastOperand .alawDec getByte_inv fun _ => ⟨rfl, rfl⟩
  · exact lastOperand .ulawEnc getU16_inv fun _ => ⟨rfl, rfl⟩
  · exact lastOperand .ulawDec getByte_inv fun _ => ⟨rfl, rfl⟩
  · exact lastOperand .alawEncBuf (getList_inv getU16_inv) fun _ => ⟨rfl, rfl⟩
  · exact lastOperand .alawDecBuf (getList_inv getByte_inv) fun _ => ⟨rfl, rfl⟩
  · exact lastOperand .ulawEncBuf (getList_inv getU16_inv) fun _ => ⟨rfl, rfl⟩
  · exact lastOperand .ulawDecBuf (getList_inv getByte_inv) fun _ => ⟨rfl, rfl⟩
  · exact lastOperand .adpcmReset getDir_inv fun _ => ⟨rfl, rfl⟩
  · exact operand getDir_inv fun i _ => lastOperand (.adpcmSetw i) getWidth_inv fun _ => ⟨rfl, rfl⟩
  · exact operand getDir_inv fun i _ => lastOperand (.adpcmEnc i) getU16_inv fun _ => ⟨rfl, rfl⟩
  · exact operand getDir_inv fun i _ => lastOperand (.adpcmDec i) getInt_inv fun _ => ⟨rfl, rfl⟩
  · exact operand getDir_inv fun i _ => operand (getList_inv getU16_inv) fun x _ =>
      operand (getList_inv getByte_inv) fun b _ => lastOperand (.adpcmEncBuf i x b) getInt_inv fun _ => ⟨rfl, rfl⟩
  · exact operand getDir_inv fun i _ => operand (getList_inv getByte_inv) fun b _ =>
      operand getInt_inv fun off _ => lastOperand (.adpcmDecBuf i b off) getInt_inv fun _ => ⟨rfl, rfl⟩
  · exact lastOperand .rcReset getPath_inv fun _ => ⟨rfl, rfl⟩
  · exact lastOperand .interp6 (getList_inv getU16_inv) fun _ => ⟨rfl, rfl⟩
  · exact lastOperand .decim6 (getList_inv getU16_inv) fun _ => ⟨rfl, rfl⟩
  · exact complete .jbReset rfl rfl
  · exact lastOperand .jbPush (getList_inv getU16_inv) fun _ => ⟨rfl, rfl⟩
  · exact lastOperand .jbPull getInt_inv fun _ => ⟨rfl, rfl⟩
  · exact complete .mfReset rfl rfl
  · exact lastOperand .mfFeed getByte_inv fun _ => ⟨rfl, rfl⟩
  · exact operand getKind_inv fun k _ => operand getItem_inv fun i _ =>
      lastOperand (.mfEncode k i) (getList_inv getParam_inv) fun _ => ⟨rfl, rfl⟩
  · exact complete .soStart rfl rfl
  · exact complete .soStop rfl rfl
  · exact lastOperand .soDispatch getMessage_inv fun _ => ⟨rfl, rfl⟩
  · exact lastOperand .soRxAudio (getList_inv getByte_inv) fun _ => ⟨rfl, rfl⟩
  · exact lastOperand .soRxVideo getVideo_inv fun _ => ⟨rfl, rfl⟩
  · exact lastOperand .soSetTxMode getMode_inv fun _ => ⟨rfl, rfl⟩
  · exact lastOperand .soTxBlock (getList_inv getU16_inv) fun _ => ⟨rfl, rfl⟩
  · exact complete .soTxDrain rfl rfl
  · exact complete .soDeviceFail rfl rfl
  · exact complete .soTransportStop rfl rfl
  · rintro _ _ ⟨⟩

/-- The bytes before what is left over are the bytes of the operation read. -/
theorem encode_of_decodeFront {bs r : List Byte} {i : Instr} (h : decodeFront bs = .ok (i, r)) : encode i ++ r = bs := by
  cases bs with
  | nil => cases h
  | cons op bs =>
    obtain ⟨hcode, hbytes⟩ := getOperands_reads op bs h
    have hop : i.opcode = op := BitVec.eq_of_toNat_eq hcode
    rw [encode, hop, List.cons_append, ← hbytes, List.nil_append]

/-! ### A first byte that is no code of the table -/

/-- The codes of R92's table. -/
def tableCodes : List Nat :=
  [0x00, 0x10, 0x11, 0x12, 0x13, 0x14, 0x15, 0x16, 0x17, 0x20, 0x21, 0x22, 0x23, 0x24, 0x25, 0x30, 0x31, 0x32,
    0x40, 0x41, 0x42, 0x50, 0x51, 0x52, 0x60, 0x61, 0x62, 0x63, 0x64, 0x65, 0x66, 0x67, 0x68, 0x69]

/-- R106 (a): each code that selects an operation is in the table, so only the last row is left. -/
theorem getOperands_of_not_mem {op : Byte} (h : op.toNat ∉ tableCodes) (r : List Byte) :
    getOperands op r = .error (.reservedOp op) := by
  unfold getOperands
  generalize op.toNat = code at h
  split
  case h_35 => rfl
  all_goals exact absurd (by decide) h

theorem decode_of_not_mem {op : Byte} (h : op.toNat ∉ tableCodes) (r : List Byte) :
    decode (op :: r) = .error (.reservedOp op) := by
  rw [decode, decodeFront, getOperands_of_not_mem h]

/-- Bytes that are no operation are refused before the agent and the widths are looked at (R106). -/
theorem step_of_reject {s : State} {q : Request} {rest : List Request} {e : Reject} (hp : s.pending = q :: rest)
    (hd : decode q.bytes = .error e) : step s = .refused (.undecodable e) :=
  step_of_fetch_refuse (by simp [State.fetch, hp, hd])

/-! ### The obligations -/

/-- Settles O4: each operation's operand bytes read back, with nothing left over. -/
theorem decodeEncodeAgree : Obligations.DecodeEncodeAgree :=
  fun i hw => decode_eq_ok_iff.2 ⟨decodeFront_encode i, hw⟩

/-- Settles O5: each row of the table reads only what its operation writes, and `decode` leaves nothing over. -/
theorem encodeDecodeAgree : Obligations.EncodeDecodeAgree := by
  intro bs i h
  obtain ⟨hfront, hw⟩ := decode_eq_ok_iff.1 h
  exact ⟨by simpa using encode_of_decodeFront hfront, hw⟩

/-- Settles O3: the bytes do not decode, whatever follows the first. -/
theorem reservedOperationCodeRefused : Obligations.ReservedOperationCodeRefused :=
  fun _ _ _ r _ hop hp => step_of_reject hp (decode_of_not_mem hop r)

/-- Settles O6: the words are the bytes of their operations, and the last begins with no code of the table. -/
theorem tableWordsDecode : Obligations.TableWordsDecode :=
  ⟨decodeEncodeAgree .powerOn rfl, decodeEncodeAgree (.alawEnc 1000#16) rfl, decodeEncodeAgree (.ulawDec 0x7F#8) rfl,
    decodeEncodeAgree (.adpcmReset .tx) rfl, decodeEncodeAgree (.rcReset .dn) rfl, decodeEncodeAgree .jbReset rfl,
    decodeEncodeAgree (.mfFeed 0x0B#8) rfl, decodeEncodeAgree .soStart rfl, decodeEncodeAgree .soTransportStop rfl,
    decode_of_not_mem (by decide) []⟩

end Sys2Proof.Machine
end

section
/-! The compander (spec/40_compander.md). R131's tables of the two laws are one table of intervals: in segment `k` an
interval is `2 ^ (k + 3)` wide, and the first of its sixteen intervals begins at `2 ^ (k + 7)`. U-law keeps to it from
segment 0 on, for the clipped magnitude and 132; A-law keeps to it from segment 1 on, for the one's-complement magnitude,
and its segment 0 is as wide as its segment 1 and begins at 0. So `lo` below, the first segment that keeps to the table, is
0 for u-law and 1 for A-law, and each fact about the intervals is proved once for the two laws. -/

namespace Sys2Proof.Machine

/-! ### The intervals of the two laws (R131) -/

/-- The segment of a magnitude: the position of its topmost bit, minus 7. -/
def lawSegment (x : Nat) : Nat := Nat.log2 x - 7

/-- Half the width of an interval of the segment. -/
def lawHalf (lo seg : Nat) : Nat := 2 ^ (max seg lo + 2)

/-- The interval of a magnitude in its segment. -/
def lawInterval (lo x : Nat) : Nat := x / (2 * lawHalf lo (lawSegment x)) % 16

/-- The least magnitude of an interval. -/
def lawStart (lo seg iv : Nat) : Nat := 2 * lawHalf lo seg * (if seg < lo then iv else 16 + iv)

/-- The magnitude that stands for an interval. -/
def lawMidpoint (lo seg iv : Nat) : Nat := lawStart lo seg iv + lawHalf lo seg

/-- The magnitudes of an interval. -/
def InLawInterval (lo seg iv x : Nat) : Prop := lawStart lo seg iv ≤ x ∧ x < lawStart lo seg iv + 2 * lawHalf lo seg

/-- The magnitudes that a law encodes: A-law any, u-law those that the bias of 132 leaves. -/
def LawMagnitude (lo x : Nat) : Prop := lo = 1 ∨ lo = 0 ∧ 128 ≤ x

theorem lawHalf_of_le {lo seg : Nat} (h : lo ≤ seg) : lawHalf lo seg = 2 ^ (seg + 2) := by
  rw [lawHalf, max_eq_left h]

theorem lawHalf_pos (lo seg : Nat) : 0 < lawHalf lo seg := Nat.two_pow_pos _

/-- A segment that keeps to the table fills the magnitudes of one bit length with 16 intervals. -/
theorem lawHalf_pow {lo seg : Nat} (h : lo ≤ seg) :
    2 ^ (seg + 7) = 32 * lawHalf lo seg ∧ 2 ^ (seg + 8) = 64 * lawHalf lo seg := by
  rw [lawHalf_of_le h]
  constructor <;> ring

theorem lawStart_of_le {lo seg : Nat} (h : lo ≤ seg) (iv : Nat) :
    lawStart lo seg iv = 32 * lawHalf lo seg + 2 * lawHalf lo seg * iv := by
  rw [lawStart, if_neg (by omega)]
  ring

/-- Segment 0 of A-law. -/
theorem lawStart_one_zero (iv : Nat) : lawStart 1 0 iv = 16 * iv := rfl

theorem lawHalf_one_zero : lawHalf 1 0 = 8 := rfl

theorem lawSegment_of_lt {x : Nat} (h : x < 256) : lawSegment x = 0 := by
  by_cases h0 : x = 0
  · rw [h0]; rfl
  · have := (Nat.log2_lt (k := 8) h0).2 h
    unfold lawSegment
    omega

theorem lawSegment_of_mem {x seg : Nat} (hge : 2 ^ (seg + 7) ≤ x) (hlt : x < 2 ^ (seg + 8)) : lawSegment x = seg := by
  have hx : x ≠ 0 := by have := Nat.two_pow_pos (seg + 7); omega
  rw [lawSegment, (Nat.log2_eq_iff hx).2 ⟨hge, hlt⟩, Nat.add_sub_cancel]

theorem lt_of_lawSegment (x : Nat) : x < 2 ^ (lawSegment x + 8) :=
  Nat.lt_log2_self.trans_le (Nat.pow_le_pow_right (by decide) (by unfold lawSegment; omega))

theorem le_of_lawSegment {x : Nat} (h : 128 ≤ x) : 2 ^ (lawSegment x + 7) ≤ x := by
  have hlog : 7 ≤ Nat.log2 x := (Nat.le_log2 (by omega)).2 h
  rw [lawSegment, Nat.sub_add_cancel hlog]
  exact Nat.log2_self_le (by omega)

theorem lawSegment_mono {x y : Nat} (h : x ≤ y) : lawSegment x ≤ lawSegment y := by
  rw [lawSegment, lawSegment, Nat.log2_eq_log_two, Nat.log2_eq_log_two]
  exact Nat.sub_le_sub_right (Nat.log_mono_right h) 7

theorem lawSegment_lt {x : Nat} (h : x < 32768) : lawSegment x < 8 :=
  Nat.lt_succ_of_le (lawSegment_mono (Nat.le_of_lt_succ h))

theorem lawInterval_lt (lo x : Nat) : lawInterval lo x < 16 := Nat.mod_lt _ (by decide)

/-- A segment below the first that keeps to the table is A-law's segment 0. -/
theorem LawMagnitude.segment_cases {lo x : Nat} (hx : LawMagnitude lo x) :
    lo = 1 ∧ lawSegment x = 0 ∧ x < 256 ∨ lo ≤ lawSegment x ∧ 2 ^ (lawSegment x + 7) ≤ x := by
  by_cases h : 256 ≤ x ∨ lo = 0
  · have h128 : 128 ≤ x := by unfold LawMagnitude at hx; omega
    have hmono : 256 ≤ x → 1 ≤ lawSegment x := lawSegment_mono (x := 256)
    exact .inr ⟨by unfold LawMagnitude at hx; omega, le_of_lawSegment h128⟩
  · have hlt : x < 256 := by omega
    exact .inl ⟨by unfold LawMagnitude at hx; omega, lawSegment_of_lt hlt, hlt⟩

/-- The magnitudes of an interval are those with one quotient by its width. -/
theorem inLawInterval_iff {lo seg iv x : Nat} :
    InLawInterval lo seg iv x ↔ x / (2 * lawHalf lo seg) = if seg < lo then iv else 16 + iv := by
  have hpos := lawHalf_pos lo seg
  rw [InLawInterval, lawStart, Nat.div_eq_iff (by omega), Nat.mul_comm]
  omega

/-- The quotient by the width of an interval is a leading 1 and the interval's four bits: R122's `ix` after the tests. -/
theorem lawQuotient_mem {lo x : Nat} (hle : lo ≤ lawSegment x) (hge : 2 ^ (lawSegment x + 7) ≤ x) :
    16 ≤ x / (2 * lawHalf lo (lawSegment x)) ∧ x / (2 * lawHalf lo (lawSegment x)) < 32 := by
  have hlt := lt_of_lawSegment x
  obtain ⟨hpow, hpow'⟩ := lawHalf_pow hle
  have hpos := lawHalf_pos lo (lawSegment x)
  rw [Nat.le_div_iff_mul_le (by omega), Nat.div_lt_iff_lt_mul (by omega)]
  omega

/-- A magnitude lies in its interval. -/
theorem LawMagnitude.mem_interval {lo x : Nat} (hx : LawMagnitude lo x) :
    InLawInterval lo (lawSegment x) (lawInterval lo x) x := by
  rw [inLawInterval_iff, lawInterval]
  rcases hx.segment_cases with ⟨rfl, hseg, hlt⟩ | ⟨hle, hge⟩
  · rw [hseg, lawHalf_one_zero]
    simp only [Nat.lt_one_iff, if_true]
    omega
  · have := lawQuotient_mem hle hge
    rw [if_neg (by omega)]
    omega

/-- No magnitude lies in two intervals. -/
theorem InLawInterval.unique {lo seg iv x : Nat} (hlo : lo ≤ 1) (hiv : iv < 16) (h : InLawInterval lo seg iv x) :
    lawSegment x = seg ∧ lawInterval lo x = iv := by
  have hseg : lawSegment x = seg := by
    obtain ⟨hge, hlt⟩ := h
    by_cases hle : lo ≤ seg
    · have hstart := lawStart_of_le hle iv
      obtain ⟨hpow, hpow'⟩ := lawHalf_pow hle
      have hmul : 2 * lawHalf lo seg * iv ≤ 2 * lawHalf lo seg * 15 := Nat.mul_le_mul_left _ (by omega)
      exact lawSegment_of_mem (by omega) (by omega)
    · obtain ⟨rfl, rfl⟩ : lo = 1 ∧ seg = 0 := by omega
      rw [lawStart_one_zero, lawHalf_one_zero] at hlt
      exact lawSegment_of_lt (by omega)
  refine ⟨hseg, ?_⟩
  rw [lawInterval, hseg, inLawInterval_iff.1 h]
  split <;> omega

/-- An interval's midpoint lies in it, and so does the magnitude below the midpoint. -/
theorem inLawInterval_midpoint (lo seg iv : Nat) :
    InLawInterval lo seg iv (lawMidpoint lo seg iv) ∧ InLawInterval lo seg iv (lawMidpoint lo seg iv - 1) := by
  have hpos := lawHalf_pos lo seg
  unfold InLawInterval lawMidpoint
  omega

/-- R131, the last column of the two tables. -/
theorem lawMidpoint_of_le {lo seg : Nat} (h : lo ≤ seg) (iv : Nat) :
    lawMidpoint lo seg iv = 2 ^ (seg + 7) + 2 ^ (seg + 3) * iv + 2 ^ (seg + 2) := by
  rw [lawMidpoint, lawStart_of_le h, lawHalf_of_le h]
  ring

theorem lawMidpoint_one_zero (iv : Nat) : lawMidpoint 1 0 iv = 16 * iv + 8 := rfl

/-- The greatest magnitude that a decoder reconstructs (R123, R125 before the bias is taken off). -/
theorem lawMidpoint_le {lo seg iv : Nat} (hlo : lo ≤ 1) (hseg : seg < 8) (hiv : iv < 16) :
    lawMidpoint lo seg iv ≤ 32256 := by
  have hhalf : lawHalf lo seg ≤ 512 := Nat.pow_le_pow_right (n := 2) (j := 9) (by decide) (by omega)
  calc lawMidpoint lo seg iv ≤ 2 * lawHalf lo seg * 31 + lawHalf lo seg :=
        Nat.add_le_add_right (Nat.mul_le_mul_left _ (by split <;> omega)) _
    _ ≤ 32256 := by omega

/-- The least magnitude that the u-law decoder reconstructs is the bias, and only one interval gives it. -/
theorem lawMidpoint_zero_ge (seg iv : Nat) :
    132 ≤ lawMidpoint 0 seg iv ∧ (lawMidpoint 0 seg iv = 132 → seg = 0 ∧ iv = 0) := by
  rw [lawMidpoint, lawStart_of_le (Nat.zero_le seg)]
  rcases Nat.eq_zero_or_pos seg with rfl | hseg
  · rw [show lawHalf 0 0 = 4 from rfl]
    omega
  · have hhalf : 8 ≤ lawHalf 0 seg := by
      rw [lawHalf_of_le (Nat.zero_le seg)]
      exact Nat.pow_le_pow_right (n := 2) (i := 3) (by decide) (by omega)
    omega

/-! ### A magnitude encoded and decoded -/

/-- The magnitude that stands for a magnitude's interval. -/
def lawQuantize (lo x : Nat) : Nat := lawMidpoint lo (lawSegment x) (lawInterval lo x)

/-- R132 (c), (d): quantizing errs by at most half the width of the interval, and by less where it rounds down. -/
theorem LawMagnitude.quantize_error {lo x : Nat} (hx : LawMagnitude lo x) :
    lawQuantize lo x ≤ x + lawHalf lo (lawSegment x) ∧ x < lawQuantize lo x + lawHalf lo (lawSegment x) := by
  obtain ⟨hge, hlt⟩ := hx.mem_interval
  unfold lawQuantize lawMidpoint
  omega

/-- Quantizing drops the bits below the interval and adds half a width. -/
theorem LawMagnitude.quantize_eq {lo x : Nat} (hx : LawMagnitude lo x) :
    lawQuantize lo x =
      2 * lawHalf lo (lawSegment x) * (x / (2 * lawHalf lo (lawSegment x))) + lawHalf lo (lawSegment x) := by
  rw [inLawInterval_iff.1 hx.mem_interval]
  rfl

theorem LawMagnitude.lo_le {lo x : Nat} (hx : LawMagnitude lo x) : lo ≤ 1 := by
  unfold LawMagnitude at hx
  omega

/-- The midpoint of an interval is a magnitude of the same interval. -/
theorem LawMagnitude.segment_quantize {lo x : Nat} (hx : LawMagnitude lo x) :
    lawSegment (lawQuantize lo x) = lawSegment x :=
  ((inLawInterval_midpoint ..).1.unique hx.lo_le (lawInterval_lt ..)).1

/-- R132 (e): in one segment the quotients are in the order of the magnitudes, and quantizing keeps the segment. -/
theorem LawMagnitude.quantize_mono {lo x y : Nat} (hx : LawMagnitude lo x) (hy : LawMagnitude lo y) (h : x ≤ y) :
    lawQuantize lo x ≤ lawQuantize lo y := by
  by_contra hlt
  have hseg : lawSegment y ≤ lawSegment x := by
    have hmono := lawSegment_mono (Nat.le_of_not_le hlt)
    rwa [hx.segment_quantize, hy.segment_quantize] at hmono
  refine hlt ?_
  rw [hx.quantize_eq, hy.quantize_eq, Nat.le_antisymm hseg (lawSegment_mono h)]
  exact Nat.add_le_add_right (Nat.mul_le_mul_left _ (Nat.div_le_div_right h)) _

/-! ### The fields of a code (R121) -/

/-- The fields of a code stand one above another. -/
theorem composeCode_eq_ofNat {seg iv : Nat} (sign : Nat) (hseg : seg < 8) (hiv : iv < 16) :
    composeCode sign seg iv = BitVec.ofNat 8 (128 * sign + 16 * seg + iv) := by
  have hlow : seg <<< 4 ||| iv = 16 * seg + iv := by
    rw [← Nat.shiftLeft_add_eq_or_of_lt hiv, Nat.shiftLeft_eq]; omega
  rw [composeCode, Nat.or_assoc, hlow, ← Nat.shiftLeft_add_eq_or_of_lt (by omega), Nat.shiftLeft_eq]
  congr 1
  omega

theorem composeCode_toNat {sign seg iv : Nat} (hsign : sign < 2) (hseg : seg < 8) (hiv : iv < 16) :
    (composeCode sign seg iv).toNat = 128 * sign + 16 * seg + iv := by
  rw [composeCode_eq_ofNat sign hseg hiv, BitVec.toNat_ofNat]
  omega

theorem codeSeg_composeCode {sign seg iv : Nat} (hsign : sign < 2) (hseg : seg < 8) (hiv : iv < 16) :
    codeSeg (composeCode sign seg iv) = seg := by
  rw [codeSeg, composeCode_toNat hsign hseg hiv, Nat.shiftRight_eq_div_pow]
  omega

theorem codeIvl_composeCode {sign seg iv : Nat} (hsign : sign < 2) (hseg : seg < 8) (hiv : iv < 16) :
    codeIvl (composeCode sign seg iv) = iv := by
  rw [codeIvl, composeCode_toNat hsign hseg hiv]
  omega

theorem codeSign_composeCode {sign seg iv : Nat} (hsign : sign < 2) (hseg : seg < 8) (hiv : iv < 16) :
    codeSign (composeCode sign seg iv) = sign := by
  rw [codeSign, composeCode_toNat hsign hseg hiv, Nat.shiftRight_eq_div_pow]
  omega

theorem codeSeg_lt (t : Byte) : codeSeg t < 8 := Nat.mod_lt _ (by decide)
theorem codeIvl_lt (t : Byte) : codeIvl t < 16 := Nat.mod_lt _ (by decide)

/-- The arithmetic form of the segment field. -/
theorem codeSeg_eq (t : Byte) : codeSeg t = t.toNat / 16 % 8 := by rw [codeSeg, Nat.shiftRight_eq_div_pow]

theorem codeSign_eq_one_iff (t : Byte) : codeSign t = 1 ↔ 128 ≤ t.toNat := by
  have := t.isLt
  rw [codeSign, Nat.shiftRight_eq_div_pow]
  omega

theorem codeSign_lt (t : Byte) : codeSign t < 2 := by
  have := t.isLt
  rw [codeSign, Nat.shiftRight_eq_div_pow]
  omega

/-- A code is composed of its fields. -/
theorem composeCode_fields (t : Byte) : composeCode (codeSign t) (codeSeg t) (codeIvl t) = t := by
  have := t.isLt
  apply BitVec.eq_of_toNat_eq
  rw [composeCode_toNat (codeSign_lt t) (codeSeg_lt t) (codeIvl_lt t), codeSign, codeSeg, codeIvl]
  simp only [Nat.shiftRight_eq_div_pow]
  omega

/-- A line inversion undoes itself (R100, R101). -/
theorem xor_mask_xor_mask (t mask : Byte) : t ^^^ mask ^^^ mask = t := by
  rw [BitVec.xor_assoc, BitVec.xor_self, BitVec.xor_zero]

theorem eq_xor_of_xor_eq {c t mask : Byte} (h : c ^^^ mask = t) : c = t ^^^ mask := by
  rw [← h, xor_mask_xor_mask]

/-! ### The encoders and the decoders as codes of intervals -/

theorem onesMagnitude_lt (v : Sample) : onesMagnitude v < 32768 := by
  have := toInt16_range v
  unfold onesMagnitude
  split <;> omega

theorem lawMagnitude_ones (v : Sample) : LawMagnitude 1 (onesMagnitude v) := .inl rfl

/-- The biased magnitude of R124. -/
def ulawBiased (v : Sample) : Nat := ulawMagnitude v + 132

theorem ulawBiased_eq (v : Sample) : ulawBiased v = min v.toInt.natAbs 32635 + 132 := rfl

theorem ulawBiased_lt (v : Sample) : ulawBiased v < 32768 := by
  rw [ulawBiased_eq]
  omega

theorem lawMagnitude_biased (v : Sample) : LawMagnitude 0 (ulawBiased v) := by
  rw [ulawBiased_eq, LawMagnitude]
  omega

/-- R122's `ix` below 16: segment 0. -/
theorem alaw_interval_low {m : Nat} (h : m / 16 < 16) : lawSegment m = 0 ∧ lawInterval 1 m = m / 16 :=
  InLawInterval.unique (le_refl 1) h (inLawInterval_iff.2 rfl)

/-- R122's `ix` from 16 on: the segment is the one that leaves five bits of `ix`, the interval the four below the topmost. -/
theorem alaw_interval_high {m seg : Nat} (hseg : 1 ≤ seg) (hge : 16 ≤ m / 16 / 2 ^ (seg - 1))
    (hlt : m / 16 / 2 ^ (seg - 1) < 32) :
    lawSegment m = seg ∧ lawInterval 1 m = m / 16 / 2 ^ (seg - 1) - 16 := by
  have hwidth : 2 * lawHalf 1 seg = 16 * 2 ^ (seg - 1) := by
    obtain ⟨k, rfl⟩ := Nat.exists_eq_add_of_le' hseg
    rw [lawHalf_of_le hseg, Nat.add_sub_cancel]
    ring
  refine InLawInterval.unique (le_refl 1) (by omega) (inLawInterval_iff.2 ?_)
  rw [hwidth, ← Nat.div_div_eq_div_mul, if_neg (by omega)]
  omega

/-- A number from 16 on, cut to its five topmost bits. -/
theorem topmost_five_bits_mem {ix : Nat} (h : 16 ≤ ix) :
    16 ≤ ix / 2 ^ (Nat.log2 ix - 4) ∧ ix / 2 ^ (Nat.log2 ix - 4) < 32 := by
  have hix : ix ≠ 0 := by omega
  obtain ⟨k, hk⟩ := Nat.exists_eq_add_of_le' ((Nat.le_log2 (k := 4) hix).2 h)
  obtain ⟨hge, hlt⟩ := (Nat.log2_eq_iff hix).1 hk
  rw [hk, Nat.add_sub_cancel, Nat.le_div_iff_mul_le (Nat.two_pow_pos k), Nat.div_lt_iff_lt_mul (Nat.two_pow_pos k)]
  rw [pow_add] at hge
  rw [pow_succ, pow_add] at hlt
  omega

/-- R122's closed form of the segment and the interval. -/
theorem alaw_interval_closed_form {m : Nat} (h : 16 ≤ m / 16) :
    lawSegment m = Nat.log2 (m / 16) + 1 - 4 ∧
      lawInterval 1 m = m / 16 / 2 ^ (Nat.log2 (m / 16) + 1 - 4 - 1) % 16 := by
  have hlog : 4 ≤ Nat.log2 (m / 16) := (Nat.le_log2 (by omega)).2 h
  have hbits := topmost_five_bits_mem h
  rw [show Nat.log2 (m / 16) - 4 = Nat.log2 (m / 16) + 1 - 4 - 1 by omega] at hbits
  obtain ⟨hge, hlt⟩ := hbits
  obtain ⟨hseg, hiv⟩ := alaw_interval_high (by omega) hge hlt
  exact ⟨hseg, by omega⟩

/-- The three range tests shift five bits out of `ix` and count its segment (R122). -/
theorem alawSearch_spec {ix : Nat} (hge : 16 ≤ ix) (hlt : ix < 2048) :
    ∃ seg, 1 ≤ seg ∧ alawSearch ix = (ix / 2 ^ (seg - 1), seg) ∧ 16 ≤ ix / 2 ^ (seg - 1) ∧
      ix / 2 ^ (seg - 1) < 32 := by
  refine ⟨(alawSearch ix).2, ?_⟩
  rw [Prod.ext_iff]
  simp only [alawSearch, Nat.shiftRight_eq_div_pow]
  split_ifs <;> simp only [Nat.reduceAdd, Nat.reduceSub, Nat.reducePow, Nat.div_div_eq_div_mul, true_and, and_true] at * <;>
    omega

/-- R122: the code of the magnitude's interval, the sign bit set for a sample that is not negative. -/
theorem alawEncode_xor (v : Sample) :
    alawEncode v ^^^ 0x55#8 = composeCode (if v.toInt < 0 then 0 else 1) (lawSegment (onesMagnitude v))
      (lawInterval 1 (onesMagnitude v)) := by
  have hm := onesMagnitude_lt v
  rw [alawEncode, xor_mask_xor_mask, show onesMagnitude v >>> 4 = onesMagnitude v / 16 from Nat.shiftRight_eq_div_pow _ 4]
  split
  next h =>
    obtain ⟨hseg, hiv⟩ := alaw_interval_low h
    rw [hseg, hiv]
  next h =>
    obtain ⟨seg, hpos, hsearch, hge, hlt⟩ := alawSearch_spec (ix := onesMagnitude v / 16) (by omega) (by omega)
    obtain ⟨hseg, hiv⟩ := alaw_interval_high hpos hge hlt
    rw [hseg, hiv, hsearch]

/-- R124: the code of the biased magnitude's interval, the sign bit set for a negative sample. -/
theorem ulawEncode_xor (v : Sample) :
    ulawEncode v ^^^ 0xFF#8 = composeCode (if v.toInt < 0 then 1 else 0) (lawSegment (ulawBiased v))
      (lawInterval 0 (ulawBiased v)) := by
  have hbits : bitlen (ulawBiased v) - 8 = lawSegment (ulawBiased v) := by
    rw [bitlen_pos (v := ulawBiased v) (Nat.succ_ne_zero _), Nat.add_sub_add_right]
    rfl
  have hiv : lawInterval 0 (ulawBiased v) = (ulawBiased v >>> (lawSegment (ulawBiased v) + 3)) % 16 := by
    rw [lawInterval, lawHalf_of_le (Nat.zero_le _), ← pow_succ', Nat.shiftRight_eq_div_pow]
  rw [hiv, ← hbits]
  exact xor_mask_xor_mask _ _

/-- R123. -/
theorem alawMagnitude_eq (seg iv : Nat) : alawMagnitude seg iv = lawMidpoint 1 seg iv := by
  unfold alawMagnitude
  cases seg with
  | zero => simp [lawMidpoint_one_zero, Nat.shiftLeft_eq, Nat.mul_comm]
  | succ k =>
    rw [lawMidpoint_of_le (Nat.le_add_left 1 k)]
    simp only [ge_iff_le, Nat.le_add_left, if_true, Nat.shiftLeft_eq, Nat.add_sub_cancel]
    ring

/-- R125, before the bias is taken off. -/
theorem ulawReconstruction_eq (seg iv : Nat) : ((iv <<< 3) + 0x84) <<< seg = lawMidpoint 0 seg iv := by
  rw [lawMidpoint_of_le (Nat.zero_le seg), Nat.shiftLeft_eq, Nat.shiftLeft_eq]
  ring

/-- The magnitude that a code, its line inversion undone, stands for. -/
def codeMidpoint (lo : Nat) (t : Byte) : Nat := lawMidpoint lo (codeSeg t) (codeIvl t)

theorem codeMidpoint_eq (lo : Nat) (t : Byte) :
    codeMidpoint lo t = lawMidpoint lo (t.toNat / 16 % 8) (t.toNat % 16) := by
  rw [codeMidpoint, codeSeg_eq, codeIvl]

theorem codeMidpoint_le {lo : Nat} (hlo : lo ≤ 1) (t : Byte) : codeMidpoint lo t ≤ 32256 :=
  lawMidpoint_le hlo (codeSeg_lt t) (codeIvl_lt t)

/-- R123. -/
theorem alawDecode_eq {c t : Byte} (ht : c ^^^ 0x55#8 = t) :
    alawDecode c = BitVec.ofInt 16 (if codeSign t = 1 then (codeMidpoint 1 t : Int) else -codeMidpoint 1 t) := by
  rw [alawDecode, ht, alawMagnitude_eq]
  rfl

/-- R125: the bias is taken off the midpoint. -/
theorem ulawDecode_eq {c t : Byte} (ht : c ^^^ 0xFF#8 = t) :
    ulawDecode c =
      BitVec.ofInt 16 (if codeSign t = 1 then -((codeMidpoint 0 t : Int) - 132) else (codeMidpoint 0 t : Int) - 132) := by
  rw [ulawDecode, ht, ulawReconstruction_eq]
  rfl

/-- R123: no magnitude is too great for a sample. -/
theorem alawDecode_toInt {c t : Byte} (ht : c ^^^ 0x55#8 = t) :
    (alawDecode c).toInt = if codeSign t = 1 then (codeMidpoint 1 t : Int) else -codeMidpoint 1 t := by
  have hle := codeMidpoint_le (le_refl 1) t
  rw [alawDecode_eq ht, ofInt16_toInt _ (by split <;> omega) (by split <;> omega)]

/-- R125: no magnitude is too great for a sample. -/
theorem ulawDecode_toInt {c t : Byte} (ht : c ^^^ 0xFF#8 = t) :
    (ulawDecode c).toInt = if codeSign t = 1 then -((codeMidpoint 0 t : Int) - 132) else (codeMidpoint 0 t : Int) - 132 := by
  have hle := codeMidpoint_le (Nat.zero_le 1) t
  rw [ulawDecode_eq ht, ofInt16_toInt _ (by split <;> omega) (by split <;> omega)]

/-! ### A sample encoded and decoded -/

/-- The fields of a magnitude's code, and the magnitude that the code stands for. -/
theorem codeMidpoint_of_composed {lo sign x : Nat} (hsign : sign < 2) (hx : x < 32768) {t : Byte}
    (ht : t = composeCode sign (lawSegment x) (lawInterval lo x)) :
    codeSign t = sign ∧ codeSeg t = lawSegment x ∧ codeMidpoint lo t = lawQuantize lo x := by
  have hseg := lawSegment_lt hx
  have hiv := lawInterval_lt lo x
  rw [ht, codeMidpoint, codeSign_composeCode hsign hseg hiv, codeSeg_composeCode hsign hseg hiv,
    codeIvl_composeCode hsign hseg hiv]
  exact ⟨rfl, rfl, rfl⟩

/-- The segment of a sample's A-law code (R131), and what the code decodes to. -/
theorem alaw_encoded (v : Sample) :
    (alawEncode v ^^^ 0x55#8).toNat / 16 % 8 = lawSegment (onesMagnitude v) ∧
      (alawDecode (alawEncode v)).toInt =
        if v.toInt < 0 then -(lawQuantize 1 (onesMagnitude v) : Int) else lawQuantize 1 (onesMagnitude v) := by
  obtain ⟨hsign, hseg, hmid⟩ := codeMidpoint_of_composed (by split <;> decide) (onesMagnitude_lt v) (alawEncode_xor v)
  rw [alawDecode_toInt rfl, hmid, hsign, ← codeSeg_eq, hseg]
  exact ⟨rfl, by split <;> rfl⟩

/-- The segment of a sample's u-law code (R131), and what the code decodes to. -/
theorem ulaw_encoded (v : Sample) :
    (ulawEncode v ^^^ 0xFF#8).toNat / 16 % 8 = lawSegment (ulawBiased v) ∧
      (ulawDecode (ulawEncode v)).toInt =
        if v.toInt < 0 then -((lawQuantize 0 (ulawBiased v) : Int) - 132) else (lawQuantize 0 (ulawBiased v) : Int) - 132 := by
  obtain ⟨hsign, hseg, hmid⟩ := codeMidpoint_of_composed (by split <;> decide) (ulawBiased_lt v) (ulawEncode_xor v)
  rw [ulawDecode_toInt rfl, hmid, hsign, ← codeSeg_eq, hseg]
  exact ⟨rfl, by split <;> rfl⟩

/-- R132 (c). -/
theorem alaw_error_le (v : Sample) : ((alawDecode (alawEncode v)).toInt - v.toInt).natAbs ≤
    2 ^ (max ((alawEncode v ^^^ 0x55#8).toNat / 16 % 8) 1 + 2) := by
  obtain ⟨hseg, hdec⟩ := alaw_encoded v
  have herr := (lawMagnitude_ones v).quantize_error
  have hmag : onesMagnitude v = if v.toInt < 0 then (-v.toInt - 1).toNat else v.toInt.toNat := rfl
  rw [lawHalf] at herr
  rw [hseg, hdec]
  split at hmag <;> split <;> omega

/-- R132 (d), below the clip. -/
theorem ulaw_error_le (v : Sample) (hv : v.toInt.natAbs ≤ 32635) :
    ((ulawDecode (ulawEncode v)).toInt - v.toInt).natAbs ≤ 2 ^ ((ulawEncode v ^^^ 0xFF#8).toNat / 16 % 8 + 2) := by
  obtain ⟨hseg, hdec⟩ := ulaw_encoded v
  have herr := (lawMagnitude_biased v).quantize_error
  have hmag := ulawBiased_eq v
  rw [lawHalf_of_le (Nat.zero_le _)] at herr
  rw [hseg, hdec]
  split <;> omega

/-! ### A code decoded and encoded (R132 (a), (b)) -/

/-- A code is recomposed from its sign and from any magnitude of its interval. -/
theorem composeCode_of_mem {lo sign x : Nat} {t : Byte} (hlo : lo ≤ 1) (hsign : sign = codeSign t)
    (hx : InLawInterval lo (codeSeg t) (codeIvl t) x) : composeCode sign (lawSegment x) (lawInterval lo x) = t := by
  obtain ⟨hseg, hiv⟩ := hx.unique hlo (codeIvl_lt t)
  rw [hsign, hseg, hiv, composeCode_fields]

/-- One's complement takes a negative midpoint to the magnitude below it, which its interval holds too. -/
theorem alawEncode_alawDecode (c : Byte) : alawEncode (alawDecode c) = c := by
  obtain ⟨t, ht⟩ : ∃ t, c ^^^ 0x55#8 = t := ⟨_, rfl⟩
  have hdec := alawDecode_toInt ht
  have hsign := codeSign_lt t
  have hpos : 0 < codeMidpoint 1 t := Nat.add_pos_right _ (lawHalf_pos ..)
  obtain ⟨hmid, hbelow⟩ := inLawInterval_midpoint 1 (codeSeg t) (codeIvl t)
  refine (eq_xor_of_xor_eq ((alawEncode_xor _).trans (composeCode_of_mem (t := t) (le_refl 1) ?_ ?_))).trans
    (eq_xor_of_xor_eq ht).symm
  · split at hdec <;> split <;> omega
  · split at hdec
    next h1 =>
      have hmag : onesMagnitude (alawDecode c) = codeMidpoint 1 t := by unfold onesMagnitude; split <;> omega
      exact hmag ▸ hmid
    next h0 =>
      have hmag : onesMagnitude (alawDecode c) = codeMidpoint 1 t - 1 := by unfold onesMagnitude; split <;> omega
      exact hmag ▸ hbelow

/-- The least magnitude that the u-law decoder reconstructs is the bias, and only the two codes of 0 give it. -/
theorem codeMidpoint_zero_ge (t : Byte) :
    132 ≤ codeMidpoint 0 t ∧ (codeMidpoint 0 t = 132 → codeSign t = 1 → t = 0x80#8) := by
  obtain ⟨hge, hzero⟩ := lawMidpoint_zero_ge (codeSeg t) (codeIvl t)
  refine ⟨hge, fun h132 hsign => ?_⟩
  obtain ⟨hseg, hiv⟩ := hzero h132
  rw [← composeCode_fields t, hsign, hseg, hiv]
  rfl

/-- The biased magnitude of a decoded code is the midpoint; only negative zero loses its sign. -/
theorem ulawEncode_ulawDecode {c : Byte} (hc : c ≠ 0x7F#8) : ulawEncode (ulawDecode c) = c := by
  obtain ⟨t, ht⟩ : ∃ t, c ^^^ 0xFF#8 = t := ⟨_, rfl⟩
  have hdec := ulawDecode_toInt ht
  have hsign := codeSign_lt t
  have hle := codeMidpoint_le (Nat.zero_le 1) t
  obtain ⟨hge, hzero⟩ := codeMidpoint_zero_ge t
  have hne : codeSign t = 1 → codeMidpoint 0 t ≠ 132 := by
    rintro h1 h132
    rw [hzero h132 h1] at ht
    exact hc (eq_xor_of_xor_eq ht)
  have hmag : ulawBiased (ulawDecode c) = codeMidpoint 0 t := by
    rw [ulawBiased_eq]
    split at hdec <;> omega
  refine (eq_xor_of_xor_eq ((ulawEncode_xor _).trans (composeCode_of_mem (t := t) (Nat.zero_le 1) ?_ ?_))).trans
    (eq_xor_of_xor_eq ht).symm
  · split at hdec <;> split <;> omega
  · exact hmag ▸ (inLawInterval_midpoint 0 (codeSeg t) (codeIvl t)).1

/-! ### The order of the magnitudes -/

theorem onesMagnitude_mono {v w : Sample} (hv : 0 ≤ v.toInt) (h : v.toInt ≤ w.toInt) :
    onesMagnitude v ≤ onesMagnitude w := by
  unfold onesMagnitude
  split <;> split <;> omega

theorem onesMagnitude_anti {v w : Sample} (h : v.toInt ≤ w.toInt) (hw : w.toInt < 0) :
    onesMagnitude w ≤ onesMagnitude v := by
  unfold onesMagnitude
  split <;> split <;> omega

theorem ulawBiased_mono {v w : Sample} (h : v.toInt.natAbs ≤ w.toInt.natAbs) : ulawBiased v ≤ ulawBiased w := by
  rw [ulawBiased_eq, ulawBiased_eq]
  omega

theorem bias_le_quantize (x : Nat) : 132 ≤ lawQuantize 0 x := (lawMidpoint_zero_ge ..).1

/-- Signs put back to magnitudes that grow away from 0. -/
theorem signed_mono {v w p q : Int} (h : v ≤ w) (hp : 0 ≤ p) (hq : 0 ≤ q) (hneg : w < 0 → q ≤ p)
    (hpos : 0 ≤ v → p ≤ q) :
    (if v < 0 then -p else p) ≤ if w < 0 then -q else q := by
  split <;> split <;> omega

/-! ### What the operations answer -/

section Answers

variable {s : State}

theorem exec_alawEnc_on (h : s.poweredOn = true) (v : Sample) :
    exec (.alawEnc v) s = .next (s.give (.byte (alawEncode v))) := State.whenOn_on h _

theorem exec_alawDec_on (h : s.poweredOn = true) (c : Byte) :
    exec (.alawDec c) s = .next (s.give (.sample (alawDecode c))) := State.whenOn_on h _

theorem exec_ulawEnc_on (h : s.poweredOn = true) (v : Sample) :
    exec (.ulawEnc v) s = .next (s.give (.byte (ulawEncode v))) := State.whenOn_on h _

theorem exec_ulawDec_on (h : s.poweredOn = true) (c : Byte) :
    exec (.ulawDec c) s = .next (s.give (.sample (ulawDecode c))) := State.whenOn_on h _

/-- A result that is a list mapped over the operand has, at each place, the map's value there. -/
theorem map_getElem?_eq {α β : Type} {f : α → β} {x : List α} {k : Nat} {a : α} {b : β} (ha : x[k]? = some a)
    (hb : (x.map f)[k]? = some b) : b = f a := by
  rw [List.getElem?_map, ha] at hb
  exact (Option.some.inj hb).symm

end Answers

/-! ### The obligations -/

/-- Settles O13: each buffer form answers its scalar law mapped over the list. -/
theorem companderBuffersMapTheScalarForms : Obligations.CompanderBuffersMapTheScalarForms := by
  intro s x codes h
  refine ⟨⟨x.map alawEncode, State.whenOn_on h _, List.length_map _, ?_⟩,
    ⟨codes.map alawDecode, State.whenOn_on h _, List.length_map _, ?_⟩,
    ⟨x.map ulawEncode, State.whenOn_on h _, List.length_map _, ?_⟩,
    ⟨codes.map ulawDecode, State.whenOn_on h _, List.length_map _, ?_⟩⟩
  · intro k v b hv hb
    rw [map_getElem?_eq hv hb]
    exact exec_alawEnc_on h v
  · intro k b v hb hv
    rw [map_getElem?_eq hb hv]
    exact exec_alawDec_on h b
  · intro k v b hv hb
    rw [map_getElem?_eq hv hb]
    exact exec_ulawEnc_on h v
  · intro k b v hb hv
    rw [map_getElem?_eq hb hv]
    exact exec_ulawDec_on h b

/-- Settles O15: a clipped magnitude is quantized to 32124, and half a width is at most 512. -/
theorem companderErrorWithinHalfInterval : Obligations.CompanderErrorWithinHalfInterval := by
  refine ⟨alaw_error_le, ulaw_error_le, fun v => ?_⟩
  by_cases hv : v.toInt.natAbs ≤ 32635
  · have hseg : (ulawEncode v ^^^ 0xFF#8).toNat / 16 % 8 + 2 ≤ 9 := by omega
    have hpow := Nat.pow_le_pow_right (n := 2) (by decide) hseg
    exact (ulaw_error_le v hv).trans (hpow.trans (by decide))
  · have hrange := toInt16_range v
    have hmag : ulawBiased v = 32767 := by rw [ulawBiased_eq, min_eq_right (by omega)]
    rw [(ulaw_encoded v).2, hmag, show lawQuantize 0 32767 = 32256 by decide]
    split <;> omega

/-- Settles O16: quantizing is monotone on magnitudes, and a sample and its image under the symmetry have one magnitude. -/
theorem compandersMonotoneAndSymmetric : Obligations.CompandersMonotoneAndSymmetric := by
  refine ⟨fun v w h => ⟨?_, ?_⟩, fun v w h => ?_, fun v w h => ?_⟩
  · rw [(alaw_encoded v).2, (alaw_encoded w).2]
    refine signed_mono h (Int.natCast_nonneg _) (Int.natCast_nonneg _) (fun hw => ?_) (fun hv => ?_)
    · exact_mod_cast (lawMagnitude_ones w).quantize_mono (lawMagnitude_ones v) (onesMagnitude_anti h hw)
    · exact_mod_cast (lawMagnitude_ones v).quantize_mono (lawMagnitude_ones w) (onesMagnitude_mono hv h)
  · rw [(ulaw_encoded v).2, (ulaw_encoded w).2]
    have hv0 := bias_le_quantize (ulawBiased v)
    have hw0 := bias_le_quantize (ulawBiased w)
    refine signed_mono h (by omega) (by omega) (fun hw => ?_) (fun hv => ?_)
    · have hle := (lawMagnitude_biased w).quantize_mono (lawMagnitude_biased v) (ulawBiased_mono (by omega))
      omega
    · have hle := (lawMagnitude_biased v).quantize_mono (lawMagnitude_biased w) (ulawBiased_mono (by omega))
      omega
  · have hmag : ulawBiased w = ulawBiased v := by rw [ulawBiased_eq, ulawBiased_eq, h, Int.natAbs_neg]
    have hzero : v.toInt = 0 → lawQuantize 0 (ulawBiased v) = 132 := by
      intro h0
      rw [ulawBiased_eq, h0]
      decide
    rw [(ulaw_encoded v).2, (ulaw_encoded w).2, hmag]
    split <;> split <;> omega
  · have hmag : onesMagnitude w = onesMagnitude v := by
      unfold onesMagnitude
      split <;> split <;> omega
    rw [(alaw_encoded v).2, (alaw_encoded w).2, hmag]
    split <;> split <;> omega

/-- Settles O14: a decoded code lies in the code's interval, and has its sign but where u-law decodes to 0. -/
theorem companderCodesRoundTrip : Obligations.CompanderCodesRoundTrip :=
  ⟨alawEncode_alawDecode, fun _ => ulawEncode_ulawDecode, by decide, by decide⟩

/-- Settles O10: the closed form's segment and interval are those of R122's range tests. -/
theorem alawEncodeClosedForm : Obligations.AlawEncodeClosedForm := by
  intro s v h m ix seg iv t
  have hm : m < 32768 := onesMagnitude_lt v
  have hfields : lawSegment m = seg ∧ lawInterval 1 m = iv := by
    by_cases hix : ix < 16
    · simp only [iv, seg, if_pos hix]
      exact alaw_interval_low hix
    · simp only [iv, seg, if_neg hix]
      exact alaw_interval_closed_form (Nat.le_of_not_lt hix)
  obtain ⟨hseg, hiv⟩ := hfields
  have hcode : alawEncode v = BitVec.ofNat 8 t ^^^ 0x55#8 := by
    rw [eq_xor_of_xor_eq (alawEncode_xor v), show onesMagnitude v = m from rfl,
      composeCode_eq_ofNat _ (lawSegment_lt hm) (lawInterval_lt ..), hseg, hiv]
    simp only [t]
    split <;> rfl
  rw [exec_alawEnc_on h, hcode]
  rfl

/-- Settles O11: the quotient by the interval's width is between 16 and 31, and its low four bits are the interval. -/
theorem ulawEncodeClosedForm : Obligations.UlawEncodeClosedForm := by
  intro s v h b seg iv t
  have hb : 128 ≤ b := by omega
  have hlt : b < 32768 := ulawBiased_lt v
  have hwidth : 2 * lawHalf 0 seg = 2 ^ (seg + 3) := by rw [lawHalf_of_le (Nat.zero_le _), ← pow_succ']
  obtain ⟨hge, hlt32⟩ := lawQuotient_mem (Nat.zero_le _) (le_of_lawSegment hb)
  rw [show lawSegment b = seg from rfl, hwidth] at hge hlt32
  have hiv : lawInterval 0 b = iv := by
    rw [lawInterval, show lawSegment b = seg from rfl, hwidth]
    omega
  have hcode : ulawEncode v = BitVec.ofNat 8 t ^^^ 0xFF#8 := by
    rw [eq_xor_of_xor_eq (ulawEncode_xor v), show ulawBiased v = b from rfl,
      composeCode_eq_ofNat _ (lawSegment_lt hlt) (lawInterval_lt ..), hiv]
    simp only [t]
    split <;> rfl
  refine ⟨hb, hlt, hge, hlt32, ?_⟩
  rw [exec_ulawEnc_on h, hcode]
  rfl

/-- Settles O12: an interval's midpoint, with the sign put back. -/
theorem decodersGiveIntervalMidpoints : Obligations.DecodersGiveIntervalMidpoints := by
  refine ⟨fun s c h => ?_, fun s c h => ?_⟩
  · intro t seg i mag
    have hfields : codeMidpoint 1 (c ^^^ 0x55#8) = lawMidpoint 1 seg i := codeMidpoint_eq _ _
    have hmid : lawMidpoint 1 seg i = mag := by
      simp only [mag]
      split
      next h0 => rw [h0, lawMidpoint_one_zero]
      next h0 => rw [lawMidpoint_of_le (by omega)]
    rw [exec_alawDec_on h, alawDecode_eq rfl, hfields, hmid]
    simp only [codeSign_eq_one_iff]
    rfl
  · intro t seg i mag
    have hfields : codeMidpoint 0 (c ^^^ 0xFF#8) = lawMidpoint 0 seg i := codeMidpoint_eq _ _
    have hmid : (lawMidpoint 0 seg i : Int) - 132 = mag := by
      obtain ⟨hge, -⟩ := lawMidpoint_zero_ge seg i
      rw [lawMidpoint_of_le (Nat.zero_le _)] at hge ⊢
      omega
    rw [exec_ulawDec_on h, ulawDecode_eq rfl, hfields, hmid]
    simp only [codeSign_eq_one_iff]
    rfl

end Sys2Proof.Machine
end

section
/-! The ADP unit (spec/41_adpcm.md): what its operations answer when the block is on; the code of a sample and the step
of a code as exact integers; the codes in a byte list. -/

namespace Sys2Proof.Machine

/-! ### What the operations answer -/

section Answers

variable {s : State}

theorem exec_adpcmEnc_on (h : s.poweredOn = true) (v : Sample) :
    exec (.adpcmEnc .tx v) s =
      .next { s with
        adpTx := (s.adpTx.encodeSample v).1, results := s.results ++ [.code (s.adpTx.encodeSample v).2] } :=
  State.whenOn_on h _

theorem exec_adpcmDec_on (h : s.poweredOn = true) (code : Int) :
    exec (.adpcmDec .rx code) s =
      .next { s with
        adpRx := (s.adpRx.decodeSample (truncN s.adpRx.w.bits code)).1
        results := s.results ++ [.sample (s.adpRx.decodeSample (truncN s.adpRx.w.bits code)).2] } :=
  State.whenOn_on h _

/-- The low bits of a code are the code (R163). -/
theorem truncN_of_lt {n c : Nat} (h : c < 2 ^ n) : truncN n (c : Int) = c := by
  unfold truncN
  norm_cast
  exact Nat.mod_eq_of_lt h

/-- An operand that is a code of `W` bits is decoded as it is (R174). -/
theorem exec_adpcmDec_code (h : s.poweredOn = true) {c : Nat} (hc : c < 2 ^ s.adpRx.w.bits) :
    exec (.adpcmDec .rx c) s =
      .next { s with
        adpRx := (s.adpRx.decodeSample c).1, results := s.results ++ [.sample (s.adpRx.decodeSample c).2] } := by
  rw [exec_adpcmDec_on h, truncN_of_lt hc]

theorem exec_adpcmEncBuf_on (h : s.poweredOn = true) (x : List Sample) {b : List Byte} {off : Int} (hlo : 0 ≤ off)
    (hhi : off ≤ 8 * b.length) :
    exec (.adpcmEncBuf .tx x b off) s =
      .next { s with
        adpTx := (s.adpTx.encodeAll x).1
        results := s.results ++ [.packed (packCodes s.adpTx.w b off.toNat (s.adpTx.encodeAll x).2)
          (off.toNat + s.adpTx.w.bits * x.length)] } := by
  refine (State.whenOn_on h _).trans ?_
  simp only [if_neg (not_lt.2 hlo), Adp.encodeBuf_ok (show off.toNat ≤ 8 * b.length by omega)]
  rfl

theorem exec_adpcmEncBuf_badOffset (h : s.poweredOn = true) (x : List Sample) {b : List Byte} {off : Int}
    (hoff : off < 0 ∨ 8 * (b.length : Int) < off) : exec (.adpcmEncBuf .tx x b off) s = .refused .badOffset := by
  refine (State.whenOn_on h _).trans ?_
  by_cases hneg : off < 0
  · exact if_pos hneg
  · have hout : ¬ off.toNat ≤ 8 * b.length := by omega
    simp only [if_neg hneg, Adp.encodeBuf, if_neg hout]

theorem exec_adpcmDecBuf_on (h : s.poweredOn = true) {b : List Byte} {off n : Int} (hoff : 0 ≤ off) (hn : 0 ≤ n)
    (hfit : off + s.adpRx.w.bits * n ≤ 8 * b.length) :
    exec (.adpcmDecBuf .rx b off n) s =
      .next { s with
        adpRx := (s.adpRx.decodeAll (unpackCodes s.adpRx.w b off.toNat n.toNat)).1
        results := s.results ++ [.samples (s.adpRx.decodeAll (unpackCodes s.adpRx.w b off.toNat n.toNat)).2] } := by
  have hfitNat : off.toNat + s.adpRx.w.bits * n.toNat ≤ 8 * b.length := by
    zify
    rwa [Int.toNat_of_nonneg hoff, Int.toNat_of_nonneg hn]
  refine (State.whenOn_on h _).trans ?_
  simp only [if_neg (show ¬(off < 0 ∨ n < 0) by omega), Adp.decodeBuf_ok hfitNat]
  rfl

theorem exec_adpcmDecBuf_badRange (h : s.poweredOn = true) {b : List Byte} {off n : Int}
    (hout : off < 0 ∨ n < 0 ∨ 8 * (b.length : Int) < off + s.adpRx.w.bits * n) :
    exec (.adpcmDecBuf .rx b off n) s = .refused .badRange := by
  refine (State.whenOn_on h _).trans ?_
  by_cases hneg : off < 0 ∨ n < 0
  · exact if_pos hneg
  · obtain ⟨hoff, hn⟩ : 0 ≤ off ∧ 0 ≤ n := by omega
    have hfit : ¬ off.toNat + s.adpRx.w.bits * n.toNat ≤ 8 * b.length := by
      zify
      rw [Int.toNat_of_nonneg hoff, Int.toNat_of_nonneg hn]
      omega
    simp only [if_neg hneg, Adp.decodeBuf, if_neg hfit]

/-- The width is read back from its number of bits (R152). -/
theorem codeWidth_bits (w : CodeWidth) : codeWidth w.bits = some w := by cases w <;> rfl

theorem codeWidth_of_not_mem {w : Int} (h : w ∉ [(2 : Int), 3, 4, 5]) : codeWidth w = none := by
  simp only [List.mem_cons, List.not_mem_nil, or_false, not_or] at h
  obtain ⟨h2, h3, h4, h5⟩ := h
  simp only [codeWidth, if_neg h2, if_neg h3, if_neg h4, if_neg h5]

theorem exec_adpcmSetw_on (h : s.poweredOn = true) (i : Dir) (w : CodeWidth) :
    exec (.adpcmSetw i w.bits) s = .next ((s.adpcmSetW i w).give .unit) := by
  refine (State.whenOn_on h _).trans ?_
  rw [codeWidth_bits]
  rfl

theorem exec_adpcmSetw_badWidth (h : s.poweredOn = true) (i : Dir) {w : Int} (hw : w ∉ [(2 : Int), 3, 4, 5]) :
    exec (.adpcmSetw i w) s = .refused .badWidth := by
  refine (State.whenOn_on h _).trans ?_
  rw [codeWidth_of_not_mem hw]

end Answers

/-! ### The obligations on the resets and refusals -/

/-- Settles O9: a reset's registers are written out in `Adp.idle`, `RcUp.idle`, `RcDn.idle`, `Jb.idle` and `Mf.idle`. -/
theorem unitResetsWriteTheirValues : Obligations.UnitResetsWriteTheirValues := fun _ h =>
  ⟨State.whenOn_on h _, State.whenOn_on h _, State.whenOn_on h _, State.whenOn_on h _, State.whenOn_on h _,
    State.whenOn_on h _⟩

/-- Settles O17: the four widths are those that have a number of bits. -/
theorem setWidthWritesOnlyW : Obligations.SetWidthWritesOnlyW := fun _ h =>
  ⟨exec_adpcmSetw_on h .rx, exec_adpcmSetw_on h .tx, fun i _ hw => exec_adpcmSetw_badWidth h i hw⟩

/-- Settles O20: an operation of the ADP unit looks at `Dir` before its other operands. -/
theorem wrongInstanceRefused : Obligations.WrongInstanceRefused := fun _ _ _ _ _ _ _ h =>
  ⟨State.whenOn_on h _, State.whenOn_on h _, State.whenOn_on h _, State.whenOn_on h _⟩

/-! ### The code of a sample (R162, R163) -/

/-- R163 with the number of decision levels at or below the logarithm. -/
theorem quantize_eq (w : CodeWidth) (neg : Prop) [Decidable neg] (dln : Int) :
    let k := (qTab w).countP fun t => decide (t ≤ dln)
    quantize w (if neg then 1 else 0) dln =
      if neg then 2 ^ w.bits - 1 - k else if k = 0 ∧ w ≠ .w2 then 2 ^ w.bits - 1 else k := by
  simp only [quantize, List.countP_eq_length_filter]
  by_cases hneg : neg
  · cases w <;> simp [hneg, CodeWidth.bits]
  · cases w <;> simp [hneg]

/-- R162, R163: the code of an encoded sample, from the exact difference and step size. -/
theorem Adp.encodeSample_code (a : Adp) (v : Sample) :
    let d : Int := v.toInt / 4 - a.se
    let e := Nat.log2 d.natAbs
    let dln : Int := 128 * e + (d.natAbs * 128 / 2 ^ e % 128 : Nat) - a.mixedStep / 4
    let k := (qTab a.w).countP fun t => decide (t ≤ dln)
    (a.encodeSample v).2 =
      if d < 0 then 2 ^ a.w.bits - 1 - k else if k = 0 ∧ a.w ≠ .w2 then 2 ^ a.w.bits - 1 else k := by
  intro d e dln k
  have hv := toInt16_range v
  have hse := a.se_range
  obtain ⟨hstep, hstepLt⟩ := a.stepY_eq
  have hdiff : (difference (pcm14 v) (fullEstimate a >>> 1) : Int) = d % 65536 :=
    difference_eq (v.toInt / 4) a (by omega) (by omega)
  obtain ⟨hlog, hsign⟩ := logDifference_eq d _ a.stepY hdiff (by omega) (by omega) hstepLt
  have hdln : logDifference (difference (pcm14 v) (fullEstimate a >>> 1)) a.stepY = dln := by
    rw [hlog, Int.natCast_ediv, hstep]
    rfl
  rw [← quantize_eq, ← hsign, ← hdln]
  rfl

/-! ### The leaks (R159, R170, R171) -/

/-- R164: the magnitude index of a code of `W` bits. -/
theorem magnitudeIndex_eq (w : CodeWidth) (c : Nat) (hc : c < 2 ^ w.bits) :
    magnitudeIndex w c = if 2 ^ (w.bits - 1) ≤ c then 2 ^ w.bits - 1 - c else c := by
  rw [magnitudeIndex, adpcmSign_eq w c hc]
  by_cases hneg : 2 ^ (w.bits - 1) ≤ c
  · rw [if_pos hneg, if_pos rfl, if_pos hneg]
  · rw [if_neg hneg, if_neg zero_ne_one, if_neg hneg]

/-- R178: the step size stays in the range of its two parts. -/
theorem Adp.stepY_range {a : Adp} (h : a.InRange) : 544 ≤ a.stepY ∧ a.stepY ≤ 5120 := by
  obtain ⟨_, _, _, _, hyu, hyu', hyl, hyl'⟩ := h
  exact (stepSize_eq a.ap.toNat a.yu.toNat a.yl.toNat ⟨hyu, hyu'⟩ hyl hyl').2

/-- R170, R171 as numbers: what the committed scale factor and speed registers hold. -/
theorem Adp.commit_leaks (a : Adp) (g : Signals) (h : a.InRange) (hy : 544 ≤ g.y ∧ g.y ≤ 5120) :
    ((a.commit g).yu.toNat : Int) = max 544 (min 5120 (g.y + (32 * (wTab a.w).getD g.mi 0 - g.y) / 32)) ∧
    ((a.commit g).yl.toNat : Int) = a.yl.toNat + (64 * ((a.commit g).yu.toNat : Int) - a.yl.toNat) / 64 ∧
    ((a.commit g).dms.toNat : Int) = a.dms.toNat + (512 * (((fTab a.w).getD g.mi 0 : Nat) : Int) - a.dms.toNat) / 32 ∧
    ((a.commit g).dml.toNat : Int) = a.dml.toNat + (2048 * (((fTab a.w).getD g.mi 0 : Nat) : Int) - a.dml.toNat) / 128 := by
  obtain ⟨_, _, _, _, _, _, hyl, hyl'⟩ := h
  have hf := fTab_range a.w g.mi
  have hyuRange := nextYu_range ((wTab a.w).getD g.mi 0) g.y
  have hylRange := nextYl_range _ a.yl.toNat hyuRange hyl hyl'
  have hyu : (a.commit g).yu.toNat = nextYu ((wTab a.w).getD g.mi 0) g.y :=
    (BitVec.toNat_ofNat ..).trans (Nat.mod_eq_of_lt (by omega))
  have hylNat : (a.commit g).yl.toNat = nextYl (nextYu ((wTab a.w).getD g.mi 0) g.y) a.yl.toNat :=
    (BitVec.toNat_ofNat ..).trans (Nat.mod_eq_of_lt (by omega))
  have hdms : (a.commit g).dms.toNat = nextDms ((fTab a.w).getD g.mi 0) a.dms.toNat :=
    (BitVec.toNat_ofNat ..).trans (Nat.mod_eq_of_lt (Nat.mod_lt _ (by decide)))
  have hdml : (a.commit g).dml.toNat = nextDml ((fTab a.w).getD g.mi 0) a.dml.toNat :=
    (BitVec.toNat_ofNat ..).trans (Nat.mod_eq_of_lt (Nat.mod_lt _ (by decide)))
  rw [hylNat, hyu, hdms, hdml]
  exact ⟨nextYu_eq _ _ (wTab_range ..) hy, nextYl_eq _ _ hyuRange hyl hyl', nextDms_eq _ _ hf a.dms.isLt,
    nextDml_eq _ _ hf a.dml.isLt⟩

/-! ### A decoded code (R164, R165, R174) -/

theorem truncN_lt (n : Nat) (v : Int) : truncN n v < 2 ^ n := by
  have hlt := Int.emod_lt_of_pos v (b := 2 ^ n) (by positivity)
  have hpos := Int.emod_nonneg v (b := 2 ^ n) (by positivity)
  unfold truncN
  zify
  omega

/-- A code of `W` bits is decoded by the step of its signals (R157, R174). -/
theorem Adp.decodeSample_of_lt (a : Adp) {c : Nat} (hc : c < 2 ^ a.w.bits) :
    a.decodeSample c = (a.commit (a.signals c), pcm16 (a.signals c).sr) := by
  simp only [Adp.decodeSample, Adp.step, Adp.codeOf, Nat.mod_eq_of_lt hc]

/-- R164 with the exact step size: the antilogarithm of the code's level plus a quarter of it. -/
theorem Adp.signals_dqmag {a : Adp} (h : a.InRange) (c : Nat) :
    let l := (dqlnTab a.w).getD (magnitudeIndex a.w c) 0 + a.mixedStep / 4
    (a.signals c).dqmag = if l < 0 then 0 else ((128 + l % 128) * 128 / 2 ^ (14 - (l / 128).toNat)).toNat := by
  intro l
  have hm := (differenceMagnitude_eq a.w c a.stepY (Adp.stepY_range h).2).1
  rw [Int.natCast_ediv, a.stepY_eq.1] at hm
  exact (congrArg Int.toNat hm).trans (apply_ite Int.toNat ..)

/-- R154: the sample of a 16-bit signal, from the number it stands for. -/
theorem pcm16_eq {n : Nat} {v : Int} (hn : n < 65536) (hv : v = if n < 32768 then (n : Int) else n - 65536) :
    pcm16 n = BitVec.ofInt 16 (4 * v) := by
  rw [pcm16, toInt_ofNat16 n hn, ← hv, mul_comm]

theorem bit_lt (P : Prop) [Decidable P] : (if P then 1 else 0) < 2 := by split <;> decide

theorem bit_eq_one_iff (P : Prop) [Decidable P] : (if P then 1 else 0) = 1 ↔ P := by simp

theorem ofNat_bit (P : Prop) [Decidable P] : BitVec.ofNat 1 (if P then 1 else 0) = if P then 1 else 0 := by
  split <;> rfl

/-- A flag written as a number and one held in a register are equal where the bits are (R167). -/
theorem eq_toNat_iff_ofNat_eq {n : Nat} (hn : n < 2) (q : BitVec 1) : n = q.toNat ↔ BitVec.ofNat 1 n = q := by
  rw [← BitVec.toNat_inj, BitVec.toNat_ofNat, Nat.mod_eq_of_lt hn]

/-- R169: whether the signs of the new difference and of an old one agree. -/
theorem signs_agree_iff (neg : Bool) (P : Prop) [Decidable P] : ((if neg then 1 else 0) = 1 ↔ P) ↔ neg = decide P := by
  cases neg <;> simp

/-! ### The obligations on one sample -/

/-- Settles O18: the code is the quantizer's, and decoding it takes the same step. -/
theorem encodeSampleCompletes : Obligations.EncodeSampleCompletes := by
  intro s v h w levels d e dln k c
  have hlevels : qTab s.adpTx.w = levels := by
    simp only [levels, w]
    cases s.adpTx.w <;> rfl
  have hcode : (s.adpTx.encodeSample v).2 = c := by
    rw [Adp.encodeSample_code, hlevels]
  have hlt : c < 2 ^ w.bits := hcode ▸ s.adpTx.encodeSample_lt v
  have hdec := exec_adpcmDec_code (s := { s with adpRx := s.adpTx }) h hlt
  rw [← hcode] at hdec ⊢
  simp only [Adp.decodeSample_encodeSample] at hdec
  exact ⟨s.adpTx.encodeSample_lt v, s.adpTx.encodeSample_ne_zero v, _, _, exec_adpcmEnc_on h v, hdec,
    Adp.commit_delays ..⟩

/-- Settles O21: decoding the code of an encoded sample leaves what encoding left. -/
theorem sampleLockStep : Obligations.SampleLockStep := by
  intro s v h heq
  have hlt : (s.adpTx.encodeSample v).2 < 2 ^ s.adpRx.w.bits := by
    rw [heq]
    exact s.adpTx.encodeSample_lt v
  have hsame : (s.adpRx.decodeSample (s.adpTx.encodeSample v).2).1 = (s.adpTx.encodeSample v).1 := by
    rw [heq]
    exact s.adpTx.decodeSample_encodeSample v
  have hdec := exec_adpcmDec_code (s := { s with adpTx := (s.adpTx.encodeSample v).1 }) h hlt
  simp only [hsame] at hdec
  exact ⟨_, _, _, exec_adpcmEnc_on h v, hdec⟩

/-- Settles O26: the registers committed for the code that the sample was given. -/
theorem scaleFactorAndSpeedMoveByLeaks : Obligations.ScaleFactorAndSpeedMoveByLeaks := by
  intro s t v c hr ht hcode a mi w f slow y
  obtain ⟨_, _, rfl⟩ := exec_adpcmEnc_next ht
  obtain rfl : (a.encodeSample v).2 = c := by simpa [State.give] using hcode
  have hmi : magnitudeIndex a.w (a.encodeSample v).2 = mi := by
    rw [magnitudeIndex_eq _ _ (a.encodeSample_lt v)]
    simp only [mi]
    split_ifs <;> omega
  have hstep : (a.stepY : Int) = y := a.stepY_eq.1
  have hleaks := a.commit_leaks (a.signals (a.encodeSample v).2) hr (Adp.stepY_range hr)
  rw [show (a.signals (a.encodeSample v).2).y = a.stepY from rfl, hstep,
    show (a.signals (a.encodeSample v).2).mi = mi from hmi] at hleaks
  exact hleaks

/-- Settles O19: the tables of the statement are the model's, each signal of the step is the number that the statement
gives it, and `Adp.commit_eq` says what the registers become for such signals. -/
theorem decodeSampleCompletes : Obligations.DecodeSampleCompletes := by
  intro s code h
  refine ⟨⟨_, _, exec_adpcmDec_on h code, Adp.commit_delays ..⟩, fun code' hcode => ?_, ?_⟩
  · rw [exec_adpcmDec_on h, exec_adpcmDec_on h, truncN, hcode, truncN]
  · intro hr r c neg mi entry level wi fi y l mag dq sr p pk e thr tr float f g2 g1 a2 a1 b tone dms dml ax yu
    have hc : c < 2 ^ r.w.bits := truncN_lt _ code
    let g := r.signals c
    have hstep : (g.y : Int) = y := r.stepY_eq.1
    have hfast : 1536 ≤ g.y ↔ 1536 ≤ y := by omega
    have hmi : g.mi = mi := by
      rw [show g.mi = magnitudeIndex r.w c from rfl, magnitudeIndex_eq _ _ hc]
      simp only [mi, neg, decide_eq_true_eq]
    have hlevel : (dqlnTab r.w).getD mi 0 = level := by
      simp only [level, entry]
      cases r.w <;> rfl
    have hwi : (wTab r.w).getD mi 0 = wi := by
      simp only [wi, entry]
      cases r.w <;> rfl
    have hfi : (((fTab r.w).getD mi 0 : Nat) : Int) = fi := by
      simp only [fi, entry]
      cases r.w <;> exact (List.getD_map ..).symm
    have hmag : g.dqmag = mag := by
      rw [Adp.signals_dqmag hr c, show magnitudeIndex r.w c = mi from hmi, hlevel]
    have hsign : g.dqs = if neg then 1 else 0 := by
      rw [show g.dqs = adpcmSign r.w c from rfl, adpcmSign_eq _ _ hc]
      simp only [neg, decide_eq_true_eq]
    have hdq : (if 2 ^ (r.w.bits - 1) ≤ c then -(g.dqmag : Int) else g.dqmag) = dq := by
      simp only [dq, neg, decide_eq_true_eq, hmag]
    have htr : g.tr = tr := by
      rw [show g.tr = transition g.dqmag r.yl.toNat r.td.toNat from rfl, transition_eq, hmag]
    obtain ⟨-, hsrLt, hsr, hpk, hsig⟩ := r.signals_eq c hc hr
    rw [hdq] at hsr hpk hsig
    change g.pk0 = if p < 0 then 1 else 0 at hpk
    change g.sigpk = if p = 0 then 1 else 0 at hsig
    have hpkLt : g.pk0 < 2 := hpk ▸ bit_lt _
    have hsignLt : g.dqs < 2 := hsign ▸ bit_lt _
    have hpkBit : BitVec.ofNat 1 g.pk0 = pk := by rw [hpk, ofNat_bit]
    have hpkEq (q : BitVec 1) : g.pk0 = q.toNat ↔ pk = q := hpkBit ▸ eq_toNat_iff_ofNat_eq hpkLt q
    have hsigEq : g.sigpk = 1 ↔ p = 0 := hsig ▸ bit_eq_one_iff _
    have hsignEq (q : BitVec 11) : (g.dqs = 1 ↔ 1024 ≤ q.toNat) ↔ neg = decide (1024 ≤ q.toNat) :=
      hsign ▸ signs_agree_iff neg _
    have hdqWord : BitVec.ofNat 11 (floatWord g.dqs mag) = float neg mag := floatWord_eq _ _ neg hsign
    have hsrWord : BitVec.ofNat 11 (floatSr g.sr) = float (decide (sr < 0)) (sr.natAbs % 32768) := by
      rw [floatSr_eq g.sr sr hsrLt hsr]
      exact floatWord_eq _ _ _ (by simp only [decide_eq_true_eq])
    have hax : ax = if 1536 ≤ y ∧ ((4 * dms - dml).natAbs : Int) < dml / 8 ∧ ¬ a2 < -11776 then 0 else 1 := by
      simp only [ax, tone, decide_eq_false_iff_not]
    have htd : (if tone && !tr then 1 else 0 : BitVec 1) = if ¬ a2 < -11776 ∨ tr then 0 else 1 := by
      simp only [tone]
      by_cases ha : a2 < -11776 <;> cases tr <;> simp [ha]
    have hcommit := r.commit_eq g hr (Adp.stepY_range hr) hpkLt hsignLt
    simp only [hsigEq, hpkEq, hsignEq, hmi, hwi, hfi, hmag, htr, hstep, hfast, hdqWord, hsrWord, hpkBit] at hcommit
    rw [exec_adpcmDec_on h, show truncN s.adpRx.w.bits code = c from rfl, Adp.decodeSample_of_lt _ hc, htd, hax]
    change (.next { s with adpRx := r.commit g, results := s.results ++ [.sample (pcm16 g.sr)] } : Answer) = _
    rw [hcommit, pcm16_eq hsrLt hsr]

/-! ### The codes in a byte list (R175, R176) -/

theorem unpackCodes_getElem? {w : CodeWidth} {b : List Byte} {off n k c : Nat} (h : (unpackCodes w b off n)[k]? = some c) :
    c = codeAt b (off + w.bits * k) w.bits := by
  simp only [unpackCodes, List.getElem?_map, Option.map_eq_some_iff] at h
  obtain ⟨_, hk, rfl⟩ := h
  obtain ⟨_, rfl⟩ := List.getElem?_eq_some_iff.1 hk
  rw [List.getElem_range]

theorem unpackCodes_lt (w : CodeWidth) (b : List Byte) (off n : Nat) : ∀ c ∈ unpackCodes w b off n, c < 2 ^ w.bits := by
  intro c hc
  obtain ⟨k, hk⟩ := List.mem_iff_getElem?.1 hc
  rw [unpackCodes_getElem? hk]
  exact codeAt_lt ..

/-- The bytes that a block is packed into hold its codes (R175). -/
theorem packCodes_fits (a : Adp) (x : List Sample) (b : List Byte) (off : Nat) (hoff : off ≤ 8 * b.length) :
    off + a.w.bits * x.length ≤ 8 * (packCodes a.w b off (a.encodeAll x).2).length := by
  rw [packCodes_length _ _ _ _ hoff, Adp.encodeAll_length]
  omega

/-- R177 for a block: decoding the codes read from the packed bytes leaves what encoding left. -/
theorem Adp.decodeAll_packed (a : Adp) (x : List Sample) (b : List Byte) (off : Nat) (hoff : off ≤ 8 * b.length) :
    (a.decodeAll (unpackCodes a.w (packCodes a.w b off (a.encodeAll x).2) off x.length)).1 = (a.encodeAll x).1 := by
  have hread := unpackCodes_packCodes a.w b off _ hoff (a.encodeAll_lt x)
  rw [Adp.encodeAll_length] at hread
  rw [hread, Adp.decodeAll_encodeAll]

/-! ### The obligations on a block -/

/-- Settles O22: the packed codes are read back as they were, and decoding them leaves what encoding left. -/
theorem blockLockStep : Obligations.BlockLockStep := by
  intro s x b off h heq hoff
  let y := packCodes s.adpTx.w b off (s.adpTx.encodeAll x).2
  have hfit : off + s.adpRx.w.bits * x.length ≤ 8 * y.length := by
    rw [heq]
    exact packCodes_fits s.adpTx x b off hoff
  have hsame : (s.adpRx.decodeAll (unpackCodes s.adpRx.w y off x.length)).1 = (s.adpTx.encodeAll x).1 := by
    rw [heq]
    exact s.adpTx.decodeAll_packed x b off hoff
  have hdec := exec_adpcmDecBuf_on (s := { s with adpTx := (s.adpTx.encodeAll x).1 }) h (Int.natCast_nonneg off)
    (Int.natCast_nonneg x.length) (by exact_mod_cast hfit)
  simp only [Int.toNat_natCast, hsame] at hdec
  refine ⟨_, y, _, exec_adpcmEncBuf_on h x (Int.natCast_nonneg off) (by exact_mod_cast hoff), hdec, ?_⟩
  rw [Adp.decodeAll_length, unpackCodes_length]

/-- Settles O23: the codes are those of the samples one after another, and each stream bit of the packed bytes is one
of the three parts' (R175). -/
theorem encodeBufferPacksCodes : Obligations.EncodeBufferPacksCodes := by
  intro s x b off h
  refine ⟨fun hlo hhi => ?_, exec_adpcmEncBuf_badOffset h x⟩
  have hoff : off.toNat ≤ 8 * b.length := by omega
  have hlen : (s.adpTx.encodeAll x).2.length = x.length := Adp.encodeAll_length ..
  refine ⟨_, _, _, runOps_adpcmEnc x s h, hlen, exec_adpcmEncBuf_on h x hlo hhi, ?_,
    streamBit_packCodes_lt _ b _ _ hoff, fun k c hc j hj => ?_, fun p hp => ?_⟩
  · rw [packCodes_length _ _ _ _ hoff, hlen]
  · rw [streamBit_packCodes_code _ b _ _ hoff k j hj, List.getD_eq_getElem?_getD, hc, Option.getD_some]
  · exact streamBit_packCodes_ge _ b _ _ hoff p (by rwa [hlen])

/-- Settles O24: the codes read from the bytes, decoded one after another. -/
theorem decodeBufferUnpacksCodes : Obligations.DecodeBufferUnpacksCodes := by
  intro s b off n h
  refine ⟨fun hoff hn hfit => ?_, exec_adpcmDecBuf_badRange h⟩
  have hlt := unpackCodes_lt s.adpRx.w b off.toNat n.toNat
  refine ⟨unpackCodes s.adpRx.w b off.toNat n.toNat, _, _, unpackCodes_length .., fun k c hc => ⟨?_, fun j hj => ?_⟩,
    runOps_adpcmDec _ s h hlt, ?_, exec_adpcmDecBuf_on h hoff hn hfit⟩
  · exact hlt c (List.mem_of_getElem? hc)
  · rw [unpackCodes_getElem? hc, codeAt_testBit, decide_eq_true hj, Bool.true_and]
  · rw [Adp.decodeAll_length, unpackCodes_length]

end Sys2Proof.Machine
end

section
/-! The rate converter (spec/42_rate_converter.md): what its operations answer when the block is on; a stage on one input
as the filter sums over its newest inputs (R204, R206); the two cascades on one period of their input and on a constant. -/

namespace Sys2Proof.Machine

/-! ### What the operations answer -/

section Answers

variable {s : State}

theorem exec_interp6_on (h : s.poweredOn = true) (x : List Sample) :
    exec (.interp6 x) s =
      .next { s with
        rcUp := (interpAll s.cfg s.rcUp x).2, results := s.results ++ [.samples (interpAll s.cfg s.rcUp x).1] } :=
  State.whenOn_on h _

theorem exec_decim6_on (h : s.poweredOn = true) {x : List Sample} (hx : x.length % 6 = 0) :
    exec (.decim6 x) s =
      .next { s with
        rcDn := (decimAll s.cfg s.rcDn x).2, results := s.results ++ [.samples (decimAll s.cfg s.rcDn x).1] } :=
  (State.whenOn_on h _).trans (if_pos hx)

theorem exec_decim6_badLength (h : s.poweredOn = true) {x : List Sample} (hx : x.length % 6 ≠ 0) :
    exec (.decim6 x) s = .refused .badLength :=
  (State.whenOn_on h _).trans (if_neg hx)

end Answers

/-! ### The obligations on lengths and cuts -/

/-- Settles O27: each input gives six samples, whatever the queues hold. -/
theorem interpolationGivesSixfold : Obligations.InterpolationGivesSixfold := fun s x h =>
  ⟨_, _, exec_interp6_on h x, interpAll_length s.cfg s.rcUp x⟩

/-- Settles O28: the phases count the inputs modulo 6, and a sample comes each time the count returns to 0. -/
theorem decimationGivesOneForSix : Obligations.DecimationGivesOneForSix := fun s x h =>
  ⟨fun hx h2 h3 => ⟨_, _, exec_decim6_on h hx, decimAll_length s.cfg s.rcDn x h2 h3 hx⟩, exec_decim6_badLength h⟩

/-- Settles O31: both cascades take their samples one after another, the queues carried along. -/
theorem blockCutsDoNotMatter : Obligations.BlockCutsDoNotMatter := by
  intro s x y h
  constructor
  · refine ⟨_, _, _, _, exec_interp6_on h x,
      exec_interp6_on (s := s.setRcUp (interpAll s.cfg s.rcUp x).2) h y, ?_⟩
    rw [exec_interp6_on h, interpAll_append]
    rfl
  · intro hx hy
    have hxy : (x ++ y).length % 6 = 0 := by
      rw [List.length_append]
      omega
    refine ⟨_, _, _, _, exec_decim6_on h hx,
      exec_decim6_on (s := s.setRcDn (decimAll s.cfg s.rcDn x).2) h hy, ?_⟩
    rw [exec_decim6_on h hxy, decimAll_append]
    rfl

/-! ### The newest inputs

A stage puts its input in front of a queue that it cuts to a fixed length. The rules below write its queue as the newest
inputs `(x :: q).take k` and its outputs as sums over the uncut `x :: q`; `take_cons_take` and `firOut_cons_take` keep
that form when the queue was itself cut. -/

theorem take_cons_take (x : Sample) (q : List Sample) (k : Nat) : (x :: q.take k).take k = (x :: q).take k := by
  cases k with
  | zero => rfl
  | succ k => simp [List.take_take]

/-- A queue cut to the taps' number holds every input that the filter reads. -/
theorem firOut_cons_take (taps : List Int) (x : Sample) (q : List Sample) (n : Int) {k : Nat} (hk : taps.length ≤ k) :
    firOut taps (x :: q.take k) n = firOut taps (x :: q) n :=
  firOut_take taps (x :: q) n (k + 1) (by omega)

theorem firOut_branch_cons_take (h : List Int) (l p : Nat) (x : Sample) (q : List Sample) (n : Int) :
    firOut (branch h l p) (x :: q.take ((h.length + l - 1) / l)) n = firOut (branch h l p) (x :: q) n :=
  firOut_cons_take _ x q n (branch_length h l p).le

/-- An interpolating stage on one input (R204). -/
theorem istage_eq {l : Nat} {h : List Int} (hl : 0 < l) (hh : 0 < h.length) (n : Int) (q : List Sample) (x : Sample) :
    istage l h n q x =
      ((List.range l).map fun p => firOut (branch h l p) (x :: q) n, (x :: q).take ((h.length + l - 1) / l)) := by
  have hk : 0 < (h.length + l - 1) / l := Nat.div_pos (by omega) hl
  simp only [istage, ← List.take_cons hk, firOut_take _ (x :: q) n _ (branch_length h l _).le]

/-- A decimating stage on an input that does not complete its group (R206). -/
theorem dstage_of_ne {m : Nat} {h : List Int} {ph : Nat} (hh : 0 < h.length) (hp : ph + 1 ≠ m) (n : Int)
    (q : List Sample) (x : Sample) : dstage m h n q ph x = (none, (x :: q).take h.length, ph + 1) := by
  simp only [dstage, ← List.take_cons hh, if_neg hp]

/-- A decimating stage on the last input of its group (R206). -/
theorem dstage_of_eq {m : Nat} {h : List Int} {ph : Nat} (hh : 0 < h.length) (hp : ph + 1 = m) (n : Int)
    (q : List Sample) (x : Sample) :
    dstage m h n q ph x = (some (firOut h (x :: q) n), (x :: q).take h.length, 0) := by
  simp only [dstage, ← List.take_cons hh, if_pos hp, firOut_take h (x :: q) n _ le_rfl]

/-! ### One input of `INTERP6` (R205) -/

/-- An interpolating stage on two inputs one after another. -/
theorem istageAll_two {l : Nat} {h : List Int} (hl : 0 < l) (hh : 0 < h.length) (n : Int) (q : List Sample)
    (x y : Sample) :
    istageAll l h n q [x, y] =
      ((List.range l).map (fun p => firOut (branch h l p) (x :: q) n) ++
          (List.range l).map (fun p => firOut (branch h l p) (y :: x :: q) n),
        (y :: x :: q).take ((h.length + l - 1) / l)) := by
  simp only [istageAll, istage_eq hl hh, firOut_branch_cons_take, take_cons_take, List.append_nil]

/-- Settles O29: stage U3 takes the two outputs of stage U2 one after another, and each output is a sum over a branch of
the taps. -/
theorem interpolationOfOneSample : Obligations.InterpolationOfOneSample := by
  intro s x hp h2 h3 fir q2 u q3 y
  have hfir2 (p : Nat) (q : List Sample) : firOut (branch s.cfg.h2 2 p) q s.cfg.n2i = fir s.cfg.h2 2 p s.cfg.n2i q :=
    firOut_branch _ 2 p two_pos _ q
  have hfir3 (p : Nat) (q : List Sample) : firOut (branch s.cfg.h3 3 p) q s.cfg.n3i = y p q :=
    firOut_branch _ 3 p three_pos _ q
  have hU2 : istage 2 s.cfg.h2 s.cfg.n2i s.rcUp.d2 x = ([u 0, u 1], q2.take s.cfg.k2) := by
    simp only [istage_eq two_pos h2, hfir2]
    rfl
  have hU3 : istageAll 3 s.cfg.h3 s.cfg.n3i s.rcUp.d3 [u 0, u 1] =
      ([y 0 q3, y 1 q3, y 2 q3, y 0 (u 1 :: q3), y 1 (u 1 :: q3), y 2 (u 1 :: q3)], (u 1 :: q3).take s.cfg.k3) := by
    simp only [istageAll_two three_pos h3, hfir3]
    rfl
  rw [exec_interp6_on hp]
  simp only [interpAll, interpOne, hU2, hU3, List.append_nil]

/-! ### Six inputs of `DECIM6` (R207) -/

section Inputs

variable {c : Config}

theorem RcDn.eq_of_phases {d : RcDn} {p2 p3 : Nat} (h2 : d.ph2 = p2) (h3 : d.ph3 = p3) : d = ⟨d.d2, d.d3, p2, p3⟩ := by
  subst h2 h3
  rfl

/-- An odd input waits in stage D2. -/
theorem decimOne_odd (h2 : 0 < c.h2.length) (q2 q3 : List Sample) (p : Nat) (x : Sample) :
    decimOne c ⟨q2, q3, 0, p⟩ x = ([], ⟨(x :: q2).take c.h2.length, q3, 1, p⟩) := by
  simp only [decimOne, dstage_of_ne h2 (show 0 + 1 ≠ 2 by decide)]

/-- An even input completes a pair, whose output waits in stage D3. -/
theorem decimOne_even (h2 : 0 < c.h2.length) (h3 : 0 < c.h3.length) (q2 q3 : List Sample) {p : Nat} (hp : p + 1 ≠ 3)
    (x : Sample) :
    decimOne c ⟨q2, q3, 1, p⟩ x =
      ([], ⟨(x :: q2).take c.h2.length, (firOut c.h2 (x :: q2) c.n2d :: q3).take c.h3.length, 0, p + 1⟩) := by
  simp only [decimOne, dstage_of_eq h2 (show 1 + 1 = 2 from rfl), dstage_of_ne h3 hp, Option.toList_none]

/-- The sixth input completes a pair whose output completes a group of stage D3. -/
theorem decimOne_sixth (h2 : 0 < c.h2.length) (h3 : 0 < c.h3.length) (q2 q3 : List Sample) (x : Sample) :
    decimOne c ⟨q2, q3, 1, 2⟩ x =
      ([firOut c.h3 (firOut c.h2 (x :: q2) c.n2d :: q3) c.n3d],
        ⟨(x :: q2).take c.h2.length, (firOut c.h2 (x :: q2) c.n2d :: q3).take c.h3.length, 0, 0⟩) := by
  simp only [decimOne, dstage_of_eq h2 (show 1 + 1 = 2 from rfl), dstage_of_eq h3 (show 2 + 1 = 3 from rfl),
    Option.toList_some]

end Inputs

/-- Settles O30: the inputs are three pairs, and the third pair's output completes a group of stage D3. -/
theorem decimationOfSixSamples : Obligations.DecimationOfSixSamples := by
  intro s a b c d e f hp h2 h3 hph2 hph3 fir q2 q4 q6 q3
  have hfir (h : List Int) (n : Int) (q : List Sample) : firOut h q n = fir h n q := firOut_eq_sum h q n
  have hd : s.rcDn = ⟨s.rcDn.d2, s.rcDn.d3, 0, 0⟩ := RcDn.eq_of_phases hph2 hph3
  have hall : decimAll s.cfg s.rcDn [a, b, c, d, e, f] =
      ([fir s.cfg.h3 s.cfg.n3d q3], ⟨q6.take s.cfg.h2.length, q3.take s.cfg.h3.length, 0, 0⟩) := by
    rw [hd]
    simp only [decimAll, decimOne_odd h2, decimOne_even h2 h3 _ _ (show 0 + 1 ≠ 3 by decide),
      decimOne_even h2 h3 _ _ (show 1 + 1 ≠ 3 by decide), decimOne_sixth h2 h3,
      firOut_cons_take _ _ _ _ le_rfl, take_cons_take, hfir, List.nil_append, List.append_nil]
    rfl
  have hlen : [a, b, c, d, e, f].length % 6 = 0 := Nat.mod_self 6
  rw [exec_decim6_on hp hlen, hall]

/-! ### A constant in full queues (R210 (a)) -/

section Constant

variable {c : Config} (h2 : tapsOk c.h2 2 c.n2i c.n2d) (h3 : tapsOk c.h3 3 c.n3i c.n3d) (v : Sample)
include h2 h3

theorem interpOne_const :
    interpOne c ⟨List.replicate c.k2 v, List.replicate c.k3 v⟩ v =
      (List.replicate 6 v, ⟨List.replicate c.k2 v, List.replicate c.k3 v⟩) := by
  have hU2 : istage 2 c.h2 c.n2i (List.replicate c.k2 v) v = (List.replicate 2 v, List.replicate c.k2 v) :=
    istage_const v two_pos h2
  have hU3 : istageAll 3 c.h3 c.n3i (List.replicate c.k3 v) (List.replicate 2 v) =
      (List.replicate 6 v, List.replicate c.k3 v) := istageAll_const v three_pos h3 2
  simp only [interpOne, hU2, hU3]

theorem interpAll_const (n : Nat) :
    interpAll c ⟨List.replicate c.k2 v, List.replicate c.k3 v⟩ (List.replicate n v) =
      (List.replicate (6 * n) v, ⟨List.replicate c.k2 v, List.replicate c.k3 v⟩) := by
  induction n with
  | zero => rfl
  | succ n ih =>
    simp only [List.replicate_succ (n := n), interpAll, interpOne_const h2 h3 v, ih]
    rw [List.replicate_append_replicate, Nat.mul_succ, Nat.add_comm]

theorem decimAll_const_six :
    decimAll c ⟨List.replicate c.h2.length v, List.replicate c.h3.length v, 0, 0⟩ (List.replicate 6 v) =
      ([v], ⟨List.replicate c.h2.length v, List.replicate c.h3.length v, 0, 0⟩) := by
  rw [show List.replicate 6 v = [v, v, v, v, v, v] from rfl]
  simp [decimAll, decimOne_const v h2 h3]

theorem decimAll_const (n : Nat) :
    decimAll c ⟨List.replicate c.h2.length v, List.replicate c.h3.length v, 0, 0⟩ (List.replicate (6 * n) v) =
      (List.replicate n v, ⟨List.replicate c.h2.length v, List.replicate c.h3.length v, 0, 0⟩) := by
  induction n with
  | zero => rfl
  | succ n ih =>
    rw [Nat.mul_succ, Nat.add_comm, ← List.replicate_append_replicate, decimAll_append, decimAll_const_six h2 h3 v, ih]
    rfl

end Constant

/-- Settles O32: a filter whose taps sum to its normaliser gives the constant, and the queues hold it before and after. -/
theorem constantInputReproduced : Obligations.ConstantInputReproduced := by
  intro s c n hp hadm
  obtain ⟨h2, h3, _⟩ := hadm
  constructor
  · intro hu
    rw [exec_interp6_on hp, hu, interpAll_const h2 h3 c n, ← hu]
  · intro hd
    have hlen : (List.replicate (6 * n) c).length % 6 = 0 := by
      rw [List.length_replicate, Nat.mul_mod_right]
    rw [exec_decim6_on hp hlen, hd, decimAll_const h2 h3 c n, ← hd]

end Sys2Proof.Machine
end

section
/-! The jitter buffer (spec/43_jitter_buffer.md): what its operations answer when the block is on; one pushed and one
pulled sample case by case (R222 to R226). -/

namespace Sys2Proof.Machine

/-! ### What the operations answer -/

section Answers

variable {s : State}

theorem exec_jbPush_on (h : s.poweredOn = true) (x : List Sample) :
    exec (.jbPush x) s =
      .next { s with
        jb := (s.jb.push s.cfg.capacity x).1, log := s.log ++ (s.jb.push s.cfg.capacity x).2
        results := s.results ++ [.unit] } :=
  State.whenOn_on h _

theorem exec_jbPull_on (h : s.poweredOn = true) {n : Int} (hn : 0 ≤ n) {y : List Sample} {j : Jb} {es : List Event}
    (hpull : s.jb.pull s.cfg.capacity s.cfg.driftGain n.toNat = (y, j, es)) :
    exec (.jbPull n) s =
      .next { s with jb := j, log := s.log ++ es, results := s.results ++ [.samples y] } := by
  refine (State.whenOn_on h _).trans ((if_neg (not_lt.2 hn)).trans ?_)
  rw [hpull]
  rfl

theorem exec_jbPull_negative (h : s.poweredOn = true) {n : Int} (hn : n < 0) :
    exec (.jbPull n) s = .refused .negativeCount :=
  (State.whenOn_on h _).trans (if_pos hn)

end Answers

/-! ### Any block -/

/-- Settles O34: a block is pushed sample by sample; every sample keeps the ring's form and refines the queue, and one of
them at most ends start-up. -/
theorem pushRefinesAQueue : Obligations.PushRefinesAQueue := by
  intro s x hp hc hj half
  obtain ⟨hwf, hqueue, hhead, hbuf, hunder, hover, hev⟩ := Jb.push_spec s.cfg.capacity s.jb x hc hj
  obtain ⟨hlevel, hdrift, hrun, hstay, hend⟩ := Jb.push_startup s.cfg.capacity s.jb x hc hj
  have hcount : (s.jb.push s.cfg.capacity x).2.length = (s.jb.push s.cfg.capacity x).1.overruns - s.jb.overruns := by
    omega
  rw [hcount] at hev hlevel
  exact ⟨_, _, exec_jbPush_on hp x, hqueue, hwf, hhead, hbuf, hev, by omega, hlevel, hunder, hdrift, hstay, hend, hrun⟩

/-! ### One pushed sample (R222 to R224) -/

section PushOne

variable {c : Nat} {j : Jb} (x : Sample)

/-- The registers after the write at HEAD, before the tests of R222. -/
def Jb.write (c : Nat) (j : Jb) (x : Sample) : Jb :=
  { j with buf := j.buf.set j.head x, head := (j.head + 1) % c, level := j.level + 1 }

/-- The half that an overrun leaves does not pass the start-up test (R222, R223). -/
theorem Jb.pushOne_full (hl : j.level + 1 = c) : j.pushOne c x = ((j.write c x).overrun c, [.overrun]) := by
  simp [Jb.pushOne, Jb.write, hl, Jb.overrun, startupEnds]

theorem Jb.pushOne_arm (hl : j.level + 1 ≠ c) (hend : startupEnds c j.startup (j.level + 1) = true) :
    j.pushOne c x = ((j.write c x).arm c, []) := by
  simp [Jb.pushOne, Jb.write, hl, hend]

theorem Jb.pushOne_write (hl : j.level + 1 ≠ c) (hend : startupEnds c j.startup (j.level + 1) = false) :
    j.pushOne c x = (j.write c x, []) := by
  simp [Jb.pushOne, Jb.write, hl, hend]

/-- AVG moves once after the only sample of a block (R222). -/
theorem Jb.push_singleton : j.push c [x] = ((j.pushOne c x).1.smooth, (j.pushOne c x).2) := by
  simp only [Jb.push, Jb.pushAll, List.append_nil]

end PushOne

/-- Smoothing writes AVG, as `Jb.smooth_avg` says, and nothing else. -/
theorem Jb.smooth_eq_ite (j : Jb) :
    j.smooth = { j with avg := if j.startup then j.avg else j.avg + 1 / 50 * ((j.level : Rat) - j.avg) } := by
  obtain ⟨v, hv⟩ := j.smooth_eq
  rw [← Jb.smooth_avg, hv]

theorem Jb.smooth_of_startup {j : Jb} (h : j.startup = true) : j.smooth = j := by
  rw [Jb.smooth_eq_ite, if_pos h]

theorem Jb.smooth_of_running {j : Jb} (h : j.startup = false) :
    j.smooth = { j with avg := j.avg + 1 / 50 * ((j.level : Rat) - j.avg) } := by
  rw [Jb.smooth_eq_ite, if_neg (Bool.eq_false_iff.1 h)]

/-- Settles O33, by the outcome of the two tests that follow the write. -/
theorem pushOneSample : Obligations.PushOneSample := by
  intro s x hp j c written half level
  rw [exec_jbPush_on hp, Jb.push_singleton]
  refine ⟨fun hl => ?_, fun hl hst hh => ?_, fun hl hst hh => ?_, fun hl hst => ?_⟩
  · rw [Jb.pushOne_full x hl, Jb.smooth_eq_ite]
    rfl
  · have hend : startupEnds c j.startup (j.level + 1) = true := by
      simp only [startupEnds, hst, hh, decide_true, Bool.and_self]
    rw [Jb.pushOne_arm x hl hend, Jb.smooth_of_running rfl, List.append_nil]
    rfl
  · have hend : startupEnds c j.startup (j.level + 1) = false := by
      simp only [startupEnds, gt_iff_lt, not_lt.2 hh, decide_false, Bool.and_false]
    rw [Jb.pushOne_write x hl hend, Jb.smooth_of_startup (j := j.write c x) hst, List.append_nil]
    rfl
  · have hend : startupEnds c j.startup (j.level + 1) = false := by simp only [startupEnds, hst, Bool.false_and]
    rw [Jb.pushOne_write x hl hend, Jb.smooth_of_running (j := j.write c x) hst, List.append_nil]
    rfl

/-! ### Any count of pulled samples (R225, R228) -/

/-- Settles O35: the samples are pulled one after another, the registers carried along. -/
theorem pullDeliversTheOldestSamples : Obligations.PullDeliversTheOldestSamples := by
  constructor
  · intro s n hp
    constructor
    · intro hn
      obtain ⟨hlen, hbuf, hhead, _⟩ := Jb.pull_frame s.cfg.capacity s.cfg.driftGain n.toNat s.jb
      refine ⟨_, _, _, exec_jbPull_on hp hn rfl, hlen, hbuf, hhead, fun hst ht hl => ?_⟩
      exact Jb.pull_queue s.cfg.capacity s.cfg.driftGain n.toNat s.jb ht hst (Int.toNat_le.2 hl)
    · exact exec_jbPull_negative hp
  · intro s m n hp
    constructor
    · rw [exec_jbPull_on hp le_rfl rfl, List.append_nil]
    · rcases hm : s.jb.pull s.cfg.capacity s.cfg.driftGain m with ⟨y, j, ds⟩
      rcases hn : j.pull s.cfg.capacity s.cfg.driftGain n with ⟨z, k, es⟩
      have hmn : s.jb.pull s.cfg.capacity s.cfg.driftGain (m + n) = (y ++ z, k, ds ++ es) := by
        rw [Jb.pull_add, hm, hn]
      refine ⟨j, k, ds, es, y, z, exec_jbPull_on hp (Int.natCast_nonneg m) hm,
        exec_jbPull_on (s := (s.setJb j).raiseAll ds) hp (Int.natCast_nonneg n) hn, ?_⟩
      rw [← Nat.cast_add, exec_jbPull_on hp (Int.natCast_nonneg _) hmn, List.append_assoc]

/-- Settles O36: a pull in start-up leaves the registers as they are. -/
theorem startupGivesSilence : Obligations.StartupGivesSilence := by
  intro s n hp hst
  rw [exec_jbPull_on hp (Int.natCast_nonneg n) (Jb.pull_startup _ _ n _ hst), List.append_nil]

/-! ### One pulled sample (R225, R226) -/

section PullOne

variable {c : Nat} {gain : Rat} {j : Jb}

theorem Jb.pull_one {y : Sample} {k : Jb} {es : List Event} (h : j.pullOne c gain = (y, k, es)) :
    j.pull c gain 1 = ([y], k, es) := by
  simp only [Jb.pull, h, List.append_nil]

theorem Jb.pullOne_empty (hst : j.startup = false) (hl : j.level = 0) :
    j.pullOne c gain = (0, (j.underrun c).countConsumed c gain, [.underrun]) := by
  simp only [Jb.pullOne, hst, hl, Bool.false_eq_true, if_false, if_true]

/-- The registers after the oldest queued sample has left. -/
def Jb.dropOldest (c : Nat) (j : Jb) : Jb := { j with tail := (j.tail + 1) % c, level := j.level - 1 }

theorem Jb.pullOne_queued (hst : j.startup = false) (hl : 0 < j.level) :
    j.pullOne c gain = (j.buf.getD j.tail 0, (j.dropOldest c).countConsumed c gain, []) := by
  simp only [Jb.pullOne, Jb.dropOldest, hst, hl.ne', Bool.false_eq_true, if_false]

/-- The last sample of a period computes DRIFT (R226). -/
theorem Jb.countConsumed_last (h : j.consumed = 47999) :
    j.countConsumed c gain = { j with consumed := 0, drift := (j.avg - ((c / 2 : Nat) : Rat)) * gain } := by
  simp [Jb.countConsumed, h, driftPeriod, Jb.computeDrift]

theorem Jb.countConsumed_of_ne (h : j.consumed ≠ 47999) :
    j.countConsumed c gain = { j with consumed := j.consumed + 1 } := by
  simp [Jb.countConsumed, h, driftPeriod]

theorem Jb.countConsumed_eq_ite :
    j.countConsumed c gain =
      { j with
        consumed := if j.consumed = 47999 then 0 else j.consumed + 1
        drift := if j.consumed = 47999 then (j.avg - ((c / 2 : Nat) : Rat)) * gain else j.drift } := by
  by_cases h : j.consumed = 47999
  · rw [Jb.countConsumed_last h, if_pos h, if_pos h]
  · rw [Jb.countConsumed_of_ne h, if_neg h, if_neg h]

/-- The ring from TAIL after an underrun: half of it further on stands the old TAIL (R225). -/
theorem ring_rewind_half {a : Nat} (ha : a < c) : ((a + (c - c / 2)) % c + c / 2) % c = a := by
  rw [Nat.mod_add_mod, show a + (c - c / 2) + c / 2 = a + c by omega, Nat.add_mod_right, Nat.mod_eq_of_lt ha]

end PullOne

/-- Settles O37: the capacity is even, so half of it back is half of it forth. -/
theorem underrunReplaysHalfABuffer : Obligations.UnderrunReplaysHalfABuffer := by
  intro s hp hc hj hst hl half j
  obtain ⟨heven, _⟩ := hc
  obtain ⟨_, _, htail, _⟩ := hj
  refine ⟨?_, ring_rewind_half htail, ?_⟩
  · rw [exec_jbPull_on hp Int.one_nonneg (Jb.pull_one (Jb.pullOne_empty hst hl)), Jb.countConsumed_eq_ite]
    rfl
  · have hhalf : s.cfg.capacity - half = half := by omega
    simp only [Jb.queue, j, hhalf, Nat.mod_add_mod]

/-- Settles O38: a pulled sample moves TAIL and the level, then it is counted. -/
theorem driftEvery48000Samples : Obligations.DriftEvery48000Samples := by
  intro s hp hst hl
  rw [exec_jbPull_on hp Int.one_nonneg (Jb.pull_one (Jb.pullOne_queued hst hl)), List.append_nil]
  constructor
  · intro hlast
    rw [Jb.countConsumed_last (j := s.jb.dropOldest s.cfg.capacity) hlast]
    rfl
  · intro hearly
    rw [Jb.countConsumed_of_ne (j := s.jb.dropOldest s.cfg.capacity) hearly.ne]
    rfl

end Sys2Proof.Machine
end

section
/-! The message framer (spec/44_message_framer.md): one fed byte in each state of the framer (R241 to R245), the encoder's
layout and refusals (R247), and the framer as the encoder's inverse on one message and on a stream (R248). -/

namespace Sys2Proof.Machine

/-! ### The fields of the header word and of a message (R94, R95) -/

theorem kindField_eq (hdr : Nat) : kindField hdr = BitVec.ofNat 3 (hdr / 8192) := by
  rw [kindField, Nat.shiftRight_eq_div_pow]

theorem framingViolates_iff (maxLen len : Nat) :
    framingViolates maxLen len = true ↔ len = 1 ∨ len = 3 ∨ len > maxLen := by
  simp only [framingViolates, Bool.or_eq_true, decide_eq_true_eq, or_assoc]

theorem itemOf_cons (h0 h1 i0 i1 : Byte) (p : List Byte) : itemOf (h0 :: h1 :: i0 :: i1 :: p) = i1 ++ i0 := by
  apply BitVec.eq_of_toNat_eq
  have hlo := i0.isLt
  have hhi := i1.isLt
  have happ : (i1 ++ i0).toNat = 256 * i1.toNat + i0.toNat := by
    rw [BitVec.toNat_append, ← Nat.shiftLeft_add_eq_or_of_lt hlo, Nat.shiftLeft_eq, Nat.mul_comm]
  have hread : memRead (h0 :: h1 :: i0 :: i1 :: p) 2 2 = i0.toNat + 256 * i1.toNat := rfl
  rw [itemOf, BitVec.toNat_ofNat, hread, happ]
  omega

theorem payloadOf_cons (h0 h1 i0 i1 : Byte) (p : List Byte) :
    payloadOf (h0 :: h1 :: i0 :: i1 :: p) (4 + p.length) = p := by
  rw [payloadOf, List.take_of_length_le (by simp only [List.length_cons]; omega)]
  rfl

/-! ### One fed byte in each state of the framer (R241 to R245) -/

section Feed

variable {maxLen len : Nat} {m : Mf}

theorem Mf.feed_header1 (b : Byte) (hs : m.state = .awaitHeader1) :
    m.feed maxLen b = ({ m with hdrLo := b, buf := [b], idx := 1, state := .awaitHeader2 }, none, []) := by
  simp only [Mf.feed, hs, Mf.feedHeader1]

/-- A violation keeps the length register and the state (R244). -/
theorem Mf.feed_header2_violation {b : Byte} (hs : m.state = .awaitHeader2)
    (hlen : declaredLength (lenField (headerWord m.hdrLo b)) = len) (hv : framingViolates maxLen len = true) :
    m.feed maxLen b =
      ({ m with kind := kindField (headerWord m.hdrLo b), buf := m.buf ++ [b], idx := 2, fault := true }, none,
        [.framingViolation len]) := by
  simp only [Mf.feed, hs, Mf.feedHeader2, hlen, hv, if_true]

theorem Mf.feed_header2_itemless {b : Byte} (hs : m.state = .awaitHeader2)
    (hlen : declaredLength (lenField (headerWord m.hdrLo b)) = 2) (hv : framingViolates maxLen 2 = false) :
    m.feed maxLen b =
      ({ m with kind := kindField (headerWord m.hdrLo b), buf := [], idx := 0, len := 2, state := .awaitHeader1 },
        some ⟨kindField (headerWord m.hdrLo b), none, []⟩, []) := by
  simp only [Mf.feed, hs, Mf.feedHeader2, hlen, hv, Bool.false_eq_true, if_false, if_true]

theorem Mf.feed_header2_body {b : Byte} (hs : m.state = .awaitHeader2)
    (hlen : declaredLength (lenField (headerWord m.hdrLo b)) = len) (hv : framingViolates maxLen len = false)
    (h2 : len ≠ 2) :
    m.feed maxLen b =
      ({ m with
          kind := kindField (headerWord m.hdrLo b), buf := m.buf ++ [b], idx := 2, len := len, state := .awaitBody },
        none, []) := by
  simp only [Mf.feed, hs, Mf.feedHeader2, hlen, hv, h2, Bool.false_eq_true, if_false]

theorem Mf.feed_body_more (b : Byte) (hs : m.state = .awaitBody) (hi : m.idx + 1 ≠ m.len) :
    m.feed maxLen b = ({ m with buf := m.buf ++ [b], idx := m.idx + 1 }, none, []) := by
  simp only [Mf.feed, hs, Mf.feedBody, hi, if_false]

theorem Mf.feed_body_last (b : Byte) (hs : m.state = .awaitBody) (hi : m.idx + 1 = m.len) :
    m.feed maxLen b =
      ({ m with state := .awaitHeader1, buf := [], idx := 0 },
        some ⟨m.kind, some (itemOf (m.buf ++ [b])), payloadOf (m.buf ++ [b]) m.len⟩, []) := by
  simp only [Mf.feed, hs, Mf.feedBody, hi, if_true]

end Feed

/-- Settles O39, by the framer's state and, for the second byte, by the declared length. -/
theorem feedHeaderBytes : Obligations.FeedHeaderBytes := by
  intro s b hp hf
  constructor
  · intro hs
    exact exec_mfFeed_of hp hf (Mf.feed_header1 b hs)
  · intro hs hdr len kind
    have hword : headerWord s.mf.hdrLo b = hdr := headerWord_eq _ _
    have hkind : kindField (headerWord s.mf.hdrLo b) = kind := by rw [hword, kindField_eq]
    have hlen : declaredLength (lenField (headerWord s.mf.hdrLo b)) = len := by rw [hword]; rfl
    have hiff := framingViolates_iff s.cfg.maxMsgLen len
    refine ⟨fun hv => ?_, fun h2 hmax => ?_, fun h4 hmax => ?_⟩
    · rw [exec_mfFeed b hp hf, Mf.feed_header2_violation hs hlen (hiff.2 hv), hkind]
    · have hok : framingViolates s.cfg.maxMsgLen len = false := Bool.eq_false_iff.2 (mt hiff.1 (by omega))
      rw [h2] at hlen hok
      rw [exec_mfFeed_of hp hf (Mf.feed_header2_itemless hs hlen hok), hkind]
    · have hok : framingViolates s.cfg.maxMsgLen len = false := Bool.eq_false_iff.2 (mt hiff.1 (by omega))
      rw [exec_mfFeed_of hp hf (Mf.feed_header2_body hs hlen hok (by omega)), hkind]

/-- Settles O40, by whether the byte is the last of the message. -/
theorem feedBodyBytes : Obligations.FeedBodyBytes := by
  intro s b hp hf hs
  constructor
  · intro hi
    exact exec_mfFeed_of hp hf (Mf.feed_body_more b hs hi)
  · intro h0 h1 i0 i1 p hi hbuf hlen
    have hpayload : payloadOf (h0 :: h1 :: i0 :: i1 :: p) s.mf.len = p := by rw [hlen, payloadOf_cons]
    rw [exec_mfFeed_of hp hf (Mf.feed_body_last b hs hi), hbuf, itemOf_cons, hpayload]

/-! ### The bytes of a parameter (R247) -/

/-- The low byte of a value modulo `2^(8 (n + 1))`, and its rest. -/
theorem leBytes_truncN_succ (n : Nat) (v : Int) :
    leBytes (n + 1) (truncN (8 * (n + 1)) v) = BitVec.ofInt 8 v :: leBytes n (truncN (8 * n) (v / 256)) := by
  have hpow : (2 : Int) ^ (8 * (n + 1)) = 256 * 2 ^ (8 * n) := by rw [Nat.mul_succ, pow_add, mul_comm]; norm_num
  have hpos : (0 : Int) < 2 ^ (8 * n) := by positivity
  have hlow : BitVec.ofNat 8 (truncN (8 * (n + 1)) v) = BitVec.ofInt 8 v := by
    have hmod := Int.emod_emod_of_dvd v (Dvd.intro (2 ^ (8 * n)) rfl : (256 : Int) ∣ 256 * 2 ^ (8 * n))
    have hnn := Int.emod_nonneg v (b := 256 * 2 ^ (8 * n)) (by omega)
    apply BitVec.eq_of_toNat_eq
    rw [BitVec.toNat_ofNat, BitVec.toNat_ofInt, truncN, hpow]
    omega
  have hrest : truncN (8 * (n + 1)) v / 256 = truncN (8 * n) (v / 256) := by
    have hdiv : v % (256 * 2 ^ (8 * n)) / 256 = v / 256 % 2 ^ (8 * n) := by
      rw [Int.emod_def, Int.emod_def, Int.ediv_ediv_of_nonneg (by norm_num), mul_assoc]
      omega
    have hnn := Int.emod_nonneg v (b := 256 * 2 ^ (8 * n)) (by omega)
    rw [truncN, truncN, hpow, ← hdiv]
    omega
  rw [leBytes, hlow, hrest]

theorem paramBytes_of_width {p : Param} {n : Nat} (h : p.width = 8 * n) :
    paramBytes p = leBytes n (truncN (8 * n) p.value) := by
  rw [paramBytes, h, Nat.mul_div_cancel_left n (by norm_num)]

theorem paramBytes_width8 {p : Param} (h : p.width = 8) : paramBytes p = [BitVec.ofInt 8 p.value] := by
  rw [paramBytes_of_width (n := 1) h, leBytes_truncN_succ, leBytes]

theorem paramBytes_width16 {p : Param} (h : p.width = 16) :
    paramBytes p = [BitVec.ofInt 8 p.value, BitVec.ofInt 8 (p.value / 256)] := by
  rw [paramBytes_of_width (n := 2) h, leBytes_truncN_succ, leBytes_truncN_succ, leBytes]

theorem paramBytes_width32 {p : Param} (h : p.width = 32) :
    paramBytes p = [BitVec.ofInt 8 p.value, BitVec.ofInt 8 (p.value / 256), BitVec.ofInt 8 (p.value / 65536),
      BitVec.ofInt 8 (p.value / 16777216)] := by
  have h2 : p.value / 256 / 256 = p.value / 65536 := by omega
  have h3 : p.value / 65536 / 256 = p.value / 16777216 := by omega
  rw [paramBytes_of_width (n := 4) h, leBytes_truncN_succ, leBytes_truncN_succ, leBytes_truncN_succ,
    leBytes_truncN_succ, leBytes, h2, h3]

/-! ### The encoder's layout and refusals (R247) -/

section Encode

variable {s : State} {kind : Kind} {item : Option U16} {params : List Param}

theorem exec_mfEncode_on (h : s.poweredOn = true) (he : encodable s.cfg.maxMsgLen item params = true) :
    exec (.mfEncode kind item params) s =
      .next { s with results := s.results ++ [.bytes (messageBytes kind item params)] } := by
  refine (State.whenOn_on h _).trans ?_
  rw [encodeMessage_ok he]
  rfl

theorem exec_mfEncode_unencodable (h : s.poweredOn = true) (he : ¬ encodable s.cfg.maxMsgLen item params = true) :
    exec (.mfEncode kind item params) s = .refused .unencodable := by
  refine (State.whenOn_on h _).trans ?_
  rw [encodeMessage, if_neg he]

/-- What `MF_ENCODE` completes with is the encoder's result. -/
theorem encodeMessage_of_exec {bytes : List Byte}
    (h : exec (.mfEncode kind item params) s = .next { s with results := s.results ++ [.bytes bytes] }) :
    encodeMessage s.cfg.maxMsgLen kind item params = .ok bytes := by
  obtain ⟨_, y, hy, ht⟩ := exec_mfEncode_next h
  have hres : s.results ++ [.bytes bytes] = s.results ++ [.bytes y] := congrArg State.results ht
  have hbytes : bytes = y := by simpa using hres
  rw [hy, hbytes]

end Encode

theorem messageBody_some_length (id : U16) (params : List Param) :
    (messageBody (some id) params).length = 2 + (params.flatMap paramBytes).length := by
  rw [messageBody, List.length_append, leBytes_length]

theorem encodable_some_iff (maxLen : Nat) (id : U16) (params : List Param) :
    encodable maxLen (some id) params = true ↔
      (∀ p ∈ params, p.width = 8 ∨ p.width = 16 ∨ p.width = 32) ∧
      (4 + (params.flatMap paramBytes).length ≤ 8191 ∨ 4 + (params.flatMap paramBytes).length = 8194) ∧
      4 + (params.flatMap paramBytes).length ≤ maxLen := by
  rw [encodable_iff, messageBody_some_length]
  constructor
  · rintro ⟨_, hw, h1, h2, h3, h4⟩
    exact ⟨hw, by omega, by omega⟩
  · rintro ⟨hw, hl, hm⟩
    exact ⟨fun h => (Option.some_ne_none id h).elim, hw, by omega, by omega, by omega, by omega⟩

theorem messageBytes_some (kind : Kind) (id : U16) (params : List Param)
    (hl : lengthField (4 + (params.flatMap paramBytes).length) < 8192) :
    messageBytes kind (some id) params =
      let hdr := kind.toNat * 8192 + lengthField (4 + (params.flatMap paramBytes).length)
      [BitVec.ofNat 8 hdr, BitVec.ofNat 8 (hdr / 256), id.setWidth 8, (id >>> 8).setWidth 8] ++
        params.flatMap paramBytes := by
  have hlen : 2 + (messageBody (some id) params).length = 4 + (params.flatMap paramBytes).length := by
    rw [messageBody_some_length]
    omega
  have hid : leBytes 2 id.toNat = [id.setWidth 8, (id >>> 8).setWidth 8] := sampleBytes_eq id
  rw [messageBytes, hlen, headerOf_eq _ _ hl, messageBody, hid]
  rfl

theorem messageBytes_none (kind : Kind) :
    messageBytes kind none [] = [0x02#8, BitVec.ofNat 8 (kind.toNat * 32)] := by
  have hhdr : headerOf kind 2 = kind.toNat * 8192 + 2 := headerOf_eq kind 2 (by decide)
  have hlo : BitVec.ofNat 8 (kind.toNat * 8192 + 2) = 0x02#8 := by
    apply BitVec.eq_of_toNat_eq
    rw [BitVec.toNat_ofNat, BitVec.toNat_ofNat]
    omega
  have hhi : (kind.toNat * 8192 + 2) / 256 = kind.toNat * 32 := by omega
  rw [messageBytes, messageBody, List.length_nil, hhdr, leBytes, leBytes, leBytes, hlo, hhi, List.append_nil]

/-- Settles O42: `encodable` decides between the message and the refusal. -/
theorem encodeMessageLayout : Obligations.EncodeMessageLayout := by
  intro s kind id params hp body len widthsOk
  have hiff : encodable s.cfg.maxMsgLen (some id) params = true ↔
      widthsOk ∧ (len ≤ 8191 ∨ len = 8194) ∧ len ≤ s.cfg.maxMsgLen := encodable_some_iff _ _ _
  refine ⟨fun hw hmax hlen => ?_, fun hmax => ?_, fun hne => ?_, fun hbad => ?_,
    fun _ => ⟨paramBytes_width8, paramBytes_width16, paramBytes_width32⟩⟩
  · have hl : lengthField len < 8192 := by
      unfold lengthField
      split <;> omega
    rw [exec_mfEncode_on hp (hiff.2 ⟨hw, hlen, hmax⟩), messageBytes_some kind id params hl]
    rfl
  · have he : encodable s.cfg.maxMsgLen none [] = true := by
      rw [encodable_iff]
      refine ⟨fun _ => rfl, fun p hmem => (List.not_mem_nil hmem).elim, ?_⟩
      rw [messageBody, List.length_nil]
      omega
    rw [exec_mfEncode_on hp he, messageBytes_none]
  · refine exec_mfEncode_unencodable hp fun he => hne ?_
    obtain ⟨hnone, _⟩ := (encodable_iff _ _ _).1 he
    exact hnone rfl
  · refine exec_mfEncode_unencodable hp fun he => ?_
    obtain ⟨hw, hlen, hmax⟩ := hiff.1 he
    rcases hbad with hnw | hl
    · exact hnw hw
    · omega

/-! ### The framer inverts the encoder (R248 (b), (c)) -/

/-- Settles O43: the encoder's bytes are `messageBytes`, which a waiting framer takes byte by byte. -/
theorem framerInvertsEncoder : Obligations.FramerInvertsEncoder := by
  intro s kind item params bytes hp hs hf henc
  obtain ⟨he, rfl⟩ := encodeMessage_inv (encodeMessage_of_exec henc)
  obtain ⟨m, hfeed, hm⟩ := Mf.feedAll_messageBytes s.cfg.maxMsgLen s.mf kind item params hs he
  refine ⟨m, ?_, hm, Mf.feedAll_fault _ _ _ _ _ hf hfeed⟩
  rw [runOps_feedAll _ s m _ hp hf hfeed, List.map_append, List.map_replicate, List.append_assoc]
  rfl

/-- A waiting framer takes one encoded message after another and gives each of them. -/
theorem Mf.feedAll_stream (maxLen : Nat) (ms : List (Kind × Option U16 × List Param)) :
    ∀ (m : Mf) (bytes : List (List Byte)), m.state = .awaitHeader1 →
      ms.map (fun x => encodeMessage maxLen x.1 x.2.1 x.2.2) = bytes.map .ok →
      ∃ (m' : Mf) (outs : List (Option FramedMessage)), m.feedAll maxLen bytes.flatten = some (m', outs) ∧
        outs.filterMap id = ms.map (fun x => ⟨x.1, x.2.1, x.2.2.flatMap paramBytes⟩) ∧ m'.state = .awaitHeader1 := by
  induction ms with
  | nil =>
    intro m bytes hs henc
    obtain rfl : bytes = [] := List.map_eq_nil_iff.1 henc.symm
    exact ⟨m, [], rfl, rfl, hs⟩
  | cons x ms ih =>
    intro m bytes hs henc
    obtain ⟨y, ys, rfl, hy, hys⟩ := List.map_eq_cons_iff.1 henc.symm
    obtain ⟨he, rfl⟩ := encodeMessage_inv hy.symm
    obtain ⟨m1, hfeed, hm1⟩ := Mf.feedAll_messageBytes maxLen m x.1 x.2.1 x.2.2 hs he
    obtain ⟨m2, outs, hrest, houts, hm2⟩ := ih m1 ys hm1 hys.symm
    have hall := Mf.feedAll_append (y := ys.flatten) hfeed
    rw [hrest] at hall
    refine ⟨m2, _, hall, ?_, hm2⟩
    rw [List.filterMap_append, houts]
    simp

/-- Settles O44, by induction on the messages: each leaves the framer waiting for the next. -/
theorem framerDecodesAStreamInOrder : Obligations.FramerDecodesAStreamInOrder := by
  intro s ms bytes hp hs hf henc
  obtain ⟨m, outs, hfeed, houts, hm⟩ := Mf.feedAll_stream s.cfg.maxMsgLen ms s.mf bytes hs henc
  refine ⟨m, outs.map .message, runOps_feedAll _ s m outs hp hf hfeed, ?_, hm⟩
  rw [List.filterMap_map, ← houts]
  rfl

end Sys2Proof.Machine
end

section
/-! The stream orchestrator (spec/45_stream_control.md): what its operations answer when the block is on; the operations
without a condition (R261, R262, R270, R271, R278 to R280); the packets waiting for the transport (R281 (c)). -/

namespace Sys2Proof.Machine

/-! ### What the operations answer -/

section Answers

variable {s t : State}

theorem exec_soDispatch_selected (h : s.poweredOn = true) {m : FramedMessage}
    (hsel : selects s.cfg.audioSel m.kind m.itemId = true) (ht : s.rxAudio m.payload = .ok t) :
    exec (.soDispatch m) s = .next (t.give (.message none)) := by
  refine (State.whenOn_on h _).trans ((if_pos hsel).trans ?_)
  rw [ht, State.doneOr_ok]

theorem exec_soDispatch_passed (h : s.poweredOn = true) {m : FramedMessage}
    (hsel : selects s.cfg.audioSel m.kind m.itemId = false) :
    exec (.soDispatch m) s = .next (s.give (.message (some m))) :=
  (State.whenOn_on h _).trans (if_neg (by simp [hsel]))

theorem exec_soRxAudio_of (h : s.poweredOn = true) {p : List Byte} (ht : s.rxAudio p = .ok t) :
    exec (.soRxAudio p) s = .next (t.give .unit) := by
  refine (State.whenOn_on h _).trans ?_
  rw [ht, State.doneOr_ok]

theorem exec_soSetTxMode_on (h : s.poweredOn = true) (m : Mode) :
    exec (.soSetTxMode m) s = .next ((s.setTxMode m).give .unit) := State.whenOn_on h _

theorem exec_soTxBlock_of (h : s.poweredOn = true) {x : List Sample} (hx : x.length % 6 = 0)
    (ht : s.txBlock x = .ok t) :
    exec (.soTxBlock x) s = .next (t.give .unit) := by
  refine (State.whenOn_on h _).trans ((if_pos hx).trans ?_)
  rw [ht, State.doneOr_ok]

theorem exec_soTxBlock_badLength (h : s.poweredOn = true) {x : List Sample} (hx : x.length % 6 ≠ 0) :
    exec (.soTxBlock x) s = .refused .badLength :=
  (State.whenOn_on h _).trans (if_neg hx)

/-- `MF_ENCODE` where the encoder gives a message (R247). -/
theorem exec_mfEncode_of (h : s.poweredOn = true) {kind : Kind} {item : Option U16} {params : List Param}
    {p : List Byte} (hp : encodeMessage s.cfg.maxMsgLen kind item params = .ok p) :
    exec (.mfEncode kind item params) s = .next { s with results := s.results ++ [.bytes p] } := by
  obtain ⟨he, rfl⟩ := encodeMessage_inv hp
  exact exec_mfEncode_on h he

/-- `ADPCM_DEC_BUF` where the codes are in the bytes given (R176). -/
theorem exec_adpcmDecBuf_of (h : s.poweredOn = true) {b : List Byte} {n : Nat} {r : Adp × List Sample}
    (hr : s.adpRx.decodeBuf b 0 n = .ok r) :
    exec (.adpcmDecBuf .rx b 0 n) s = .next { s with adpRx := r.1, results := s.results ++ [.samples r.2] } := by
  obtain ⟨hfit, rfl⟩ := Adp.decodeBuf_inv hr
  exact exec_adpcmDecBuf_on h le_rfl (Int.natCast_nonneg n) (by exact_mod_cast hfit)

/-- `ADPCM_ENC_BUF` where the bit offset is inside the bytes given (R175). -/
theorem exec_adpcmEncBuf_of (h : s.poweredOn = true) {x : List Sample} {b : List Byte} {off : Nat}
    {r : Adp × List Byte × Nat} (hr : s.adpTx.encodeBuf x b off = .ok r) :
    exec (.adpcmEncBuf .tx x b off) s =
      .next { s with adpTx := r.1, results := s.results ++ [.packed r.2.1 r.2.2] } := by
  obtain ⟨hoff, rfl⟩ := Adp.encodeBuf_inv hr
  exact exec_adpcmEncBuf_on h x (Int.natCast_nonneg off) (by exact_mod_cast hoff)

end Answers

/-! ### The resets, the video payload and the queue (R261, R262, R270, R271, R278 to R280) -/

/-- Settles O45: `State.resetStreams_eq` with the idle registers written out; a device failure raises
its event first. -/
theorem startStopResetTheStreams : Obligations.StartStopResetTheStreams := by
  intro s h after
  have hreset (r : Bool) : (s.resetStreams r).give .unit = after r s.log := by rw [State.resetStreams_eq]; rfl
  refine ⟨?_, ?_, ?_⟩
  · rw [← hreset]; exact State.whenOn_on h _
  · rw [← hreset]; exact State.whenOn_on h _
  · refine (State.whenOn_on h _).trans ?_
    rw [State.resetStreams_eq]
    rfl

/-- Settles O51, by whether the mode is the one already set. -/
theorem setTxModeDiscardsThePartialPacket : Obligations.SetTxModeDiscardsThePartialPacket := by
  intro s m h
  refine ⟨fun hm => ?_, fun hm => ?_⟩
  · rw [exec_soSetTxMode_on h, State.setTxMode_same s m hm]
    rfl
  · rw [exec_soSetTxMode_on h, State.setTxMode_eq s m hm]
    rfl

/-- Settles O53: each of the three is a plain answer of an operation without a condition but the empty payload. -/
theorem videoDrainAndTransportStop : Obligations.VideoDrainAndTransportStop := fun _ h =>
  ⟨fun _ _ => State.whenOn_on h _, State.whenOn_on h _, State.whenOn_on h _, State.whenOn_on h _⟩

/-! ### The packets waiting for the transport (R281 (c)) -/

/-- The payload of format `AUD` with the outbound meter (R98, R274). -/
theorem audPayload_zero (code : Byte) (data : List Byte) : audPayload 0 code data = 0#8 :: 0#8 :: code :: data := rfl

/-- Settles O54: a queued packet is what `MF_ENCODE` made of an `AUD` payload, and a waiting framer inverts the
encoder (R248 (b)). -/
theorem queuedPacketsAreAudioMessages : Obligations.QueuedPacketsAreAudioMessages := by
  intro s t p h hp hcfg hon hs hf
  obtain ⟨m, data, _, henc⟩ := h.txq p hp
  have hmax : t.cfg.maxMsgLen = s.cfg.maxMsgLen := by rw [hcfg]
  rw [← hmax] at henc
  obtain ⟨k, hrun, _⟩ := framerInvertsEncoder t _ _ _ p hon hs hf (exec_mfEncode_of hon henc)
  rw [flatMap_paramBytes, audPayload_zero] at hrun
  refine ⟨_, _, m, data, hrun, List.append_assoc .., ?_⟩
  simp [Result.message?]

end Sys2Proof.Machine
end

section
/-! The receive path of the stream orchestrator (R263 to R269): the tests an audio packet meets, the registers it
configures, and the samples it plays. -/

namespace Sys2Proof.Machine

/-! ### One audio packet (R266 to R269) -/

section Receive

variable {s t : State} {p : List Byte} {m : Mode}

/-- An audio packet gives no result and leaves the capture mode (R266, R267). -/
theorem State.rxAudio_frame (h : s.rxAudio p = .ok t) : t.results = s.results ∧ t.so.txMode = s.so.txMode := by
  rcases State.rxAudio_cases h with ⟨_, rfl⟩ | ⟨_, _, rfl⟩ | ⟨_, _, _, rfl⟩ | ⟨_, _, _, _, _, _, hm⟩
  · exact ⟨rfl, rfl⟩
  · exact ⟨rfl, rfl⟩
  · exact ⟨rfl, rfl⟩
  · rcases hm with ⟨_, rfl⟩ | ⟨_, _, _, rfl⟩ <;> exact ⟨rfl, rfl⟩

theorem State.rxAudio_stopped (hr : s.so.running = false) (p : List Byte) : s.rxAudio p = .ok s := by
  simp [State.rxAudio, hr]

theorem State.rxAudio_short (hr : s.so.running = true) (hl : p.length < 3) :
    s.rxAudio p = .ok (s.raise (.badPacket p.length)) := by
  simp [State.rxAudio, hr, hl]

theorem State.rxAudio_badMode (hr : s.so.running = true) (hl : 3 ≤ p.length) (hm : s.cfg.modeOf (audMode p) = none) :
    s.rxAudio p = .ok (s.raise (.badMode (audMode p))) := by
  simp [State.rxAudio, hr, not_lt.2 hl, hm]

/-- The registers that an accepted packet configures before its data is looked at: the meter, the mode, and where that
is a change the decoder (R266, R267). -/
def State.rxConfigured (s : State) (meter : Sample) (m : Mode) : State :=
  { s with
    so := { s.so with meter := meter, rxMode := m }
    adpRx := if m = s.so.rxMode then s.adpRx else Adp.idle ((modeWidth m).getD s.adpRx.w) }

theorem State.switchRx_of_meter (s : State) (meter : Sample) (m : Mode) :
    (s.setSo { s.so with meter := meter }).switchRx m = s.rxConfigured meter m := State.switchRx_eq _ m

/-- The data of a packet of mode `NoAudio` is not looked at (R266). -/
theorem State.rxAudio_noAudio (hr : s.so.running = true) (hl : 3 ≤ p.length)
    (hm : s.cfg.modeOf (audMode p) = some .noAudio) : s.rxAudio p = .ok (s.rxConfigured (audMeter p) .noAudio) := by
  rw [State.rxAudio, if_neg (by simp [hr]), if_neg (not_lt.2 hl), hm]
  simp only [State.switchRx_of_meter, if_true]

/-- Everything that a packet of another mode does: its samples are decoded by the configured registers and played. -/
theorem State.rxAudio_plays (hr : s.so.running = true) (hl : 3 ≤ p.length) (hm : s.cfg.modeOf (audMode p) = some m)
    (hn : m ≠ .noAudio) :
    s.rxAudio p = (audioSamples m (s.rxConfigured (audMeter p) m).adpRx (audData p)).map fun r =>
      ((s.rxConfigured (audMeter p) m).setAdp .rx r.1).playSamples r.2 := by
  rw [State.rxAudio, if_neg (by simp [hr]), if_neg (not_lt.2 hl), hm]
  simp only [State.switchRx_of_meter, if_neg hn]
  cases audioSamples m (s.rxConfigured (audMeter p) m).adpRx (audData p) <;> rfl

/-- What an accepted packet does depends only on the state it configures. -/
theorem State.rxAudio_congr {s' : State} (hl : 3 ≤ p.length) (hr : s.so.running = true) (hr' : s'.so.running = true)
    (hm : s.cfg.modeOf (audMode p) = some m) (hm' : s'.cfg.modeOf (audMode p) = some m)
    (hc : s.rxConfigured (audMeter p) m = s'.rxConfigured (audMeter p) m) : s.rxAudio p = s'.rxAudio p := by
  by_cases hn : m = .noAudio
  · subst hn
    rw [State.rxAudio_noAudio hr hl hm, State.rxAudio_noAudio hr' hl hm', hc]
  · rw [State.rxAudio_plays hr hl hm hn, State.rxAudio_plays hr' hl hm' hn, hc]

/-- After a change of mode the configured registers keep nothing of the decoder's, but `W` where the mode names none. -/
theorem State.rxConfigured_adpRx (meter : Sample) (hm : m ≠ s.so.rxMode) {a a' : Adp}
    (hw : modeWidth m = none → a.w = a'.w) :
    ({ s with adpRx := a } : State).rxConfigured meter m = ({ s with adpRx := a' } : State).rxConfigured meter m := by
  have hwidth : (modeWidth m).getD a.w = (modeWidth m).getD a'.w := by
    cases hmw : modeWidth m with
    | none => exact hw hmw
    | some w => rfl
  simp only [State.rxConfigured, if_neg hm, hwidth]

/-- A width that a change of mode sets is the mode's; a mode that does not change has its width (R267, R271). -/
theorem changed_width {a : Adp} {m old : Mode} (h : ∀ w, modeWidth old = some w → a.w = w) :
    ∀ w, modeWidth m = some w → (if m = old then a else Adp.idle ((modeWidth m).getD a.w)).w = w := by
  intro w hw
  split
  · rename_i hm
    exact h w (hm ▸ hw)
  · rw [hw]
    rfl

/-- The meter of a packet, its low byte first (R98). -/
theorem audMeter_cons (m0 m1 : Byte) (p : List Byte) : audMeter (m0 :: m1 :: p) = m1 ++ m0 := itemOf_cons 0 0 m0 m1 p

/-- The first mode of the table is found by its byte, whatever the other bytes are (R103). -/
theorem Config.modeOf_noAudio (c : Config) : c.modeOf c.modeCode.noAudio = some .noAudio :=
  List.find?_cons_of_pos (beq_self_eq_true c.modeCode.noAudio)

/-! ### The samples of an accepted packet (R268, R269) -/

theorem audioSamples_silence (m : Mode) (a : Adp) {data : List Byte} (h : data.length = 2) :
    audioSamples m a data = .ok (a, List.replicate (silenceCount data) 0) := if_pos h

theorem audioSamples_raw16 (a : Adp) {data : List Byte} (h : data.length ≠ 2) :
    audioSamples .raw16 a data = .ok (a, rawSamples data) := if_neg h

theorem audioSamples_uLaw (a : Adp) {data : List Byte} (h : data.length ≠ 2) :
    audioSamples .uLaw a data = .ok (a, data.map ulawDecode) := if_neg h

theorem audioSamples_adpcm {w : CodeWidth} (hw : modeWidth m = some w) (a : Adp) {data : List Byte}
    (h : data.length ≠ 2) :
    audioSamples m a data = a.decodeBuf data 0 (8 * data.length / w.bits) := by
  rw [audioSamples, if_neg h]
  simp only [decodePayload, hw]

/-- Two bytes read as a number are the sample with the second byte above the first (R61). -/
theorem ofNat_memRead_two (data : List Byte) (i : Nat) :
    BitVec.ofNat 16 (memRead data i 2) = data.getD (i + 1) 0 ++ data.getD i 0 :=
  itemOf_cons 0 0 (data.getD i 0) (data.getD (i + 1) 0) []

theorem rawSamples_getElem? {data : List Byte} {k : Nat} {v : Sample} (h : (rawSamples data)[k]? = some v) :
    v = data.getD (2 * k + 1) 0 ++ data.getD (2 * k) 0 := by
  simp only [rawSamples, List.getElem?_map, Option.map_eq_some_iff] at h
  obtain ⟨_, hk, rfl⟩ := h
  obtain ⟨_, rfl⟩ := List.getElem?_eq_some_iff.1 hk
  rw [List.getElem_range, ofNat_memRead_two]

end Receive

/-! ### The obligations -/

/-- Settles O46: a selected message is an audio packet, which completes in a state whose modes agree. -/
theorem dispatchRoutesByKindAndItem : Obligations.DispatchRoutesByKindAndItem := by
  intro s m h
  refine ⟨exec_soDispatch_passed h, fun hitem => exec_soDispatch_passed h ?_, fun hsel hagree => ?_⟩
  · rw [hitem]
    rfl
  · obtain ⟨t, ht⟩ := s.rxAudio_ok m.payload hagree
    obtain ⟨hres, _⟩ := State.rxAudio_frame ht
    refine ⟨_, exec_soRxAudio_of h ht, ?_, ?_⟩
    · rw [State.give_results, hres]
    · rw [exec_soDispatch_selected h hsel ht, State.give, hres]
      rfl

/-- Settles O47, by the three tests that an audio packet meets in order. -/
theorem badAudioPacketsAreDropped : Obligations.BadAudioPacketsAreDropped := by
  intro s p h
  refine ⟨fun hr => exec_soRxAudio_of h (State.rxAudio_stopped hr p),
    fun hr hl => exec_soRxAudio_of h (State.rxAudio_short hr hl), ?_⟩
  · rintro m0 m1 mb data hr rfl hmode
    have hnone : s.cfg.modeOf (audMode (m0 :: m1 :: mb :: data)) = none := Config.modeOf_none s.cfg mb hmode
    exact exec_soRxAudio_of h (State.rxAudio_badMode hr (by simp) hnone)

/-- Settles O49: the byte of `NoAudio` names that mode. -/
theorem noAudioPacketPushesNothing : Obligations.NoAudioPacketPushesNothing := by
  intro s m0 m1 data h hr
  have hmode : s.cfg.modeOf (audMode (m0 :: m1 :: s.cfg.modeCode.noAudio :: data)) = some .noAudio :=
    Config.modeOf_noAudio s.cfg
  rw [exec_soRxAudio_of h (State.rxAudio_noAudio hr (by simp) hmode), audMeter_cons]
  simp only [State.rxConfigured, eq_comm (a := Mode.noAudio)]
  rfl

/-- Settles O50: the configured registers are the same, and the rest of the packet is computed from them. -/
theorem modeSwitchForgetsThePredictor : Obligations.ModeSwitchForgetsThePredictor := by
  intro s a a' p m hr hl hm hne hw
  have hrx : ({ s with adpRx := a } : State).rxAudio p = ({ s with adpRx := a' } : State).rxAudio p :=
    State.rxAudio_congr hl hr hr hm hm (s.rxConfigured_adpRx (audMeter p) hne hw)
  exact congrArg (fun r => State.whenOn s (State.doneOr .unit r)) hrx

/-- Settles O48: the samples of the packet, by its length and mode, go through the converter and the buffer of the
configured state. -/
theorem audioPacketIsDecodedAndPlayed : Obligations.AudioPacketIsDecodedAndPlayed := by
  intro s m0 m1 m data h hr hagree hcode hn width s1
  have hmode : s.cfg.modeOf (s.cfg.modeCode.get m) = some m := Config.modeOf_get s.cfg hcode m
  have hs1 : s.rxConfigured (m1 ++ m0) m = s1 := rfl
  obtain ⟨hrx, _, _⟩ := hagree
  have hwidth : ∀ w, modeWidth m = some w → s1.adpRx.w = w := changed_width hrx
  obtain ⟨⟨a, pcm⟩, hpcm⟩ := audioSamples_ok m s1.adpRx data hwidth
  refine ⟨a, pcm, _, _, _, _, ?silence, ?raw16, ?uLaw, ?adpcm, exec_interp6_on (s := s1) h pcm,
    exec_jbPush_on (s := s1) h _, ?packet⟩
  case silence =>
    intro hl
    rw [audioSamples_silence m _ hl] at hpcm
    cases hpcm
    exact ⟨rfl, rfl⟩
  case raw16 =>
    rintro hl rfl
    rw [audioSamples_raw16 _ hl] at hpcm
    cases hpcm
    exact ⟨rfl, by simp [rawSamples], fun k v => rawSamples_getElem?⟩
  case uLaw =>
    rintro hl rfl
    rw [audioSamples_uLaw _ hl] at hpcm
    cases hpcm
    exact ⟨rfl, State.whenOn_on (s := s1) h _⟩
  case adpcm =>
    intro hl w hw
    rw [audioSamples_adpcm hw _ hl] at hpcm
    exact exec_adpcmDecBuf_of (s := s1) h hpcm
  case packet =>
    have hplay := State.rxAudio_plays (p := m0 :: m1 :: s.cfg.modeCode.get m :: data) hr (by simp) hmode hn
    rw [audMeter_cons, hs1] at hplay
    exact exec_soRxAudio_of h (hplay.trans (congrArg _ hpcm))

end Sys2Proof.Machine
end

section
/-! The agreement of the code widths with the modes (R281 (b), R272) and the discipline of R305, over every
operation. -/

namespace Sys2Proof.Machine

/-! ### The agreement (R281 (b)) -/

/-- The registers that the agreement of widths and modes speaks of (R272, R281 (b)). -/
def State.modeView (s : State) : CodeWidth × CodeWidth × Mode × Mode × Stage :=
  (s.adpRx.w, s.adpTx.w, s.so.rxMode, s.so.txMode, s.so.stage)

/-- The operations that may write one of those registers (R260, R305). -/
inductive TouchesModes : Instr → Prop
  | powerOn : TouchesModes .powerOn
  | adpcmSetw (d : Dir) (w : Int) : TouchesModes (.adpcmSetw d w)
  | soStart : TouchesModes .soStart
  | soStop : TouchesModes .soStop
  | soDispatch (m : FramedMessage) : TouchesModes (.soDispatch m)
  | soRxAudio (p : List Byte) : TouchesModes (.soRxAudio p)
  | soSetTxMode (m : Mode) : TouchesModes (.soSetTxMode m)
  | soTxBlock (x : List Sample) : TouchesModes (.soTxBlock x)
  | soDeviceFail : TouchesModes .soDeviceFail

/-- The mode of a direction: the receive mode for `ADP[rx]`, the capture mode for `ADP[tx]` (R281 (b)). -/
def So.mode (o : So) : Dir → Mode
  | .rx => o.rxMode
  | .tx => o.txMode

section Modes

variable {s t : State} {i : Instr}

/-- Every other operation leaves the widths, the modes and the stage as they are. -/
theorem exec_modeView (h : exec i s = .next t) : TouchesModes i ∨ t.modeView = s.modeView := by
  cases i
  case powerOn => exact .inl .powerOn
  case adpcmSetw d w => exact .inl (.adpcmSetw d w)
  case soStart => exact .inl .soStart
  case soStop => exact .inl .soStop
  case soDispatch m => exact .inl (.soDispatch m)
  case soRxAudio p => exact .inl (.soRxAudio p)
  case soSetTxMode m => exact .inl (.soSetTxMode m)
  case soTxBlock x => exact .inl (.soTxBlock x)
  case soDeviceFail => exact .inl .soDeviceFail
  all_goals right
  case alawEnc => obtain ⟨_, rfl⟩ := exec_alawEnc_next h; rfl
  case alawDec => obtain ⟨_, rfl⟩ := exec_alawDec_next h; rfl
  case ulawEnc => obtain ⟨_, rfl⟩ := exec_ulawEnc_next h; rfl
  case ulawDec => obtain ⟨_, rfl⟩ := exec_ulawDec_next h; rfl
  case alawEncBuf => obtain ⟨_, rfl⟩ := exec_alawEncBuf_next h; rfl
  case alawDecBuf => obtain ⟨_, rfl⟩ := exec_alawDecBuf_next h; rfl
  case ulawEncBuf => obtain ⟨_, rfl⟩ := exec_ulawEncBuf_next h; rfl
  case ulawDecBuf => obtain ⟨_, rfl⟩ := exec_ulawDecBuf_next h; rfl
  case adpcmReset d => obtain ⟨_, rfl⟩ := exec_adpcmReset_next h; cases d <;> rfl
  case adpcmEnc => obtain ⟨_, _, rfl⟩ := exec_adpcmEnc_next h; rfl
  case adpcmDec => obtain ⟨_, _, rfl⟩ := exec_adpcmDec_next h; rfl
  case adpcmEncBuf x _ _ =>
    obtain ⟨_, _, _, r, hr, rfl⟩ := exec_adpcmEncBuf_next h
    obtain ⟨_, rfl⟩ := Adp.encodeBuf_inv hr
    simp [State.modeView, Adp.encodeAll_w]
  case adpcmDecBuf =>
    obtain ⟨_, _, _, _, r, hr, rfl⟩ := exec_adpcmDecBuf_next h
    obtain ⟨_, rfl⟩ := Adp.decodeBuf_inv hr
    simp [State.modeView, Adp.decodeAll_w]
  case rcReset p => obtain ⟨_, rfl⟩ := exec_rcReset_next h; cases p <;> rfl
  case interp6 => obtain ⟨_, rfl⟩ := exec_interp6_next h; rfl
  case decim6 => obtain ⟨_, _, rfl⟩ := exec_decim6_next h; rfl
  case jbReset => obtain ⟨_, rfl⟩ := exec_jbReset_next h; rfl
  case jbPush => obtain ⟨_, rfl⟩ := exec_jbPush_next h; rfl
  case jbPull => obtain ⟨_, _, rfl⟩ := exec_jbPull_next h; rfl
  case mfReset => obtain ⟨_, rfl⟩ := exec_mfReset_next h; rfl
  case mfFeed => obtain ⟨_, _, rfl⟩ := exec_mfFeed_next h; rfl
  case mfEncode => obtain ⟨_, _, _, rfl⟩ := exec_mfEncode_next h; rfl
  case soRxVideo => obtain ⟨_, _, _, _, rfl⟩ := exec_soRxVideo_next h; rfl
  case soTxDrain => obtain ⟨_, rfl⟩ := exec_soTxDrain_next h; rfl
  case soTransportStop => obtain ⟨_, rfl⟩ := exec_soTransportStop_next h; rfl

theorem State.ModesAgree.of_modeView (h : s.ModesAgree) (hv : t.modeView = s.modeView) : t.ModesAgree := by
  simp only [State.modeView, Prod.mk.injEq] at hv
  obtain ⟨hrx, htx, hrm, htm, hst⟩ := hv
  rwa [State.ModesAgree, hrx, htx, hrm, htm, hst]

theorem State.ModesAgree.give (h : s.ModesAgree) (r : Result) : (s.give r).ModesAgree := h

theorem State.ModesAgree.resetStreams (h : s.ModesAgree) (running : Bool) : (s.resetStreams running).ModesAgree := by
  obtain ⟨_, htx, _⟩ := h
  rw [State.resetStreams_eq]
  exact ⟨fun _ hw => (nomatch hw), htx, (Nat.zero_mul _).symm⟩

/-- R266 to R268: decoding keeps the width that the change of mode set. -/
theorem State.ModesAgree.rxAudio (h : s.ModesAgree) {p : List Byte} (ht : s.rxAudio p = .ok t) : t.ModesAgree := by
  obtain ⟨hrx, htx, hst⟩ := h
  rcases State.rxAudio_cases ht with ⟨_, rfl⟩ | ⟨_, _, rfl⟩ | ⟨_, _, _, rfl⟩ | ⟨m, _, _, _, a, rfl, hm⟩
  · exact ⟨hrx, htx, hst⟩
  · exact ⟨hrx, htx, hst⟩
  · exact ⟨hrx, htx, hst⟩
  · rcases hm with ⟨_, rfl⟩ | ⟨_, r, hr, rfl⟩
    · exact ⟨changed_width hrx, htx, hst⟩
    · obtain ⟨hw, _⟩ := audioSamples_inv hr
      exact ⟨fun w hm => hw.trans (changed_width hrx w hm), htx, hst⟩

/-- R271: nothing is staged after a change of mode. -/
theorem State.ModesAgree.setTxMode (h : s.ModesAgree) (m : Mode) : (s.setTxMode m).ModesAgree := by
  by_cases hm : m = s.so.txMode
  · rwa [State.setTxMode_same s m hm]
  · obtain ⟨hrx, _, _⟩ := h
    rw [State.setTxMode_eq s m hm]
    refine ⟨hrx, fun w hw => ?_, (Nat.zero_mul _).symm⟩
    have hmw : modeWidth m = some w := hw
    rw [hmw]
    rfl

/-- R272: every captured sample adds the bits of the mode, and a built packet leaves nothing staged. -/
theorem State.ModesAgree.txBlock (h : s.ModesAgree) {x : List Sample} (ht : s.txBlock x = .ok t) : t.ModesAgree := by
  rcases State.txBlock_cases ht with ⟨_, rfl⟩ | ⟨_, _, u, hu, rfl⟩
  · exact h
  · obtain ⟨hrx, htx, hst⟩ := h
    have hw : u.adp.w = s.adpTx.w := TxPath.encodeAll_w _ _ _ _ _ u hu
    exact ⟨hrx, fun w hm => hw.trans (htx w hm), TxPath.encodeAll_bits _ _ _ _ _ u hu htx hst⟩

/-- The registers of a codec whose mode names no width may be anything. -/
theorem State.ModesAgree.setAdp (h : s.ModesAgree) {d : Dir} (hm : s.so.mode d = .noAudio) (a : Adp) :
    (s.setAdp d a).ModesAgree := by
  obtain ⟨hrx, htx, hst⟩ := h
  cases d with
  | rx =>
    have hmode : s.so.rxMode = .noAudio := hm
    exact ⟨fun w hw => by simp [hmode, modeWidth] at hw, htx, hst⟩
  | tx =>
    have hmode : s.so.txMode = .noAudio := hm
    exact ⟨hrx, fun w hw => by simp [hmode, modeWidth] at hw, hst⟩

/-- Every operation keeps the agreement, a direct `ADPCM_SETW` where the mode of its codec is `NoAudio`. -/
theorem exec_modesAgree (h : s.ModesAgree) (hi : ∀ d w, i = .adpcmSetw d w → s.so.mode d = .noAudio)
    (ht : exec i s = .next t) : t.ModesAgree := by
  rcases exec_modeView ht with hw | hv
  · cases hw with
    | powerOn => rw [exec_powerOn_next ht]; exact s.powerOn_modesAgree.give _
    | adpcmSetw d w => obtain ⟨_, cw, _, rfl⟩ := exec_adpcmSetw_next ht; exact (h.setAdp (hi d w rfl) _).give _
    | soStart => obtain ⟨_, rfl⟩ := exec_soStart_next ht; exact (h.resetStreams true).give _
    | soStop => obtain ⟨_, rfl⟩ := exec_soStop_next ht; exact (h.resetStreams false).give _
    | soDispatch m =>
      obtain ⟨_, ⟨_, u, hu, rfl⟩ | ⟨_, rfl⟩⟩ := exec_soDispatch_next ht
      · exact (h.rxAudio hu).give _
      · exact h.give _
    | soRxAudio p => obtain ⟨_, u, hu, rfl⟩ := exec_soRxAudio_next ht; exact (h.rxAudio hu).give _
    | soSetTxMode m => obtain ⟨_, rfl⟩ := exec_soSetTxMode_next ht; exact (h.setTxMode m).give _
    | soTxBlock x => obtain ⟨_, _, u, hu, rfl⟩ := exec_soTxBlock_next ht; exact (h.txBlock hu).give _
    | soDeviceFail =>
      obtain ⟨_, rfl⟩ := exec_soDeviceFail_next ht
      exact (State.ModesAgree.resetStreams (s := s.raise .stopStreaming) h false).give _
  · exact h.of_modeView hv

/-! ### The mode of a codec and the noted use of its width (R305, log entry 16) -/

theorem State.setTxMode_rxMode (s : State) (m : Mode) : (s.setTxMode m).so.rxMode = s.so.rxMode := by
  by_cases hm : m = s.so.txMode
  · rw [State.setTxMode_same s m hm]
  · rw [State.setTxMode_eq s m hm]

theorem State.txBlock_mode {x : List Sample} (h : s.txBlock x = .ok t) (d : Dir) : t.so.mode d = s.so.mode d := by
  rcases State.txBlock_cases h with ⟨_, rfl⟩ | ⟨_, _, u, _, rfl⟩
  · rfl
  · cases d <;> rfl

theorem State.modeView_mode (hv : t.modeView = s.modeView) (d : Dir) : t.so.mode d = s.so.mode d := by
  simp only [State.modeView, Prod.mk.injEq] at hv
  obtain ⟨_, _, hrm, htm, _⟩ := hv
  cases d with
  | rx => exact hrm
  | tx => exact htm

/-- An operation that is not an SO operation on a codec leaves the codec's mode, or sets it to `NoAudio`. -/
theorem exec_mode (d : Dir) (ht : exec i s = .next t) :
    widthUseOf s.cfg d i = .orchestrated ∨ t.so.mode d = s.so.mode d ∨ (i = .powerOn ∧ t.so.mode d = .noAudio) := by
  rcases exec_modeView ht with hw | hv
  · cases hw with
    | powerOn => rw [exec_powerOn_next ht]; exact .inr (.inr ⟨rfl, by cases d <;> rfl⟩)
    | adpcmSetw e w => obtain ⟨_, cw, _, rfl⟩ := exec_adpcmSetw_next ht; exact .inr (.inl (by cases e <;> rfl))
    | soStart => exact .inl rfl
    | soStop => exact .inl rfl
    | soDeviceFail => exact .inl rfl
    | soDispatch m =>
      obtain ⟨_, ⟨hsel, u, hu, rfl⟩ | ⟨_, rfl⟩⟩ := exec_soDispatch_next ht
      · cases d with
        | rx => exact .inl (if_pos ⟨rfl, hsel⟩)
        | tx => exact .inr (.inl ((State.rxAudio_frame hu).2))
      · exact .inr (.inl rfl)
    | soRxAudio p =>
      obtain ⟨_, u, hu, rfl⟩ := exec_soRxAudio_next ht
      cases d with
      | rx => exact .inl rfl
      | tx => exact .inr (.inl ((State.rxAudio_frame hu).2))
    | soSetTxMode m =>
      obtain ⟨_, rfl⟩ := exec_soSetTxMode_next ht
      cases d with
      | rx => exact .inr (.inl (s.setTxMode_rxMode m))
      | tx => exact .inl rfl
    | soTxBlock x =>
      obtain ⟨_, _, u, hu, rfl⟩ := exec_soTxBlock_next ht
      exact .inr (.inl (State.txBlock_mode hu d))
  · exact .inr (.inl (State.modeView_mode hv d))

theorem State.widthsDisciplined_iff :
    s.WidthsDisciplined ↔ ∀ d, s.widthUse.of d ≠ .orchestrated → s.so.mode d = .noAudio :=
  ⟨fun ⟨hrx, htx⟩ d => by cases d with | rx => exact hrx | tx => exact htx, fun h => ⟨h .rx, h .tx⟩⟩

theorem WidthUses.not_clashes_of_not_mixedBy {c : Config} {u : WidthUses} (h : u.mixedBy c i = false) (d : Dir) :
    (u.of d).clashes (widthUseOf c d i) = false := by
  obtain ⟨hrx, htx⟩ := Bool.or_eq_false_iff.1 h
  cases d with
  | rx => exact hrx
  | tx => exact htx

theorem WidthUses.of_after (c : Config) (u : WidthUses) (hi : i ≠ .powerOn) (d : Dir) :
    (u.after c i).of d = (u.of d).after (widthUseOf c d i) := by
  rw [WidthUses.after, if_neg hi]
  cases d <;> rfl

/-- Where a width does not count as the orchestrator's after an operation that mixes nothing, it did not before, and the
operation is no SO operation on it. -/
theorem WidthUse.ne_orchestrated_of_after {before now : WidthUse} (hc : before.clashes now = false)
    (ha : before.after now ≠ .orchestrated) : before ≠ .orchestrated ∧ now ≠ .orchestrated := by
  cases now with
  | unused => exact ⟨ha, by simp⟩
  | direct => exact ⟨fun hb => by simp [hb, WidthUse.clashes] at hc, by simp⟩
  | orchestrated => exact absurd rfl ha

/-- A direct `ADPCM_SETW` that mixes nothing meets a codec that the orchestrator has not used. -/
theorem WidthUses.of_ne_orchestrated_of_setw {c : Config} {u : WidthUses} {d : Dir} {w : Int}
    (h : u.mixedBy c (.adpcmSetw d w) = false) : u.of d ≠ .orchestrated := by
  intro hu
  have hc := WidthUses.not_clashes_of_not_mixedBy h d
  simp [hu, widthUseOf, WidthUse.clashes] at hc

/-- The discipline after an operation, with its use of the widths noted. -/
theorem widthsDisciplined_of_exec {u : WidthUses} (hm : u.mixedBy s.cfg i = false)
    (hu : s.widthUse = u.after s.cfg i) (hd : ∀ d, u.of d ≠ .orchestrated → s.so.mode d = .noAudio)
    (ht : exec i s = .next t) : t.WidthsDisciplined := by
  rw [State.widthsDisciplined_iff, exec_widthUse i ht, hu]
  intro d ho
  by_cases hi : i = .powerOn
  · subst hi
    rw [exec_powerOn_next ht]
    cases d <;> rfl
  · rw [WidthUses.of_after _ _ hi] at ho
    obtain ⟨hbefore, hnow⟩ := WidthUse.ne_orchestrated_of_after (WidthUses.not_clashes_of_not_mixedBy hm d) ho
    rcases exec_mode d ht with horch | hsame | ⟨hon, _⟩
    · exact absurd horch hnow
    · rw [hsame, hd d hbefore]
    · exact absurd hon hi

/-- The operation that a step carries out is the decoded one. -/
theorem State.nextOp_of_permitted {q : Request} {rest : List Request} (hp : s.pending = q :: rest)
    (hd : decode q.bytes = .ok i) (ha : permitted q.agent i = true) (hm : s.widthUse.mixedBy s.cfg i = false) :
    s.nextOp = some i := by
  simp [State.nextOp, State.fetch_of_decode hp hd, ha, hm]

end Modes

/-- Settles O57: the operation of the step keeps the agreement; a direct `ADPCM_SETW` mixes nothing, so under the
discipline the mode of its codec is `NoAudio`. -/
theorem stepKeepsModesAgreeing : Obligations.StepKeepsModesAgreeing := by
  constructor
  · intro s t h ht hno
    obtain ⟨q, rest, i, hp, hd, ha, hm, he⟩ := step_next ht
    have hnext := State.nextOp_of_permitted hp hd ha hm
    exact exec_modesAgree (s := (s.setPending rest).setWidthUse _) h
      (fun d w hi => absurd (hi ▸ hnext) (hno d w)) he
  · intro s t h hdisc ht
    obtain ⟨q, rest, i, hp, hd, ha, hm, he⟩ := step_next ht
    rw [State.widthsDisciplined_iff] at hdisc
    refine ⟨exec_modesAgree (s := (s.setPending rest).setWidthUse _) h ?_ he, ?_⟩
    · rintro d w rfl
      exact hdisc d (WidthUses.of_ne_orchestrated_of_setw hm)
    · exact widthsDisciplined_of_exec (s := (s.setPending rest).setWidthUse _) hm rfl hdisc he

end Sys2Proof.Machine
end

section
/-! The transmit path of the stream orchestrator (R272 to R277): a captured block, its parts, and the one sample of
six. -/

namespace Sys2Proof.Machine

/-! ### A captured block (R272 to R277) -/

/-- The registers that the captured 8 kHz samples of a block change (R272, R274). -/
def State.txPath (s : State) : TxPath := ⟨s.adpTx, s.so.stage, s.so.txq⟩

/-- The state after a block that is not dropped: `RC.dn` advanced and the transmit path as the samples left it
(R277). -/
def State.captured (s : State) (d : RcDn) (u : TxPath) : State :=
  { s with adpTx := u.adp, rcDn := d, so := { s.so with stage := u.stage, txq := u.txq } }

section Transmit

variable {s t u : State} {x y : List Sample}

theorem State.txBlock_dropped (h : s.so.running = false ∨ s.so.txMode = .noAudio) (x : List Sample) :
    s.txBlock x = .ok s := by
  rw [State.txBlock, if_pos (by simpa using h)]

theorem State.txBlock_captured (hr : s.so.running = true) (hm : s.so.txMode ≠ .noAudio) {p : TxPath}
    (hp : TxPath.encodeAll s.cfg s.so.txMode s.so.txMeter s.txPath (decimAll s.cfg s.rcDn x).1 = .ok p) :
    s.txBlock x = .ok (s.captured (decimAll s.cfg s.rcDn x).2 p) := by
  rw [State.txPath] at hp
  rw [State.txBlock, if_neg (by simp [hr, hm])]
  simp only [hp]
  rfl

/-- The captured samples of any block complete where the invariant holds and the widths agree with the modes. -/
theorem State.encodeAll_ok (h : s.Inv) (ha : s.ModesAgree) (hm : s.so.txMode ≠ .noAudio) (y : List Sample) :
    ∃ p new, TxPath.encodeAll s.cfg s.so.txMode s.so.txMeter s.txPath y = .ok p ∧ p.txq = s.so.txq ++ new ∧
      s.so.stage.count + y.length = p.stage.count + s.cfg.txMax.get s.so.txMode * new.length ∧
      p.stage.count < s.cfg.txMax.get s.so.txMode ∧
      ∀ q ∈ new, q.length = 7 + (s.cfg.txMax.get s.so.txMode * payloadBits s.so.txMode + 7) / 8 := by
  obtain ⟨_, _, _, _, _, htx, _⟩ := h.admissible
  obtain ⟨hbytes, hcount, _⟩ := h.so
  obtain ⟨_, hw, hbits⟩ := ha
  obtain ⟨p, new, hp, hq, hsum, hlt, _, _, hlen⟩ :=
    TxPath.encodeAll_ok s.cfg s.so.txMode s.so.txMeter hm htx y s.txPath hbytes hbits (hcount hm) hw
  exact ⟨p, new, hp, hq, hsum, hlt, hlen⟩

theorem State.txBlock_ok (h : s.Inv) (ha : s.ModesAgree) (x : List Sample) : ∃ t, s.txBlock x = .ok t := by
  by_cases hd : s.so.running = false ∨ s.so.txMode = .noAudio
  · exact ⟨s, State.txBlock_dropped hd x⟩
  · obtain ⟨hr, hm⟩ := not_or.1 hd
    obtain ⟨p, _, hp, _⟩ := State.encodeAll_ok h ha hm (decimAll s.cfg s.rcDn x).1
    exact ⟨_, State.txBlock_captured (Bool.eq_true_of_not_eq_false hr) hm hp⟩

theorem State.txBlock_nil (s : State) : s.txBlock [] = .ok s := by
  by_cases hd : s.so.running = false ∨ s.so.txMode = .noAudio
  · exact State.txBlock_dropped hd []
  · obtain ⟨hr, hm⟩ := not_or.1 hd
    exact State.txBlock_captured (x := []) (p := s.txPath) (Bool.eq_true_of_not_eq_false hr) hm rfl

theorem State.txBlock_results (h : s.txBlock x = .ok t) : t.results = s.results := by
  rcases State.txBlock_cases h with ⟨_, rfl⟩ | ⟨_, _, _, _, rfl⟩ <;> rfl

theorem State.txBlock_poweredOn (h : s.txBlock x = .ok t) : t.poweredOn = s.poweredOn := by
  rcases State.txBlock_cases h with ⟨_, rfl⟩ | ⟨_, _, _, _, rfl⟩ <;> rfl

/-- A block does not look at the results so far (R339). -/
theorem State.txBlock_give (h : s.txBlock x = .ok t) (r : Result) : (s.give r).txBlock x = .ok (t.give r) := by
  rcases State.txBlock_cases h with ⟨hd, rfl⟩ | ⟨hr, hm, p, hp, rfl⟩
  · exact State.txBlock_dropped (s := State.give _ r) hd x
  · exact State.txBlock_captured (s := s.give r) hr hm hp

/-- A block does what its two parts do one after another (R277). -/
theorem State.txBlock_append (hx : s.txBlock x = .ok t) (hy : t.txBlock y = .ok u) : s.txBlock (x ++ y) = .ok u := by
  rcases State.txBlock_cases hx with ⟨hd, rfl⟩ | ⟨hr, hm, p, hp, rfl⟩
  · rwa [State.txBlock_dropped hd] at hy ⊢
  · rcases State.txBlock_cases hy with ⟨hstop | hno, _⟩ | ⟨_, _, q, hq, rfl⟩
    · exact absurd (hr.symm.trans hstop) (by decide)
    · exact absurd hno hm
    · have hpq : TxPath.encodeAll s.cfg s.so.txMode s.so.txMeter s.txPath
          (decimAll s.cfg s.rcDn (x ++ y)).1 = .ok q := by
        rw [decimAll_append]
        exact (TxPath.encodeAll_append hp).trans hq
      rw [State.txBlock_captured hr hm hpq, decimAll_append]
      rfl

/-! ### One captured 8 kHz sample (R272, R274) -/

/-- The modes that code samples: the two that code bytes and the ADPCM rates (R103). -/
theorem mode_codes {m : Mode} (hm : m ≠ .noAudio) : m = .raw16 ∨ m = .uLaw ∨ ∃ w, modeWidth m = some w := by
  cases m with
  | noAudio => exact absurd rfl hm
  | raw16 => exact .inl rfl
  | uLaw => exact .inr (.inl rfl)
  | adpcm5 => exact .inr (.inr ⟨_, rfl⟩)
  | adpcm4 => exact .inr (.inr ⟨_, rfl⟩)
  | adpcm3 => exact .inr (.inr ⟨_, rfl⟩)
  | adpcm2 => exact .inr (.inr ⟨_, rfl⟩)

theorem TxPath.encodeSample_raw16 (p : TxPath) (v : Sample) :
    p.encodeSample .raw16 v = .ok { p with
      stage := ⟨p.stage.bytes ++ [v.setWidth 8, (v >>> 8).setWidth 8], p.stage.bits + 16, p.stage.count + 1⟩ } := by
  rw [← sampleBytes_eq]
  rfl

theorem TxPath.encodeSample_uLaw (p : TxPath) (v : Sample) :
    p.encodeSample .uLaw v = .ok { p with
      stage := ⟨p.stage.bytes ++ [ulawEncode v], p.stage.bits + 8, p.stage.count + 1⟩ } := rfl

theorem TxPath.encodeSample_adpcm {m : Mode} {w : CodeWidth} (hw : modeWidth m = some w) (p : TxPath) {v : Sample}
    {r : Adp × List Byte × Nat} (hr : p.adp.encodeBuf [v] p.stage.bytes p.stage.bits = .ok r) :
    p.encodeSample m v = .ok { p with adp := r.1, stage := ⟨r.2.1, r.2.2, p.stage.count + 1⟩ } := by
  simp only [TxPath.encodeSample, hw, hr]

theorem TxPath.encodeAll_singleton {c : Config} {m : Mode} {meter : Sample} {p p1 q : TxPath} {v : Sample}
    (h1 : p.encodeSample m v = .ok p1) (hq : TxPath.encodeAll c m meter p [v] = .ok q) :
    p1.build c m meter = .ok q := by
  simp only [TxPath.encodeAll, h1] at hq
  split at hq
  · cases hq
  · rename_i hb
    cases hq
    exact hb

/-- What one captured sample stages, in the terms of the operation that codes it. -/
theorem State.encodeSample_by_mode (h : s.poweredOn = true) (hi : s.Inv) (hm : s.so.txMode ≠ .noAudio) (v : Sample) :
    ∃ (a : Adp) (bytes : List Byte) (bits : Nat),
      s.txPath.encodeSample s.so.txMode v = .ok ⟨a, ⟨bytes, bits, s.so.stage.count + 1⟩, s.so.txq⟩ ∧
      (s.so.txMode = .raw16 → a = s.adpTx ∧ bits = s.so.stage.bits + 16 ∧
        bytes = s.so.stage.bytes ++ [v.setWidth 8, (v >>> 8).setWidth 8]) ∧
      (s.so.txMode = .uLaw → a = s.adpTx ∧ bits = s.so.stage.bits + 8 ∧
        ∃ c : Byte, bytes = s.so.stage.bytes ++ [c] ∧
          exec (.ulawEnc v) s = .next { s with results := s.results ++ [.byte c] }) ∧
      (∀ w, modeWidth s.so.txMode = some w →
        exec (.adpcmEncBuf .tx [v] s.so.stage.bytes s.so.stage.bits) s = .next { s with
          adpTx := a, results := s.results ++ [.packed bytes bits] }) := by
  rcases mode_codes hm with hraw | hlaw | ⟨w, hw⟩
  · rw [hraw]
    exact ⟨_, _, _, TxPath.encodeSample_raw16 _ v, fun _ => ⟨rfl, rfl, rfl⟩, fun h => (nomatch h),
      fun _ h => (nomatch h)⟩
  · rw [hlaw]
    exact ⟨_, _, _, TxPath.encodeSample_uLaw _ v, fun h => (nomatch h),
      fun _ => ⟨rfl, rfl, _, rfl, exec_ulawEnc_on h v⟩, fun _ h => (nomatch h)⟩
  · obtain ⟨hbytes, _, _⟩ := hi.so
    have hr : s.adpTx.encodeBuf [v] s.so.stage.bytes s.so.stage.bits = .ok _ := Adp.encodeBuf_ok (by omega)
    refine ⟨_, _, _, TxPath.encodeSample_adpcm hw s.txPath hr, ?_, ?_, fun _ _ => exec_adpcmEncBuf_of h hr⟩ <;>
      intro hmode <;> rw [hmode] at hw <;> cases hw

/-- Six captured samples are one 8 kHz sample (R207). -/
theorem State.decimAll_six (h : s.Inv) (hx : x.length = 6) : ∃ v, (decimAll s.cfg s.rcDn x).1 = [v] := by
  obtain ⟨_, _, hph2, hph3⟩ := h.rcDn
  obtain ⟨hlen, _⟩ := decimAll_length s.cfg s.rcDn x (by omega) (by omega) (by omega)
  exact List.length_eq_one_iff.1 (by omega)

/-- The parameters of the packet's message, byte by byte (R98, R274). -/
theorem audPayload_eq (meter : Sample) (code : Byte) (data : List Byte) :
    audPayload meter code data = meter.setWidth 8 :: (meter >>> 8).setWidth 8 :: code :: data := by
  rw [audPayload, sampleBytes_eq]
  rfl

/-- Six captured samples: what they stage, and the packet that a full stage becomes. -/
theorem exec_soTxBlock_six (h : s.poweredOn = true) (hi : s.Inv) (ha : s.ModesAgree) (hr : s.so.running = true)
    (hm : s.so.txMode ≠ .noAudio) (hx : x.length % 6 = 0) {d : RcDn} {v : Sample} {a : Adp} {stage : Stage}
    (hd : decimAll s.cfg s.rcDn x = ([v], d))
    (hv : s.txPath.encodeSample s.so.txMode v = .ok ⟨a, stage, s.so.txq⟩) :
    (stage.count ≠ s.cfg.txMax.get s.so.txMode → exec (.soTxBlock x) s = .next { s with
      adpTx := a, rcDn := d, so := { s.so with stage := stage }, results := s.results ++ [.unit] }) ∧
    (stage.count = s.cfg.txMax.get s.so.txMode → ∃ p : List Byte,
      audioPacket s.cfg s.so.txMode s.so.txMeter stage.bytes = .ok p ∧
      exec (.soTxBlock x) s = .next { s with
        adpTx := a, rcDn := d, so := { s.so with stage := ⟨[], 0, 0⟩, txq := s.so.txq ++ [p] }
        results := s.results ++ [.unit] }) := by
  obtain ⟨q, _, hq, _⟩ := State.encodeAll_ok hi ha hm [v]
  have hblock : s.txBlock x = .ok (s.captured d q) := by
    rw [State.txBlock_captured hr hm (p := q) (by rw [hd]; exact hq), hd]
  have hexec := exec_soTxBlock_of h hx hblock
  rcases TxPath.build_inv (TxPath.encodeAll_singleton hv hq) with ⟨hne, rfl⟩ | ⟨heq, p, hp, rfl⟩
  · exact ⟨fun _ => hexec, fun heq => absurd heq hne⟩
  · exact ⟨fun hne => absurd heq hne, fun _ => ⟨p, hp, hexec⟩⟩

end Transmit

/-- Settles O52: a block is dropped, or decimated and its samples staged one after another. -/
theorem transmitBlockStagesAndQueues : Obligations.TransmitBlockStagesAndQueues := by
  intro s x h
  refine ⟨exec_soTxBlock_badLength h, fun hx hd => exec_soTxBlock_of h hx (State.txBlock_dropped hd x), ?block, ?six,
    ?parts, exec_soTxBlock_of h rfl s.txBlock_nil⟩
  case block =>
    intro hx hr hm hi ha
    obtain ⟨p, new, hp, hq, hsum, hlt, hlen⟩ := State.encodeAll_ok hi ha hm (decimAll s.cfg s.rcDn x).1
    refine ⟨p.adp, _, _, p.stage, new, exec_decim6_on h hx, ?_, hsum, hlt, hlen⟩
    rw [exec_soTxBlock_of h hx (State.txBlock_captured hr hm hp), State.captured, hq]
    rfl
  case six =>
    intro h6 hr hm hi ha
    have hx : x.length % 6 = 0 := by omega
    obtain ⟨v, hv⟩ := State.decimAll_six hi h6
    have hd : decimAll s.cfg s.rcDn x = ([v], (decimAll s.cfg s.rcDn x).2) := by rw [← hv]
    obtain ⟨a, bytes, bits, hstage, hraw, hlaw, hadpcm⟩ := State.encodeSample_by_mode h hi hm v
    obtain ⟨hmore, hfull⟩ := exec_soTxBlock_six h hi ha hr hm hx hd hstage
    refine ⟨_, v, a, bytes, bits, ?_, hraw, hlaw, hadpcm, hmore, fun heq => ?_⟩
    · rw [exec_decim6_on h hx, hv]
    · obtain ⟨p, hp, hexec⟩ := hfull heq
      rw [audioPacket, audPayload_eq] at hp
      exact ⟨p, exec_mfEncode_of h hp, hexec⟩
  case parts =>
    intro y hx hy hi ha
    have hxy : (x ++ y).length % 6 = 0 := by
      rw [List.length_append]
      omega
    obtain ⟨t, ht⟩ := State.txBlock_ok hi ha x
    obtain ⟨u, hu⟩ := State.txBlock_ok (hi.txBlock hx ht) (ha.txBlock ht) y
    refine ⟨_, _, exec_soTxBlock_of h hx ht, exec_soTxBlock_of ?_ hy (State.txBlock_give hu _), ?_⟩
    · rw [State.give_poweredOn, State.txBlock_poweredOn ht, h]
    · rw [exec_soTxBlock_of h hxy (State.txBlock_append ht hu), State.give, State.txBlock_results hu,
        State.txBlock_results ht]
      rfl

end Sys2Proof.Machine
end

section
/-! Exceptions (spec/60_exceptions.md): which operations write the event log or the framer with its fault latch (R290,
R291, R293), the events each of them raises, and the operations that write and use the code widths (R305). -/

namespace Sys2Proof.Machine

/-! ### The registers that record exceptions: EVT.LOG and the framer with MF.FAULT (R290, R293) -/

/-- The operations that may write EVT.LOG or the framer's registers (R241 to R246, R279, R291, R320). -/
inductive TouchesExceptions : Instr → Prop
  | powerOn : TouchesExceptions .powerOn
  | jbPush (x : List Sample) : TouchesExceptions (.jbPush x)
  | jbPull (n : Int) : TouchesExceptions (.jbPull n)
  | mfReset : TouchesExceptions .mfReset
  | mfFeed (b : Byte) : TouchesExceptions (.mfFeed b)
  | soDispatch (m : FramedMessage) : TouchesExceptions (.soDispatch m)
  | soRxAudio (p : List Byte) : TouchesExceptions (.soRxAudio p)
  | soDeviceFail : TouchesExceptions .soDeviceFail
  | soTransportStop : TouchesExceptions .soTransportStop

section Exceptions

variable {s t : State} {i : Instr}

theorem State.resetStreams_mf_log (s : State) (running : Bool) :
    (s.resetStreams running).mf = s.mf ∧ (s.resetStreams running).log = s.log := by
  rw [State.resetStreams_eq]
  exact ⟨rfl, rfl⟩

theorem State.setTxMode_mf_log (s : State) (m : Mode) : (s.setTxMode m).mf = s.mf ∧ (s.setTxMode m).log = s.log := by
  by_cases hm : m = s.so.txMode
  · rw [State.setTxMode_same s m hm]; exact ⟨rfl, rfl⟩
  · rw [State.setTxMode_eq s m hm]; exact ⟨rfl, rfl⟩

theorem State.txBlock_mf_log {x : List Sample} (h : s.txBlock x = .ok t) : t.mf = s.mf ∧ t.log = s.log := by
  rcases State.txBlock_cases h with ⟨_, rfl⟩ | ⟨_, _, _, _, rfl⟩ <;> exact ⟨rfl, rfl⟩

/-- Every other operation leaves both as they are. -/
theorem exec_mf_log (hn : ¬ TouchesExceptions i) (h : exec i s = .next t) : t.mf = s.mf ∧ t.log = s.log := by
  cases i
  case powerOn => exact absurd .powerOn hn
  case jbPush x => exact absurd (.jbPush x) hn
  case jbPull n => exact absurd (.jbPull n) hn
  case mfReset => exact absurd .mfReset hn
  case mfFeed b => exact absurd (.mfFeed b) hn
  case soDispatch m => exact absurd (.soDispatch m) hn
  case soRxAudio p => exact absurd (.soRxAudio p) hn
  case soDeviceFail => exact absurd .soDeviceFail hn
  case soTransportStop => exact absurd .soTransportStop hn
  case alawEnc => obtain ⟨_, rfl⟩ := exec_alawEnc_next h; exact ⟨rfl, rfl⟩
  case alawDec => obtain ⟨_, rfl⟩ := exec_alawDec_next h; exact ⟨rfl, rfl⟩
  case ulawEnc => obtain ⟨_, rfl⟩ := exec_ulawEnc_next h; exact ⟨rfl, rfl⟩
  case ulawDec => obtain ⟨_, rfl⟩ := exec_ulawDec_next h; exact ⟨rfl, rfl⟩
  case alawEncBuf => obtain ⟨_, rfl⟩ := exec_alawEncBuf_next h; exact ⟨rfl, rfl⟩
  case alawDecBuf => obtain ⟨_, rfl⟩ := exec_alawDecBuf_next h; exact ⟨rfl, rfl⟩
  case ulawEncBuf => obtain ⟨_, rfl⟩ := exec_ulawEncBuf_next h; exact ⟨rfl, rfl⟩
  case ulawDecBuf => obtain ⟨_, rfl⟩ := exec_ulawDecBuf_next h; exact ⟨rfl, rfl⟩
  case adpcmReset d => obtain ⟨_, rfl⟩ := exec_adpcmReset_next h; exact ⟨s.setAdp_mf d _, s.setAdp_log d _⟩
  case adpcmSetw d w => obtain ⟨_, _, _, rfl⟩ := exec_adpcmSetw_next h; exact ⟨s.setAdp_mf d _, s.setAdp_log d _⟩
  case adpcmEnc => obtain ⟨_, _, rfl⟩ := exec_adpcmEnc_next h; exact ⟨rfl, rfl⟩
  case adpcmDec => obtain ⟨_, _, rfl⟩ := exec_adpcmDec_next h; exact ⟨rfl, rfl⟩
  case adpcmEncBuf => obtain ⟨_, _, _, _, _, rfl⟩ := exec_adpcmEncBuf_next h; exact ⟨rfl, rfl⟩
  case adpcmDecBuf => obtain ⟨_, _, _, _, _, _, rfl⟩ := exec_adpcmDecBuf_next h; exact ⟨rfl, rfl⟩
  case rcReset p => obtain ⟨_, rfl⟩ := exec_rcReset_next h; cases p <;> exact ⟨rfl, rfl⟩
  case interp6 => obtain ⟨_, rfl⟩ := exec_interp6_next h; exact ⟨rfl, rfl⟩
  case decim6 => obtain ⟨_, _, rfl⟩ := exec_decim6_next h; exact ⟨rfl, rfl⟩
  case jbReset => obtain ⟨_, rfl⟩ := exec_jbReset_next h; exact ⟨rfl, rfl⟩
  case mfEncode => obtain ⟨_, _, _, rfl⟩ := exec_mfEncode_next h; exact ⟨rfl, rfl⟩
  case soStart => obtain ⟨_, rfl⟩ := exec_soStart_next h; exact s.resetStreams_mf_log true
  case soStop => obtain ⟨_, rfl⟩ := exec_soStop_next h; exact s.resetStreams_mf_log false
  case soRxVideo => obtain ⟨_, _, _, _, rfl⟩ := exec_soRxVideo_next h; exact ⟨rfl, rfl⟩
  case soSetTxMode m => obtain ⟨_, rfl⟩ := exec_soSetTxMode_next h; exact s.setTxMode_mf_log m
  case soTxBlock => obtain ⟨_, _, u, hu, rfl⟩ := exec_soTxBlock_next h; exact (State.txBlock_mf_log hu :)
  case soTxDrain => obtain ⟨_, rfl⟩ := exec_soTxDrain_next h; exact ⟨rfl, rfl⟩

/-! ### The events of an audio packet (R266, R291) -/

theorem State.rxAudio_mf {p : List Byte} (h : s.rxAudio p = .ok t) : t.mf = s.mf := by
  rcases State.rxAudio_cases h with ⟨_, rfl⟩ | ⟨_, _, rfl⟩ | ⟨_, _, _, rfl⟩ | ⟨_, _, _, _, _, _, hm⟩
  · rfl
  · rfl
  · rfl
  · rcases hm with ⟨_, rfl⟩ | ⟨_, _, _, rfl⟩ <;> rfl

/-- The events of one audio packet: the event of its drop, or an overrun for each one of the jitter buffer. -/
def AudioEvents (p : List Byte) (es : List Event) : Prop :=
  es = [.badPacket p.length] ∨ (∃ b, es = [.badMode b]) ∨ ∀ e ∈ es, e = .overrun

theorem AudioEvents.nil (p : List Byte) : AudioEvents p [] := .inr (.inr fun _ he => absurd he List.not_mem_nil)

theorem State.rxAudio_events {p : List Byte} (h : s.rxAudio p = .ok t) :
    ∃ es, t.log = s.log ++ es ∧ AudioEvents p es := by
  rcases State.rxAudio_cases h with ⟨_, rfl⟩ | ⟨_, _, rfl⟩ | ⟨_, _, _, rfl⟩ | ⟨_, _, _, _, _, _, hm⟩
  · exact ⟨[], (List.append_nil _).symm, .nil p⟩
  · exact ⟨_, rfl, .inl rfl⟩
  · exact ⟨_, rfl, .inr (.inl ⟨_, rfl⟩)⟩
  · rcases hm with ⟨_, rfl⟩ | ⟨_, _, _, rfl⟩
    · exact ⟨[], (List.append_nil _).symm, .nil p⟩
    · obtain ⟨hover, _⟩ := Jb.push_events s.cfg.capacity s.jb _
      exact ⟨_, rfl, .inr (.inr hover)⟩

/-! ### The fault latch and the events, operation by operation -/

/-- While MF.FAULT is set only three operations write the framer: `MF_FEED` does not complete (R244, R293). -/
theorem exec_mf_of_fault (hf : s.mf.fault = true) (h : exec i s = .next t) (hreset : i ≠ .mfReset)
    (hstop : i ≠ .soTransportStop) (hon : i ≠ .powerOn) : t.mf = s.mf := by
  by_cases hw : TouchesExceptions i
  · cases hw with
    | powerOn => exact absurd rfl hon
    | mfReset => exact absurd rfl hreset
    | soTransportStop => exact absurd rfl hstop
    | mfFeed b => obtain ⟨_, hclear, _⟩ := exec_mfFeed_next h; exact absurd (hf.symm.trans hclear) (by decide)
    | jbPush x => obtain ⟨_, rfl⟩ := exec_jbPush_next h; rfl
    | jbPull n => obtain ⟨_, _, rfl⟩ := exec_jbPull_next h; rfl
    | soDispatch m =>
      obtain ⟨_, ⟨_, u, hu, rfl⟩ | ⟨_, rfl⟩⟩ := exec_soDispatch_next h
      · exact (State.rxAudio_mf hu :)
      · rfl
    | soRxAudio p => obtain ⟨_, u, hu, rfl⟩ := exec_soRxAudio_next h; exact (State.rxAudio_mf hu :)
    | soDeviceFail =>
      obtain ⟨_, rfl⟩ := exec_soDeviceFail_next h
      obtain ⟨hmf, _⟩ := (s.raise .stopStreaming).resetStreams_mf_log false
      exact hmf
  · obtain ⟨hmf, _⟩ := exec_mf_log hw h
    exact hmf

end Exceptions

/-- Settles O41: `MF_FEED` looks at the latch before the byte, and every other operation but the three keeps the framer. -/
theorem framingFaultLatches : Obligations.FramingFaultLatches :=
  ⟨fun _ _ hp hf => (State.whenOn_on hp _).trans (if_pos hf), fun _ _ _ hf h => exec_mf_of_fault hf h⟩

/-- Settles O60: the events of each operation that writes the log, and none where it is left as it is. -/
theorem eventsByOperation : Obligations.EventsByOperation := by
  intro s t i h hon
  by_cases hw : TouchesExceptions i
  · cases hw with
    | powerOn => exact absurd rfl hon
    | mfReset => obtain ⟨_, rfl⟩ := exec_mfReset_next h; exact ⟨[], (List.append_nil _).symm, rfl⟩
    | soTransportStop => obtain ⟨_, rfl⟩ := exec_soTransportStop_next h; exact ⟨[], (List.append_nil _).symm, rfl⟩
    | mfFeed b =>
      obtain ⟨_, _, rfl⟩ := exec_mfFeed_next h
      exact ⟨_, rfl, Mf.feed_events s.cfg.maxMsgLen s.mf b⟩
    | jbPush x =>
      obtain ⟨_, rfl⟩ := exec_jbPush_next h
      obtain ⟨hover, _⟩ := Jb.push_events s.cfg.capacity s.jb x
      exact ⟨_, rfl, hover⟩
    | jbPull n =>
      obtain ⟨_, _, rfl⟩ := exec_jbPull_next h
      obtain ⟨_, _, _, _, _, _, hunder⟩ := Jb.pull_frame s.cfg.capacity s.cfg.driftGain n.toNat s.jb
      exact ⟨_, rfl, hunder⟩
    | soDispatch m =>
      obtain ⟨_, ⟨_, u, hu, rfl⟩ | ⟨_, rfl⟩⟩ := exec_soDispatch_next h
      · exact (State.rxAudio_events hu :)
      · exact ⟨[], (List.append_nil _).symm, AudioEvents.nil m.payload⟩
    | soRxAudio p => obtain ⟨_, u, hu, rfl⟩ := exec_soRxAudio_next h; exact (State.rxAudio_events hu :)
    | soDeviceFail =>
      obtain ⟨_, rfl⟩ := exec_soDeviceFail_next h
      obtain ⟨_, hlog⟩ := (s.raise .stopStreaming).resetStreams_mf_log false
      exact ⟨[.stopStreaming], hlog, rfl⟩
  · obtain ⟨_, hlog⟩ := exec_mf_log hw h
    refine ⟨[], hlog.trans (List.append_nil _).symm, ?_⟩
    split
    · exact absurd (.jbPull _) hw
    · exact absurd (.jbPush _) hw
    · exact absurd (.mfFeed _) hw
    · exact absurd (.soRxAudio _) hw
    · exact absurd (.soDispatch _) hw
    · exact absurd .soDeviceFail hw
    · rfl

/-! ### The two uses of a code width (R305, log entry 16) -/

section WidthUses

variable {s t : State} {i : Instr} {d : Dir}

/-- The SO operations on the codec of a direction: those that reset it, set its width or code with it (R305, R260). -/
def Orchestrates (c : Config) (d : Dir) (i : Instr) : Prop :=
  i = .soStart ∨ i = .soStop ∨ i = .soDeviceFail ∨
    (d = .rx ∧ ((∃ p, i = .soRxAudio p) ∨ ∃ m, i = .soDispatch m ∧ selects c.audioSel m.kind m.itemId = true)) ∨
    (d = .tx ∧ ((∃ m, i = .soSetTxMode m) ∨ ∃ x, i = .soTxBlock x))

theorem widthUseOf_eq_direct_iff {c : Config} : widthUseOf c d i = .direct ↔ ∃ w, i = .adpcmSetw d w := by
  cases i with
  | adpcmSetw e w => simp [widthUseOf, eq_comm]
  | soDispatch _ | soRxAudio _ | soSetTxMode _ | soTxBlock _ => rw [widthUseOf]; split <;> simp
  | _ => simp [widthUseOf]

theorem widthUseOf_eq_orchestrated_iff {c : Config} : widthUseOf c d i = .orchestrated ↔ Orchestrates c d i := by
  cases i with
  | adpcmSetw e w => rw [widthUseOf]; split <;> simp [Orchestrates]
  | _ => simp [widthUseOf, Orchestrates]

theorem widthUseOf_eq_unused {c : Config} (hd : ¬ ∃ w, i = .adpcmSetw d w) (ho : ¬ Orchestrates c d i) :
    widthUseOf c d i = .unused := by
  cases hu : widthUseOf c d i with
  | unused => rfl
  | direct => exact absurd (widthUseOf_eq_direct_iff.1 hu) hd
  | orchestrated => exact absurd (widthUseOf_eq_orchestrated_iff.1 hu) ho

theorem WidthUses.mixedBy_of_clashes {c : Config} {u : WidthUses}
    (h : (u.of d).clashes (widthUseOf c d i) = true) : u.mixedBy c i = true := by
  cases d with
  | rx => exact Bool.or_eq_true_iff.2 (.inl h)
  | tx => exact Bool.or_eq_true_iff.2 (.inr h)

/-- In a run that has used neither width no operation mixes two uses. -/
theorem WidthUses.not_mixedBy_of_unused {c : Config} {u : WidthUses} (h : ∀ d, u.of d = .unused) :
    u.mixedBy c i = false := by
  have hrx : u.rx = .unused := h .rx
  have htx : u.tx = .unused := h .tx
  rw [WidthUses.mixedBy, hrx, htx]
  rfl

/-- A request that would mix the two uses of a width is refused (R305, log entry 16). -/
theorem step_of_clashes {q : Request} {rest : List Request} (hp : s.pending = q :: rest)
    (hd : decode q.bytes = .ok i) (ha : permitted q.agent i = true)
    (hc : (s.widthUse.of d).clashes (widthUseOf s.cfg d i) = true) : step s = .refused .mixedWidthUse :=
  step_of_fetch_refuse (by simp [State.fetch_of_decode hp hd, ha, WidthUses.mixedBy_of_clashes hc])

/-- The step notes the use its operation makes of the widths, and the operation does not change the note. -/
theorem step_widthUse {q : Request} {rest : List Request} (hp : s.pending = q :: rest) (hd : decode q.bytes = .ok i)
    (ht : step s = .next t) : t.widthUse = s.widthUse.after s.cfg i := by
  obtain ⟨q', rest', i', hp', hd', _, _, he⟩ := step_next ht
  cases hp.symm.trans hp'
  cases hd.symm.trans hd'
  exact exec_widthUse i he

theorem WidthUses.of_after_powerOn (c : Config) (u : WidthUses) (d : Dir) :
    (u.after c .powerOn).of d = .unused := by
  cases d <;> rfl

/-- A use of a width is noted as the last one. -/
theorem WidthUses.of_after_of_use {c : Config} (u : WidthUses) {now : WidthUse} (hnow : now ≠ .unused)
    (h : widthUseOf c d i = now) : (u.after c i).of d = now := by
  have hon : i ≠ .powerOn := by
    rintro rfl
    exact hnow h.symm
  rw [WidthUses.of_after c u hon, h, WidthUse.after, if_neg hnow]

theorem WidthUses.of_after_of_unused {c : Config} (u : WidthUses) (hon : i ≠ .powerOn)
    (h : widthUseOf c d i = .unused) : (u.after c i).of d = u.of d := by
  rw [WidthUses.of_after c u hon, h, WidthUse.after, if_pos rfl]

/-! ### The registers of the widths and the modes (R260, R305) -/

/-- A captured block stages samples and runs the codec; neither writes a width or a mode (R272, R277). -/
theorem State.txBlock_widths_modes {x : List Sample} (h : s.txBlock x = .ok t) :
    t.adpRx.w = s.adpRx.w ∧ t.adpTx.w = s.adpTx.w ∧ t.so.rxMode = s.so.rxMode ∧ t.so.txMode = s.so.txMode := by
  rcases State.txBlock_cases h with ⟨_, rfl⟩ | ⟨_, _, u, hu, rfl⟩
  · exact ⟨rfl, rfl, rfl, rfl⟩
  · exact ⟨rfl, TxPath.encodeAll_w _ _ _ _ _ u hu, rfl, rfl⟩

end WidthUses

/-- Settles O58: of the operations that write the registers of `State.modeView` only `SO_TX_BLOCK` is not named, and it
writes the stage alone; the step refuses what `WidthUse.clashes` and notes what `widthUseOf` says. -/
theorem onlyTheOrchestratorChangesModes : Obligations.OnlyTheOrchestratorChangesModes := by
  constructor
  · intro s t i h hno
    rcases exec_modeView h with hw | hv
    · cases hw with
      | soTxBlock x => obtain ⟨_, _, u, hu, rfl⟩ := exec_soTxBlock_next h; exact (State.txBlock_widths_modes hu :)
      | _ => exact hno.elim
    · simp only [State.modeView, Prod.mk.injEq] at hv
      obtain ⟨hrx, htx, hrm, htm, _⟩ := hv
      exact ⟨hrx, htx, hrm, htm⟩
  · intro s q rest i d hp hd ha direct orchestrator
    have hdirect : direct → widthUseOf s.cfg d i = .direct := widthUseOf_eq_direct_iff.2
    have horch : orchestrator → widthUseOf s.cfg d i = .orchestrated := widthUseOf_eq_orchestrated_iff.2
    refine ⟨fun hi hu => ?_, fun hi hu => ?_, WidthUses.not_mixedBy_of_unused, fun t ht => ?_⟩
    · exact step_of_clashes hp hd ha (by rw [hu, hdirect hi]; rfl)
    · exact step_of_clashes hp hd ha (by rw [hu, horch hi]; rfl)
    · rw [step_widthUse hp hd ht]
      refine ⟨?_, fun hi => ?_, fun hi => ?_, fun hon hnd hno => ?_⟩
      · rintro rfl
        exact WidthUses.of_after_powerOn _ _ d
      · exact WidthUses.of_after_of_use _ (by decide) (hdirect hi)
      · exact WidthUses.of_after_of_use _ (by decide) (horch hi)
      · exact WidthUses.of_after_of_unused _ hon (widthUseOf_eq_unused hnd hno)

end Sys2Proof.Machine
end

section
/-! Power-on and what outlasts an operation (spec/70_reset_and_hazards.md): the registers after `POWER_ON`, the condition
that guards every other operation (R320), and the parameters and counters across one (R37, R78). -/

namespace Sys2Proof.Machine

section PowerOn

variable {s t : State} {i : Instr}

/-! ### `POWER_ON` and the power-on condition (R320) -/

/-- Everything `POWER_ON` does (R46, R320). -/
theorem State.powerOn_eq (s : State) :
    s.powerOn =
      { s with
        poweredOn := true
        adpRx := Adp.idle .w4
        adpTx := Adp.idle .w4
        rcUp := RcUp.idle s.cfg
        rcDn := RcDn.idle s.cfg
        jb := Jb.idle s.cfg.capacity 0 0
        mf := Mf.idle
        so := So.idle
        log := [] } := rfl

/-- Every other operation asks first whether the block is on. -/
theorem exec_eq_whenOn (hon : i ≠ .powerOn) (s : State) : ∃ k, exec i s = s.whenOn k := by
  cases i with
  | powerOn => exact absurd rfl hon
  | _ => exact ⟨_, rfl⟩

theorem poweredOn_of_exec_next (hon : i ≠ .powerOn) (h : exec i s = .next t) : s.poweredOn = true := by
  obtain ⟨k, hk⟩ := exec_eq_whenOn hon s
  obtain ⟨hp, _⟩ := State.whenOn_next (hk.symm.trans h)
  exact hp

/-! ### The statistics counters (R227, R320) -/

/-- The parameters and the power-on condition stay, and the statistics counters of the jitter buffer do not fall. -/
structure State.CountersGrow (s t : State) : Prop where
  cfg : t.cfg = s.cfg
  poweredOn : t.poweredOn = s.poweredOn
  underruns : s.jb.underruns ≤ t.jb.underruns
  overruns : s.jb.overruns ≤ t.jb.overruns

/-- The registers that `State.CountersGrow` speaks of. -/
def State.counterView (s : State) : Config × Bool × Nat × Nat :=
  (s.cfg, s.poweredOn, s.jb.underruns, s.jb.overruns)

theorem State.CountersGrow.of_counterView (hv : t.counterView = s.counterView) : s.CountersGrow t := by
  simp only [State.counterView, Prod.mk.injEq] at hv
  obtain ⟨hcfg, hp, hu, ho⟩ := hv
  exact ⟨hcfg, hp, hu.ge, ho.ge⟩

theorem State.CountersGrow.give (h : s.CountersGrow t) (r : Result) : s.CountersGrow (t.give r) := { h with }

/-- R222, R223: a push counts its overruns alone. -/
theorem Jb.push_counters_le (c : Nat) (j : Jb) (x : List Sample) :
    j.underruns ≤ (j.push c x).1.underruns ∧ j.overruns ≤ (j.push c x).1.overruns := by
  obtain ⟨_, hover, hunder⟩ := Jb.push_events c j x
  exact ⟨hunder.ge, hover ▸ Nat.le_add_right _ _⟩

/-- R225: a pull counts its underruns alone. -/
theorem Jb.pull_counters_le (c : Nat) (gain : Rat) (n : Nat) (j : Jb) :
    j.underruns ≤ (j.pull c gain n).2.1.underruns ∧ j.overruns ≤ (j.pull c gain n).2.1.overruns := by
  obtain ⟨_, _, _, _, hover, hunder, _⟩ := Jb.pull_frame c gain n j
  exact ⟨hunder ▸ Nat.le_add_right _ _, hover.ge⟩

/-- R266 to R269: a packet that is played is pushed, and nothing else of a packet reaches a counter. -/
theorem State.rxAudio_countersGrow {p : List Byte} (h : s.rxAudio p = .ok t) : s.CountersGrow t := by
  rcases State.rxAudio_cases h with ⟨_, rfl⟩ | ⟨_, _, rfl⟩ | ⟨_, _, _, rfl⟩ | ⟨_, _, _, _, _, _, hm⟩
  · exact .of_counterView rfl
  · exact .of_counterView rfl
  · exact .of_counterView rfl
  · rcases hm with ⟨_, rfl⟩ | ⟨_, r, _, rfl⟩
    · exact .of_counterView rfl
    · obtain ⟨hu, ho⟩ := Jb.push_counters_le s.cfg.capacity s.jb (interpAll s.cfg s.rcUp r.2).1
      exact ⟨rfl, rfl, hu, ho⟩

theorem State.setAdp_counterView (s : State) (d : Dir) (a : Adp) : (s.setAdp d a).counterView = s.counterView := by
  cases d <;> rfl

/-- R221, R261, R262: `JB_RESET` keeps the two counters, within `SO_START` and `SO_STOP` too. -/
theorem State.resetStreams_counterView (s : State) (running : Bool) :
    (s.resetStreams running).counterView = s.counterView := by
  rw [State.resetStreams_eq]
  rfl

theorem State.setTxMode_counterView (s : State) (m : Mode) : (s.setTxMode m).counterView = s.counterView := by
  by_cases hm : m = s.so.txMode
  · rw [State.setTxMode_same s m hm]
  · rw [State.setTxMode_eq s m hm]
    rfl

theorem State.txBlock_counterView {x : List Sample} (h : s.txBlock x = .ok t) : t.counterView = s.counterView := by
  rcases State.txBlock_cases h with ⟨_, rfl⟩ | ⟨_, _, _, _, rfl⟩ <;> rfl

/-- Only `POWER_ON` lowers a counter: of the others, the pushes and the pull count on and the rest leave the counters. -/
theorem exec_countersGrow (hon : i ≠ .powerOn) (h : exec i s = .next t) : s.CountersGrow t := by
  cases i
  case powerOn => exact absurd rfl hon
  case alawEnc => obtain ⟨_, rfl⟩ := exec_alawEnc_next h; exact .of_counterView rfl
  case alawDec => obtain ⟨_, rfl⟩ := exec_alawDec_next h; exact .of_counterView rfl
  case ulawEnc => obtain ⟨_, rfl⟩ := exec_ulawEnc_next h; exact .of_counterView rfl
  case ulawDec => obtain ⟨_, rfl⟩ := exec_ulawDec_next h; exact .of_counterView rfl
  case alawEncBuf => obtain ⟨_, rfl⟩ := exec_alawEncBuf_next h; exact .of_counterView rfl
  case alawDecBuf => obtain ⟨_, rfl⟩ := exec_alawDecBuf_next h; exact .of_counterView rfl
  case ulawEncBuf => obtain ⟨_, rfl⟩ := exec_ulawEncBuf_next h; exact .of_counterView rfl
  case ulawDecBuf => obtain ⟨_, rfl⟩ := exec_ulawDecBuf_next h; exact .of_counterView rfl
  case adpcmReset d => obtain ⟨_, rfl⟩ := exec_adpcmReset_next h; exact .of_counterView (s.setAdp_counterView d _)
  case adpcmSetw d w =>
    obtain ⟨_, _, _, rfl⟩ := exec_adpcmSetw_next h
    exact .of_counterView (s.setAdp_counterView d _)
  case adpcmEnc => obtain ⟨_, _, rfl⟩ := exec_adpcmEnc_next h; exact .of_counterView rfl
  case adpcmDec => obtain ⟨_, _, rfl⟩ := exec_adpcmDec_next h; exact .of_counterView rfl
  case adpcmEncBuf => obtain ⟨_, _, _, _, _, rfl⟩ := exec_adpcmEncBuf_next h; exact .of_counterView rfl
  case adpcmDecBuf => obtain ⟨_, _, _, _, _, _, rfl⟩ := exec_adpcmDecBuf_next h; exact .of_counterView rfl
  case rcReset p => obtain ⟨_, rfl⟩ := exec_rcReset_next h; cases p <;> exact .of_counterView rfl
  case interp6 => obtain ⟨_, rfl⟩ := exec_interp6_next h; exact .of_counterView rfl
  case decim6 => obtain ⟨_, _, rfl⟩ := exec_decim6_next h; exact .of_counterView rfl
  case jbReset => obtain ⟨_, rfl⟩ := exec_jbReset_next h; exact .of_counterView rfl
  case jbPush x =>
    obtain ⟨_, rfl⟩ := exec_jbPush_next h
    obtain ⟨hu, ho⟩ := Jb.push_counters_le s.cfg.capacity s.jb x
    exact ⟨rfl, rfl, hu, ho⟩
  case jbPull n =>
    obtain ⟨_, _, rfl⟩ := exec_jbPull_next h
    obtain ⟨hu, ho⟩ := Jb.pull_counters_le s.cfg.capacity s.cfg.driftGain n.toNat s.jb
    exact ⟨rfl, rfl, hu, ho⟩
  case mfReset => obtain ⟨_, rfl⟩ := exec_mfReset_next h; exact .of_counterView rfl
  case mfFeed => obtain ⟨_, _, rfl⟩ := exec_mfFeed_next h; exact .of_counterView rfl
  case mfEncode => obtain ⟨_, _, _, rfl⟩ := exec_mfEncode_next h; exact .of_counterView rfl
  case soStart => obtain ⟨_, rfl⟩ := exec_soStart_next h; exact .of_counterView (s.resetStreams_counterView true)
  case soStop => obtain ⟨_, rfl⟩ := exec_soStop_next h; exact .of_counterView (s.resetStreams_counterView false)
  case soDispatch =>
    obtain ⟨_, ⟨_, u, hu, rfl⟩ | ⟨_, rfl⟩⟩ := exec_soDispatch_next h
    · exact (State.rxAudio_countersGrow hu).give _
    · exact .of_counterView rfl
  case soRxAudio => obtain ⟨_, u, hu, rfl⟩ := exec_soRxAudio_next h; exact (State.rxAudio_countersGrow hu).give _
  case soRxVideo => obtain ⟨_, _, _, _, rfl⟩ := exec_soRxVideo_next h; exact .of_counterView rfl
  case soSetTxMode m => obtain ⟨_, rfl⟩ := exec_soSetTxMode_next h; exact .of_counterView (s.setTxMode_counterView m)
  case soTxBlock =>
    obtain ⟨_, _, u, hu, rfl⟩ := exec_soTxBlock_next h
    exact (State.CountersGrow.of_counterView (State.txBlock_counterView hu)).give _
  case soTxDrain => obtain ⟨_, rfl⟩ := exec_soTxDrain_next h; exact .of_counterView rfl
  case soDeviceFail =>
    obtain ⟨_, rfl⟩ := exec_soDeviceFail_next h
    exact .of_counterView ((s.raise .stopStreaming).resetStreams_counterView false)
  case soTransportStop => obtain ⟨_, rfl⟩ := exec_soTransportStop_next h; exact .of_counterView rfl

end PowerOn

/-! ### The obligations -/

/-- Settles O7: the register values are written out in `Adp.idle`, `RcUp.idle`, `RcDn.idle`, `Jb.idle`, `Mf.idle` and
`So.idle`. -/
theorem powerOnSetsEveryRegister : Obligations.PowerOnSetsEveryRegister :=
  fun s => congrArg (fun t : State => t.done .unit) s.powerOn_eq

/-- Settles O8: the power-on condition stands before the meaning of every other operation. -/
theorem refusedBeforePowerOn : Obligations.RefusedBeforePowerOn := by
  intro s i hoff hon
  obtain ⟨k, hk⟩ := exec_eq_whenOn hon s
  rw [hk, State.whenOn_off hoff]

/-- Settles O59: the log grows by the events of the operation (O60), and the counters by those of the jitter buffer. -/
theorem logAndCountersOnlyGrow : Obligations.LogAndCountersOnlyGrow := by
  intro s t i h
  by_cases hon : i = .powerOn
  · subst hon
    rw [exec_powerOn_next h, State.powerOn_eq]
    exact ⟨rfl, rfl, fun hne => absurd rfl hne⟩
  · obtain ⟨hcfg, hstays, hunder, hover⟩ := exec_countersGrow hon h
    obtain ⟨es, hlog, _⟩ := eventsByOperation s t i h hon
    exact ⟨hcfg, hstays.trans (poweredOn_of_exec_next hon h), fun _ => ⟨⟨es, hlog.symm⟩, hunder, hover⟩⟩

end Sys2Proof.Machine
end
